-- ==== Sys2Proof/Word.lean ====
section
/-! DEFINITION. The bit-vector types of CORE: what the spec treats as bits has a width here; cursors, lengths and
counts are naturals (spec/00_scope.md R9). -/

namespace Sys2Proof

/-- One byte, the only unit of access of either buffer (R60, R67). -/
abbrev Byte := BitVec 8

/-- A 32-bit header word: `SIZE_W` = 32 (R6). -/
abbrev Word32 := BitVec 32

/-- A host length register: `LEN_W` = 64 (R7). -/
abbrev LenWord := BitVec 64

end Sys2Proof
end

