-- ==== Sys2Proof/Config.lean ====
section
/-! DEFINITION. The constants the format fixes (spec/00_scope.md R6), the parameters of the hardware (R7), and the
free values of the model: constants without a body, about which nothing can be proved. -/

namespace Sys2Proof

/-- The four bytes of the frame's magic tag (R7, R111), the byte of the lowest address first. -/
structure Magic where
  m0 : Byte
  m1 : Byte
  m2 : Byte
  m3 : Byte
  deriving DecidableEq, Repr, Inhabited

/-- The tag's bytes in address order. -/
def Magic.bytes (m : Magic) : List Byte := [m.m0, m.m1, m.m2, m.m3]

/-- The parameters that R7 leaves to the implementation. A capacity `none` means "no limit".
`LAZY`, `PAD_BIT` and `LEN_W` are fixed by R7 (false, 0, 64) and so are no fields. -/
structure Config where
  /-- `MAGIC`. -/
  magic   : Magic
  /-- `IBUF_CAP`, OPEN. -/
  ibufCap : Option Nat
  /-- `OBUF_CAP`, OPEN. -/
  obufCap : Option Nat
  deriving DecidableEq, Repr, Inhabited

namespace Config

/-- `HDR_SIZE`: bytes in the frame header (R6). -/
@[reducible, simp] def hdrSize : Nat := 16
/-- `MAGIC_SIZE`: bytes in the magic tag (R6). -/
@[reducible, simp] def magicSize : Nat := 4
/-- `GROUP`: tokens in a full group (R6). -/
@[reducible, simp] def group : Nat := 8
/-- `WINDOW`: the largest distance (R6). -/
@[reducible, simp] def window : Nat := 4096
/-- `MIN_LEN`: the smallest back-reference length (R6). -/
@[reducible, simp] def minLen : Nat := 3
/-- `SHORT_MAX`: the largest length of the 2-byte form (R6). -/
@[reducible, simp] def shortMax : Nat := 17
/-- `EXT_BASE`: the length of the 3-byte form when `extra` is 0 (R6). -/
@[reducible, simp] def extBase : Nat := 18
/-- `MAX_LEN`: the largest length (R6). -/
@[reducible, simp] def maxLen : Nat := 273
/-- `LEN_BIAS`: `length = n + 2` in the 2-byte form (R6). -/
@[reducible, simp] def lenBias : Nat := 2
/-- `DIST_BIAS`: `distance = D + 1` (R6). -/
@[reducible, simp] def distBias : Nat := 1
/-- Bytes of the group staging buffer: `GROUP * 3` (10_state.md R34). -/
@[reducible, simp] def stageSize : Nat := 24

/-- The tag `59 61 7A 30` (ASCII `Yaz0`). PRESUMED: the spec itself takes it from general knowledge (R7, R111, G1); log 1. -/
def defaultMagic : Magic := ⟨0x59#8, 0x61#8, 0x7A#8, 0x30#8⟩

/-- The configuration State.reset carries: the default tag, and "no limit" for both capacities, which R7 and R214 name
for a model with unbounded lists. DESIGN CHOICE; log 2. -/
def initial : Config := ⟨defaultMagic, none, none⟩

/-- What has a value that the spec leaves unspecified: the datapath registers after reset, at a command start or after a
search, and the bytes of IBUF after reset (R42, R174). -/
inductive FreeReg where
  | src | pos | dlen | ctrl | bitsLeft | cbit | b0 | b1 | n | extra | length | distance | cnt
  | i | lo | cap | j | k | bestLen | bestDist | wp
  | grpCtrl | grpCnt | grpLen
  | grpBuf (t : Nat)
  | ibuf (a : Nat)
  deriving DecidableEq, Repr

/-- FREE VALUE: what register `r` holds after draw number `draw`, where the spec calls its value unspecified. It has no
body, so a claim about it is a claim about every value. Logs 5, 6 and 13. -/
opaque free : (draw : Nat) → (r : FreeReg) → Nat

end Config

end Sys2Proof
end

