-- ==== Sys2Proof/Syntax.lean ====
section
/-! DEFINITION. The instructions: one constructor for each row of spec/opcode_table.json. The first five are the encoded
objects of spec/30_encoding.md R90; the others are the operations without an encoding of their own (R109), the two host
commands (44_commands.md R211, R212), fault entry (60_exceptions.md R239) and reset (70_reset_and_hazards.md R260). -/

namespace Sys2Proof

/-- The five faults of 60_exceptions.md R230. -/
inductive FaultKind where
  | badMagic | truncated | invalidDistance | lengthOverrun | encInternal
  deriving DecidableEq, Repr, Inhabited

/-- The instructions of CORE, in the order of the opcode table. Operands that the spec's rule takes as arguments are
arguments here; operands it takes from registers are not. -/
inductive Instr where
  /-- HDR: a frame header whose tag matched, with its three words (R91). -/
  | hdr (dlen rsv0 rsv1 : Word32)
  /-- CTRL: a control byte (R92). -/
  | ctrl (c : Byte)
  /-- LIT: a literal byte (R95). -/
  | lit (v : Byte)
  /-- BREF.S: the 2-byte back-reference, `n != 0` (R96). -/
  | brefS (n : BitVec 4) (D : BitVec 12)
  /-- BREF.X: the 3-byte back-reference, `n = 0` (R97). -/
  | brefX (D : BitVec 12) (e : Byte)
  /-- HDR.PARSE (R120). -/
  | hdrParse
  /-- HDR.EMIT (R122). -/
  | hdrEmit
  /-- DISPATCH (R142). -/
  | dispatch
  /-- BREF.CHECK (R146). -/
  | brefCheck
  /-- REPLAY, one byte of the copy (R147). -/
  | replay
  /-- D.DONE (R148). -/
  | dDone
  /-- WINDOW (R171). -/
  | window
  /-- MATCHLEN for the candidate in register `j` (R172). -/
  | matchlen
  /-- SELECT (R173). -/
  | select
  /-- ACCEPT (R175). -/
  | accept
  /-- E.STEP (R192). -/
  | eStep
  /-- EMIT.LIT(`v`) (R193). -/
  | emitLit (v : Byte)
  /-- EMIT.BREF(`d`, `l`) (R194). -/
  | emitBref (d l : Nat)
  /-- EMIT.BREF.S, with `D = d - 1` as R194 hands it over (R195). -/
  | emitBrefS (D : BitVec 12) (l : Nat)
  /-- EMIT.BREF.X, with `D = d - 1` (R196). -/
  | emitBrefX (D : BitVec 12) (l : Nat)
  /-- PACK(`c`) (R197). -/
  | pack (c : Bool)
  /-- FLUSH (R198). -/
  | flush
  /-- FINAL (R199). -/
  | final
  /-- E.DONE (R201). -/
  | eDone
  /-- DECODE: the host command of CMD value 1 (R210, R211). -/
  | decode
  /-- ENCODE: the host command of CMD value 2 (R210, R212). -/
  | encode
  /-- RAISE: fault entry (R239). -/
  | raise (f : FaultKind)
  /-- RESET (R260). -/
  | reset
  deriving DecidableEq, Repr

end Sys2Proof
end

