-- ==== Sys2Proof/Machine/State.lean ====
section
/-! DEFINITION. The state of CORE (spec/10_state.md), grouped as the spec's sections group it, the reasons a step can
stop, and the state right after reset. -/

namespace Sys2Proof.Machine

/-- `STATUS.STATE` (R23). -/
inductive Status where
  | idle | busy | done | fault
  deriving DecidableEq, Repr, Inhabited

/-- The content of `ERR` (R24, R230): six values. -/
inductive ErrCode where
  | none | badMagic | truncated | invalidDistance | lengthOverrun | encInternal
  deriving DecidableEq, Repr, Inhabited

/-- The phase register (R35). -/
inductive Phase where
  | idle | dHdr | dGroup | dToken | dLit | dBref | dCopy | eHdr | eScan | eFinal
  deriving DecidableEq, Repr, Inhabited

/-- The decision of ACCEPT (R175). -/
inductive Decision where
  | literal (v : Byte)
  | backRef (distance length : Nat)
  deriving DecidableEq, Repr, Inhabited

/-- A byte memory: the listed (address, byte) pairs, addresses strictly rising. An unlisted address has no value that
CORE can read, since the spec leaves the contents after reset unspecified (R42); log 6. -/
abbrev Memory := List Host.Cell

/-- The decoder datapath registers (R29 to R32). Cursors and lengths are naturals (R9). -/
structure DecRegs where
  src      : Nat
  pos      : Nat
  dlen     : Nat
  ctrl     : Byte
  bitsLeft : Nat
  cbit     : Bool
  b0       : Byte
  b1       : Byte
  n        : BitVec 4
  extra    : Byte
  length   : Nat
  distance : Nat
  cnt      : Nat
  deriving DecidableEq, Repr, Inhabited

/-- The match-finder and scan registers (R33), and the model's own latch `decision` between ACCEPT and the emitter; log 12. -/
structure EncRegs where
  i        : Nat
  lo       : Nat
  cap      : Nat
  j        : Nat
  k        : Nat
  bestLen  : Nat
  bestDist : Nat
  wp       : Nat
  decision : Decision
  deriving DecidableEq, Repr, Inhabited

/-- The group staging buffer (R34). -/
structure Group where
  ctrl : Byte
  cnt  : Nat
  buf  : Vector Byte 24
  len  : Nat
  deriving DecidableEq, Repr, Inhabited

/-- The complete state of CORE (R20), with the configuration beside it (log 3) and the model's own counter `draws`. -/
structure State where
  /-- MAGIC, IBUF_CAP, OBUF_CAP (R7); no step changes it. -/
  cfg    : Config
  /-- The reset input (R260). -/
  rst    : Bool
  /-- `CMD` (R22): the request that the next step starts; `none` is R42's "holds no value". HOST sees the command as started
  from its write on (log 7). -/
  cmd    : Option (BitVec 2)
  /-- `STATUS.STATE` (R23). -/
  status : Status
  /-- `ERR` (R24). -/
  err    : ErrCode
  /-- `IN_LEN` (R25). -/
  inLen  : LenWord
  /-- `OUT_LEN` (R26). -/
  outLen : LenWord
  /-- `DLEN` (R27). -/
  dlenR  : Word32
  /-- `RSV0` (R28). -/
  rsv0   : Word32
  /-- `RSV1` (R28). -/
  rsv1   : Word32
  /-- `phase` (R35). -/
  phase  : Phase
  dec    : DecRegs
  enc    : EncRegs
  grp    : Group
  /-- IBUF (R37). -/
  ibuf   : Memory
  /-- OBUF (R38). -/
  obuf   : Memory
  /-- The model's own: the draw whose free values the bytes of IBUF hold that nothing has written since reset; log 6. -/
  ibufDraw : Nat
  /-- The model's own: the number of the next draw of free values; logs 5 and 13. -/
  draws  : Nat
  deriving DecidableEq, Repr, Inhabited

/-- Why the model stops with a fault. None of these is a fault of the spec: those are next states (R239). -/
inductive Fault where
  /-- Raised by a read of IBUF at an address that nothing has written, or at or above IN_LEN (R71, R246). Safe. -/
  | noInputByte
  /-- Raised by REPLAY when it reads an OBUF address that nothing has written (R72 says it never does). Safe. -/
  | noOutputByte
  /-- Raised by REPLAY when `distance > pos`: the address `pos - distance` does not exist (R147; no run gets there). Safe. -/
  | noOutputAddress
  /-- Raised by the emitter and by FLUSH at a `grp_buf` index above 23, which does not exist (R34; no run gets there). Safe. -/
  | noStageByte
  /-- Raised by WINDOW when the scan position is beyond the input: `IN_LEN - i` is no natural (R9, R171; no run gets there). Safe. -/
  | scanPastInput
  deriving DecidableEq, Repr

/-- Why the model gives a step no meaning. -/
inductive Refusal where
  /-- An instruction whose meaning is not written; its arm in Dispatch.lean names it. Safe. -/
  | notModelled (mnemonic : String)
  /-- A command start with `IN_LEN > IBUF_CAP` (R214 (a)), or HOST's access to IBUF above IBUF_CAP. Safe. -/
  | inputCapacity
  /-- ENCODE with `IN_LEN > 2^32 - 1` (R214 (b)). Safe. -/
  | inputTooLong
  /-- Output above OBUF_CAP (R214 (c)), or a parsed header with `dlen > OBUF_CAP` (R214 (d)). Safe. -/
  | outputCapacity
  /-- EMIT.BREF.S or EMIT.BREF.X with a length outside the form's range (R195, R196): an ill-formed term. Safe. -/
  | operandRange
  /-- HOST's access to a buffer, IN_LEN or a result register while BUSY, which it is from the CMD write on (R78, R263, U9).
  Safe. -/
  | hostWhileBusy
  /-- HOST's read of CMD (R22, U15). Safe. -/
  | cmdRead
  /-- HOST's read of an OBUF byte that is no output (R43). Safe. -/
  | noResult
  deriving DecidableEq, Repr

/-- The state right after reset (R42, R260): IDLE, P_IDLE, the host-visible registers 0, CMD without a value, the reset
input released. Where R42 says "unspecified" a register is 0 here, DESIGN CHOICE, log 4; the buffers list nothing, log 6;
the capacities have no limit, log 2. -/
def State.reset : State where
  cfg    := Config.initial
  rst    := false
  cmd    := none
  status := .idle
  err    := .none
  inLen  := 0
  outLen := 0
  dlenR  := 0
  rsv0   := 0
  rsv1   := 0
  phase  := .idle
  dec    := ⟨0, 0, 0, 0, 0, false, 0, 0, 0, 0, 0, 0, 0⟩
  enc    := ⟨0, 0, 0, 0, 0, 0, 0, 0, .literal 0⟩
  grp    := ⟨0, 0, Vector.replicate 24 0, 0⟩
  ibuf   := []
  obuf   := []
  ibufDraw := 0
  draws  := 1

end Sys2Proof.Machine
end

