-- ==== Sys2Proof/Machine/Ops.lean ====
section
/-! DEFINITION. The named operations every meaning is written over: byte memories, the two buffers of the state, updates of
one group of registers, how an operation ends, and taking a fault (spec/60_exceptions.md R239). There is no return from a
fault (R241). -/

namespace Sys2Proof.Machine

/-! ## Byte memories -/

/-- The byte at address `a`, if anything has written it. -/
def Memory.read : Memory → Nat → Option Byte
  | [], _ => none
  | (x, v) :: m, a => if a = x then some v else Memory.read m a

/-- Write byte `v` at address `a` (R10, R67), keeping addresses strictly rising. -/
def Memory.write : Memory → Nat → Byte → Memory
  | [], a, v => [(a, v)]
  | (x, w) :: m, a, v =>
    if a < x then (a, v) :: (x, w) :: m
    else if a = x then (a, v) :: m
    else (x, w) :: Memory.write m a v

/-- Write a run of bytes at consecutive addresses in ascending order (R67). -/
def Memory.writeList : Memory → Nat → List Byte → Memory
  | m, _, [] => m
  | m, a, v :: vs => Memory.writeList (Memory.write m a v) (a + 1) vs

/-- The canonical form: addresses strictly rising. -/
def Memory.wf : Memory → Bool
  | [] => true
  | [_] => true
  | (a, _) :: (b, v) :: m => decide (a < b) && Memory.wf ((b, v) :: m)

/-! ## How an operation ends -/

/-- Why an operation does not complete with its own effect. -/
inductive Stop where
  /-- `raise F` (R10, R239). -/
  | raise (f : FaultKind)
  | fault (r : Fault)
  | refused (r : Refusal)
  deriving DecidableEq, Repr

/-- What an operation gives: the state after its effect, or why it has none. -/
abbrev Op := Except Stop State

/-- The code a fault writes to ERR (R230). -/
def FaultKind.code : FaultKind → ErrCode
  | .badMagic => .badMagic
  | .truncated => .truncated
  | .invalidDistance => .invalidDistance
  | .lengthOverrun => .lengthOverrun
  | .encInternal => .encInternal

/-- Fault entry (R239): the code goes to ERR, the result registers become 0, the command is over. Nothing else changes. -/
def State.takeFault (s : State) (f : FaultKind) : State :=
  { s with
    err := FaultKind.code f
    outLen := 0
    dlenR := 0
    rsv0 := 0
    rsv1 := 0
    status := .fault
    phase := .idle }

/-- How an operation on `s` becomes an outcome. A raised fault is taken from `s` itself, so the operation has no other
effect (R10: "the step has no other effect"; R239). -/
def settle (s : State) : Op → Host.Outcome State Fault Refusal
  | .ok t => .next t
  | .error (.raise f) => .next (s.takeFault f)
  | .error (.fault r) => .fault r
  | .error (.refused r) => .refused r

/-! ## Updates of one group of registers -/

/-- `s` with other decoder datapath registers. -/
def State.setDec (s : State) (d : DecRegs) : State := { s with dec := d }

/-- `s` with other match-finder and scan registers. -/
def State.setEnc (s : State) (e : EncRegs) : State := { s with enc := e }

/-- `s` with another group staging buffer. -/
def State.setGrp (s : State) (g : Group) : State := { s with grp := g }

/-- `phase <- p` (R10, R35). -/
def State.setPhase (s : State) (p : Phase) : State := { s with phase := p }

/-- `s` with other contents of OBUF. -/
def State.setObuf (s : State) (m : Memory) : State := { s with obuf := m }

/-- One more draw of free values (log 5). -/
def State.bumpDraws (s : State) : State := { s with draws := s.draws + 1 }

/-! ## The buffers -/

/-- `IN_LEN` as the natural the rules compute with (R9). -/
def State.len (s : State) : Nat := s.inLen.toNat

/-- A capacity holds addresses 0 to `n - 1`; `none` is "no limit" (R7, R37, R38). -/
def capFits : Option Nat → Nat → Bool
  | none, _ => true
  | some c, n => decide (n ≤ c)

/-- IBUF has addresses 0 to `n - 1`. -/
def State.ibufFits (s : State) (n : Nat) : Bool := capFits s.cfg.ibufCap n

/-- OBUF has addresses 0 to `n - 1`. -/
def State.obufFits (s : State) (n : Nat) : Bool := capFits s.cfg.obufCap n

/-- `IBUF[a]` where CORE may read it: below IN_LEN (R71). -/
def State.inputAt (s : State) (a : Nat) : Option Byte :=
  if a < s.len then Memory.read s.ibuf a else none

/-- `MemRead(IBUF, a, 1)` (R10). -/
def State.inputByte (s : State) (a : Nat) : Except Stop Byte :=
  match s.inputAt a with
  | some v => .ok v
  | none => .error (.fault .noInputByte)

/-- The input bytes from address `a` on, at most `n` of them, as far as they can be read. -/
def State.inputPrefix (s : State) (a : Nat) : Nat → List Byte
  | 0 => []
  | n + 1 =>
    match s.inputAt a with
    | some v => v :: s.inputPrefix (a + 1) n
    | none => []

/-- `MemWrite(OBUF, a, 1, v)` for the bytes `vs` in ascending order (R10, R67); beyond OBUF_CAP it is refused (R214). -/
def State.writeOut (s : State) (a : Nat) (vs : List Byte) : Op :=
  if s.obufFits (a + vs.length) then .ok (s.setObuf (Memory.writeList s.obuf a vs))
  else .error (.refused .outputCapacity)

/-- `MemRead(OBUF, a, 1)` (R10). -/
def State.outputByte (s : State) (a : Nat) : Except Stop Byte :=
  match Memory.read s.obuf a with
  | some v => .ok v
  | none => .error (.fault .noOutputByte)

end Sys2Proof.Machine
end

