-- ==== Sys2Proof/Machine/Flags.lean ====
section
/-! DEFINITION. The condition bits of spec/10_state.md R36. CORE has no flags register: each is a comparison of registers,
made where it is read. -/

namespace Sys2Proof.Machine

/-- `pos >= dlen`: end of decoding. -/
def State.outputComplete (s : State) : Bool := decide (s.dec.dlen ≤ s.dec.pos)

/-- `src >= IN_LEN`: no byte of the token stream is left. -/
def State.inputExhausted (s : State) : Bool := decide (s.len ≤ s.dec.src)

/-- `src + 2 > IN_LEN`: fewer than two bytes are left. -/
def State.codeMissing (s : State) : Bool := decide (s.len < s.dec.src + 2)

/-- `src + 2 >= IN_LEN`: the third byte of an extended back-reference is missing (R145 after its two code bytes). -/
def State.extraMissing (s : State) : Bool := decide (s.len ≤ s.dec.src + 2)

/-- `distance > pos`: a reference before the start of output. -/
def State.distanceBeforeStart (s : State) : Bool := decide (s.dec.pos < s.dec.distance)

/-- `pos + length > dlen`: a reference past the declared length; the sum does not wrap (R9). -/
def State.lengthPastEnd (s : State) : Bool := decide (s.dec.dlen < s.dec.pos + s.dec.length)

/-- `best_len >= 3`: the acceptance threshold. -/
def State.matchAccepted (s : State) : Bool := decide (Config.minLen ≤ s.enc.bestLen)

/-- `grp_cnt == 8`: the group is full. -/
def State.groupFull (s : State) : Bool := decide (s.grp.cnt = Config.group)

/-- `i >= IN_LEN`: the scan is at the end of the input (R192). -/
def State.scanDone (s : State) : Bool := decide (s.len ≤ s.enc.i)

/-- `IN_LEN <= 2^32 - 1`: the header's length field can state the input's length (R212, R214 (b)). -/
def State.inputEncodable (s : State) : Bool := decide (s.len < 2 ^ 32)

/-- `ctrl[7]`: the control bit of the next token (R31). -/
def topBit (c : Byte) : Bool := c.getLsbD 7

end Sys2Proof.Machine
end

