-- ==== Sys2Proof/Machine/Commands.lean ====
section
/-! DEFINITION. The host commands DECODE and ENCODE (spec/44_commands.md R210 to R214), fault entry as an operation of its
own (spec/60_exceptions.md R239), and reset (spec/70_reset_and_hazards.md R260). -/

namespace Sys2Proof.Machine

/-- CMD holds no value once a write has been taken (R22). -/
def State.cmdTaken (s : State) : State := { s with cmd := none }

/-- Decoder datapath registers of unspecified value (R42): free values of draw `d`. -/
def freeDec (d : Nat) : DecRegs where
  src      := Config.free d .src
  pos      := Config.free d .pos
  dlen     := Config.free d .dlen
  ctrl     := BitVec.ofNat 8 (Config.free d .ctrl)
  bitsLeft := Config.free d .bitsLeft
  cbit     := (BitVec.ofNat 1 (Config.free d .cbit)).getLsbD 0
  b0       := BitVec.ofNat 8 (Config.free d .b0)
  b1       := BitVec.ofNat 8 (Config.free d .b1)
  n        := BitVec.ofNat 4 (Config.free d .n)
  extra    := BitVec.ofNat 8 (Config.free d .extra)
  length   := Config.free d .length
  distance := Config.free d .distance
  cnt      := Config.free d .cnt

/-- Match-finder and scan registers of unspecified value (R42). The model's own latch keeps what it held. -/
def freeEnc (d : Nat) (e : EncRegs) : EncRegs where
  i        := Config.free d .i
  lo       := Config.free d .lo
  cap      := Config.free d .cap
  j        := Config.free d .j
  k        := Config.free d .k
  bestLen  := Config.free d .bestLen
  bestDist := Config.free d .bestDist
  wp       := Config.free d .wp
  decision := e.decision

/-- A group staging buffer of unspecified contents (R42). -/
def freeGrp (d : Nat) : Group where
  ctrl := BitVec.ofNat 8 (Config.free d .grpCtrl)
  cnt  := Config.free d .grpCnt
  buf  := Vector.ofFn fun t => BitVec.ofNat 8 (Config.free d (.grpBuf t.val))
  len  := Config.free d .grpLen

/-- Command start (R210, R261): BUSY, the result registers 0, and the first phase of the path. R42 calls every datapath
register unspecified here, so they hold free values (log 5). -/
def State.startCommand (s : State) (p : Phase) : State :=
  { s with
    cmd := none
    status := .busy
    err := .none
    outLen := 0
    dlenR := 0
    rsv0 := 0
    rsv1 := 0
    phase := p
    dec := freeDec s.draws
    enc := freeEnc s.draws s.enc
    grp := freeGrp s.draws
    draws := s.draws + 1 }

/-- DECODE (R210, R211): no effect while BUSY (R22); refused where IN_LEN exceeds IBUF_CAP (R214 (a)). -/
def opDecode (s : State) : Op :=
  if s.status = .busy then .ok s.cmdTaken
  else if s.ibufFits s.len then .ok (s.startCommand .dHdr)
  else .error (.refused .inputCapacity)

/-- DECODE. -/
def execDecode (s : State) : Host.Outcome State Fault Refusal :=
  settle s (opDecode s)

/-- ENCODE (R210, R212): as DECODE, and refused where no header can state IN_LEN (R214 (b)). -/
def opEncode (s : State) : Op :=
  if s.status = .busy then .ok s.cmdTaken
  else if s.ibufFits s.len then
    if s.inputEncodable then .ok (s.startCommand .eHdr) else .error (.refused .inputTooLong)
  else .error (.refused .inputCapacity)

/-- ENCODE. -/
def execEncode (s : State) : Host.Outcome State Fault Refusal :=
  settle s (opEncode s)

/-- RAISE `f` (R239). -/
def execRaise (f : FaultKind) (s : State) : Host.Outcome State Fault Refusal :=
  settle s (.error (.raise f))

/-- RESET (R42, R260): the host-visible registers and the phase get their reset values, a requested command and the reset
input are gone, every datapath register holds a free value, no byte of either buffer is written, and the bytes of IBUF
hold the free values of this draw (logs 5, 6, 8). -/
def State.afterReset (s : State) : State :=
  { s with
    rst := false
    cmd := none
    status := .idle
    err := .none
    inLen := 0
    outLen := 0
    dlenR := 0
    rsv0 := 0
    rsv1 := 0
    phase := .idle
    dec := freeDec s.draws
    enc := freeEnc s.draws s.enc
    grp := freeGrp s.draws
    ibuf := []
    obuf := []
    ibufDraw := s.draws
    draws := s.draws + 1 }

/-- RESET. -/
def execReset (s : State) : Host.Outcome State Fault Refusal :=
  settle s (.ok s.afterReset)

end Sys2Proof.Machine
end

