-- ==== Sys2Proof/WellFormed.lean ====
section
/-! DEFINITION. Which terms of Instr are instructions: the operand ranges of spec/30_encoding.md R96 and
spec/43_emitter.md R195, R196 that the types of Syntax.lean do not carry. -/

namespace Sys2Proof

/-- The operand ranges: BREF.S has `n != 0` (R96); EMIT.BREF.S takes lengths 3 to 17 (R195) and EMIT.BREF.X lengths 18 to
273 (R196). EMIT.BREF takes any pair, since R194 checks it. -/
def Instr.wf : Instr → Bool
  | .hdr _ _ _ => true
  | .ctrl _ => true
  | .lit _ => true
  | .brefS n _ => decide (n ≠ 0#4)
  | .brefX _ _ => true
  | .hdrParse => true
  | .hdrEmit => true
  | .dispatch => true
  | .brefCheck => true
  | .replay => true
  | .dDone => true
  | .window => true
  | .matchlen => true
  | .select => true
  | .accept => true
  | .eStep => true
  | .emitLit _ => true
  | .emitBref _ _ => true
  | .emitBrefS _ l => decide (3 ≤ l ∧ l ≤ 17)
  | .emitBrefX _ l => decide (18 ≤ l ∧ l ≤ 273)
  | .pack _ => true
  | .flush => true
  | .final => true
  | .eDone => true
  | .decode => true
  | .encode => true
  | .raise _ => true
  | .reset => true

end Sys2Proof
end

