-- ==== Sys2Proof/Decode.lean ====
section
/-! DEFINITION. The decoder of the encoded objects (spec/30_encoding.md), total on any bytes and rejecting by name, and
after it the encoder, written from the same formats. -/

namespace Sys2Proof

/-! ## Fields -/

/-- `v[7:4]`, the high nibble (R8). -/
def highNibble (v : Byte) : BitVec 4 := v.extractLsb' 4 4

/-- `v[3:0]`, the low nibble (R8). -/
def lowNibble (v : Byte) : BitVec 4 := v.extractLsb' 0 4

/-- `{ b0[3:0], b1 }`: the 12-bit distance field of a back-reference code (R98). -/
def distField (b0 b1 : Byte) : BitVec 12 := lowNibble b0 ++ b1

/-- `{ n, D[11:8] }`: the first byte of a back-reference code (R96, R97). -/
def codeByte0 (n : BitVec 4) (D : BitVec 12) : Byte := n ++ D.extractLsb' 8 4

/-- `D[7:0]`: the second byte of a back-reference code (R96, R97). -/
def codeByte1 (D : BitVec 12) : Byte := D.extractLsb' 0 8

/-- `be32(b0, b1, b2, b3)` (R10, R62): the byte of the lowest address is the most significant. -/
def be32 (b0 b1 b2 b3 : Byte) : Word32 := b0 ++ b1 ++ b2 ++ b3

/-- `bytes_be32(v)` (R10, R62): the four bytes of `v` in address order. -/
def bytesBe32 (v : Word32) : List Byte :=
  [v.extractLsb' 24 8, v.extractLsb' 16 8, v.extractLsb' 8 8, v.extractLsb' 0 8]

/-! ## The decoder -/

/-- Where the bytes stand, which is what selects the object (R90): a frame's start, a group boundary, or a token whose
control bit is known. A token does not carry its own kind. -/
inductive FetchKind where
  | header
  | control
  | token (cbit : Bool)
  deriving DecidableEq, Repr

/-- Why bytes are no instruction. -/
inductive Reject where
  /-- Fewer than `need` bytes are there, and the object cannot be read without that many (R121, R141 to R145). -/
  | short (need : Nat)
  /-- The first four bytes differ from MAGIC (R121 (b)). -/
  | badMagic
  deriving DecidableEq, Repr

/-- The header's twelve bytes after the tag (R91). -/
def decodeHeaderWords : List Byte → Except Reject (Instr × List Byte)
  | l0 :: l1 :: l2 :: l3 :: r0 :: r1 :: r2 :: r3 :: s0 :: s1 :: s2 :: s3 :: rest =>
    .ok (.hdr (be32 l0 l1 l2 l3) (be32 r0 r1 r2 r3) (be32 s0 s1 s2 s3), rest)
  | _ => .error (.short 16)

/-- The header, with the check order of R121: fewer than 4 bytes, then the tag, then fewer than 16 bytes. -/
def decodeHeader (m : Magic) : List Byte → Except Reject (Instr × List Byte)
  | b0 :: b1 :: b2 :: b3 :: rest =>
    if [b0, b1, b2, b3] = m.bytes then decodeHeaderWords rest else .error .badMagic
  | _ => .error (.short 4)

/-- A control byte: any byte (R92). -/
def decodeControl : List Byte → Except Reject (Instr × List Byte)
  | c :: rest => .ok (.ctrl c, rest)
  | [] => .error (.short 1)

/-- A literal: any byte (R95). -/
def decodeLiteral : List Byte → Except Reject (Instr × List Byte)
  | v :: rest => .ok (.lit v, rest)
  | [] => .error (.short 1)

/-- The third byte of the extended form (R97). -/
def decodeExtra (D : BitVec 12) : List Byte → Except Reject (Instr × List Byte)
  | e :: rest => .ok (.brefX D e, rest)
  | [] => .error (.short 3)

/-- A back-reference: the high nibble of the first byte selects the form (R94, R101). -/
def decodeBackRef : List Byte → Except Reject (Instr × List Byte)
  | b0 :: b1 :: rest =>
    if highNibble b0 = 0#4 then decodeExtra (distField b0 b1) rest
    else .ok (.brefS (highNibble b0) (distField b0 b1), rest)
  | _ => .error (.short 2)

/-- The decode tree of R94: an instruction and the bytes after it, or a named rejection. -/
def decode (m : Magic) : FetchKind → List Byte → Except Reject (Instr × List Byte)
  | .header, bs => decodeHeader m bs
  | .control, bs => decodeControl bs
  | .token true, bs => decodeLiteral bs
  | .token false, bs => decodeBackRef bs

/-- The CMD codes (10_state.md R22, R110): 1 is DECODE, 2 is ENCODE, 0 and 3 request nothing. -/
def decodeCmd (c : BitVec 2) : Option Instr :=
  if c = 1#2 then some .decode else if c = 2#2 then some .encode else none

/-! ## The encoder -/

/-- Where an encoded instruction stands; the operations have no encoding (R109). -/
def Instr.kind : Instr → Option FetchKind
  | .hdr _ _ _ => some .header
  | .ctrl _ => some .control
  | .lit _ => some (.token true)
  | .brefS _ _ => some (.token false)
  | .brefX _ _ => some (.token false)
  | .hdrParse => none
  | .hdrEmit => none
  | .dispatch => none
  | .brefCheck => none
  | .replay => none
  | .dDone => none
  | .window => none
  | .matchlen => none
  | .select => none
  | .accept => none
  | .eStep => none
  | .emitLit _ => none
  | .emitBref _ _ => none
  | .emitBrefS _ _ => none
  | .emitBrefX _ _ => none
  | .pack _ => none
  | .flush => none
  | .final => none
  | .eDone => none
  | .decode => none
  | .encode => none
  | .raise _ => none
  | .reset => none

/-- The bytes of an encoded instruction in address order (R91, R92, R95 to R97); none for an operation (R109). -/
def encode (m : Magic) : Instr → Option (List Byte)
  | .hdr d r0 r1 => some (m.bytes ++ bytesBe32 d ++ bytesBe32 r0 ++ bytesBe32 r1)
  | .ctrl c => some [c]
  | .lit v => some [v]
  | .brefS n D => some [codeByte0 n D, codeByte1 D]
  | .brefX D e => some [codeByte0 0#4 D, codeByte1 D, e]
  | .hdrParse => none
  | .hdrEmit => none
  | .dispatch => none
  | .brefCheck => none
  | .replay => none
  | .dDone => none
  | .window => none
  | .matchlen => none
  | .select => none
  | .accept => none
  | .eStep => none
  | .emitLit _ => none
  | .emitBref _ _ => none
  | .emitBrefS _ _ => none
  | .emitBrefX _ _ => none
  | .pack _ => none
  | .flush => none
  | .final => none
  | .eDone => none
  | .decode => none
  | .encode => none
  | .raise _ => none
  | .reset => none

/-- The CMD code of a host command (R22, R110). -/
def encodeCmd : Instr → Option (BitVec 2)
  | .decode => some 1#2
  | .encode => some 2#2
  | _ => none

/-! ## Words of the opcode table -/

/-- The `count` bytes of `w` with its most significant byte first: a row of the opcode table is one number whose byte 0 is
the most significant (the table's HDR note; R63). -/
def bigEndianBytes : (count : Nat) → (w : Nat) → List Byte
  | 0, _ => []
  | c + 1, w => BitVec.ofNat 8 (w / 256 ^ c) :: bigEndianBytes c w

/-- The bytes of a table word of `nbits` bits as they lie in IBUF, filled with zeros to the longest instruction. -/
def tableBytes (nbits w : Nat) : List Byte :=
  let n := (nbits + 7) / 8
  bigEndianBytes n w ++ List.replicate (Config.hdrSize - n) 0#8

/-- Where a table word stands, told by its width: a 1-byte word is read at a group boundary, a 2- or 3-byte word as a token
with control bit 0, a longer one at the frame's start. DESIGN CHOICE: CTRL and LIT have the same words; log 14. -/
def tableKind (nbits : Nat) : FetchKind :=
  if nbits ≤ 8 then .control else if nbits ≤ 24 then .token false else .header

/-- The instruction the decoder reads from a word of the opcode table. -/
def decodeTableWord (nbits w : Nat) : Option Instr :=
  match decode Config.defaultMagic (tableKind nbits) (tableBytes nbits w) with
  | .ok (i, _) => some i
  | .error _ => none

end Sys2Proof
end

