-- ==== Sys2Proof/Machine/Operands.lean ====
section
/-! DEFINITION. Operand assembly: what the fields of a back-reference stand for (spec/30_encoding.md R98) and the payload
bytes of one (R99; spec/43_emitter.md R195, R196). -/

namespace Sys2Proof.Machine

/-- `distance = D + 1` (R98). -/
def distanceOf (D : BitVec 12) : Nat := D.toNat + Config.distBias

/-- `length = n + 2` when `n != 0` (R98). -/
def shortLength (n : BitVec 4) : Nat := n.toNat + Config.lenBias

/-- `length = extra + 18` when `n = 0` (R98). -/
def extLength (e : Byte) : Nat := e.toNat + Config.extBase

/-- `D <- d - 1`, 12 bits (R194); R194 has checked `1 <= d <= 4096`. -/
def distanceField (d : Nat) : BitVec 12 := BitVec.ofNat 12 (d - Config.distBias)

/-- The payload of the 2-byte form: `((l - 2) << 4) | D[11:8]`, `D[7:0]` (R99, R195). -/
def shortPayload (D : BitVec 12) (l : Nat) : List Byte :=
  [(BitVec.ofNat 8 (l - Config.lenBias) <<< 4) ||| (D.extractLsb' 8 4).setWidth 8, D.extractLsb' 0 8]

/-- The payload of the 3-byte form: `D[11:8]`, `D[7:0]`, `l - 18` (R99, R196). -/
def extPayload (D : BitVec 12) (l : Nat) : List Byte :=
  [(D.extractLsb' 8 4).setWidth 8, D.extractLsb' 0 8, BitVec.ofNat 8 (l - Config.extBase)]

end Sys2Proof.Machine
end

