-- ==== Sys2Proof/Machine/Decoder.lean ====
section
/-! DEFINITION. The decode path (spec/41_decoder.md): CTRL, DISPATCH, LIT, BREF.S, BREF.X, BREF.CHECK, REPLAY, D.DONE.
A token's meaning takes its bytes as operands; Fetch.lean reads them from `IBUF[src]` on. -/

namespace Sys2Proof.Machine

/-- D.DONE (R148): OUT_LEN gets `dlen` and the command is over. -/
def State.completeDecode (s : State) : State :=
  { s with outLen := BitVec.ofNat 64 s.dec.dlen, status := .done, phase := .idle }

/-- D.DONE. -/
def execDDone (s : State) : Host.Outcome State Fault Refusal :=
  settle s (.ok s.completeDecode)

/-- CTRL (R141): `c` is the byte at `IBUF[src]`. -/
def opCtrl (c : Byte) (s : State) : Op :=
  if s.outputComplete then .ok s.completeDecode
  else if s.inputExhausted then .error (.raise .truncated)
  else .ok ((s.setDec { s.dec with ctrl := c, bitsLeft := 8, src := s.dec.src + 1 }).setPhase .dToken)

/-- CTRL. -/
def execCtrl (c : Byte) (s : State) : Host.Outcome State Fault Refusal :=
  settle s (opCtrl c s)

/-- Where a control bit sends the token (R142). -/
def tokenPhase (cbit : Bool) : Phase := if cbit then .dLit else .dBref

/-- DISPATCH (R142): take the top bit of `ctrl` and route the token. -/
def opDispatch (s : State) : Op :=
  if s.outputComplete then .ok s.completeDecode
  else if s.dec.bitsLeft = 0 then .ok (s.setPhase .dGroup)
  else
    .ok ((s.setDec { s.dec with
      cbit := topBit s.dec.ctrl
      ctrl := s.dec.ctrl <<< 1
      bitsLeft := s.dec.bitsLeft - 1 }).setPhase (tokenPhase (topBit s.dec.ctrl)))

/-- DISPATCH. -/
def execDispatch (s : State) : Host.Outcome State Fault Refusal :=
  settle s (opDispatch s)

/-- LIT (R143): `v` is the byte at `IBUF[src]`. -/
def opLit (v : Byte) (s : State) : Op :=
  if s.inputExhausted then .error (.raise .truncated)
  else do
    let t ← s.writeOut s.dec.pos [v]
    .ok ((t.setDec { s.dec with src := s.dec.src + 1, pos := s.dec.pos + 1 }).setPhase .dToken)

/-- LIT. -/
def execLit (v : Byte) (s : State) : Host.Outcome State Fault Refusal :=
  settle s (opLit v s)

/-- BREF.CHECK (R146): the two legality checks of the latched back-reference, in that order. -/
def opBrefCheck (s : State) : Op :=
  if s.distanceBeforeStart then .error (.raise .invalidDistance)
  else if s.lengthPastEnd then .error (.raise .lengthOverrun)
  else .ok ((s.setDec { s.dec with cnt := s.dec.length }).setPhase .dCopy)

/-- BREF.CHECK. -/
def execBrefCheck (s : State) : Host.Outcome State Fault Refusal :=
  settle s (opBrefCheck s)

/-- BREF.S (R144, then R146): the code bytes spell `n` and `D`. A term with `n = 0` is no BREF.S (R96). -/
def opBrefS (n : BitVec 4) (D : BitVec 12) (s : State) : Op :=
  if n = 0#4 then .error (.refused .operandRange)
  else if s.codeMissing then .error (.raise .truncated)
  else
    opBrefCheck (s.setDec { s.dec with
      b0 := codeByte0 n D
      b1 := codeByte1 D
      n := n
      distance := distanceOf D
      length := shortLength n
      src := s.dec.src + 2 })

/-- BREF.S. -/
def execBrefS (n : BitVec 4) (D : BitVec 12) (s : State) : Host.Outcome State Fault Refusal :=
  settle s (opBrefS n D s)

/-- BREF.X (R145, then R146): the code bytes spell `n = 0` and `D`, the third byte is `e`. All three bytes must be there
before `distance` is checked (R238). -/
def opBrefX (D : BitVec 12) (e : Byte) (s : State) : Op :=
  if s.codeMissing then .error (.raise .truncated)
  else if s.extraMissing then .error (.raise .truncated)
  else
    opBrefCheck (s.setDec { s.dec with
      b0 := codeByte0 0#4 D
      b1 := codeByte1 D
      n := 0#4
      extra := e
      distance := distanceOf D
      length := extLength e
      src := s.dec.src + 3 })

/-- BREF.X. -/
def execBrefX (D : BitVec 12) (e : Byte) (s : State) : Host.Outcome State Fault Refusal :=
  settle s (opBrefX D e s)

/-- REPLAY (R147): one byte of the copy, the read completing before the write; at the end of the copy, the next token. -/
def opReplay (s : State) : Op :=
  if s.dec.cnt = 0 then .ok (s.setPhase .dToken)
  else if s.distanceBeforeStart then .error (.fault .noOutputAddress)
  else do
    let v ← s.outputByte (s.dec.pos - s.dec.distance)
    let t ← s.writeOut s.dec.pos [v]
    .ok (t.setDec { s.dec with pos := s.dec.pos + 1, cnt := s.dec.cnt - 1 })

/-- REPLAY. -/
def execReplay (s : State) : Host.Outcome State Fault Refusal :=
  settle s (opReplay s)

end Sys2Proof.Machine
end

