-- ==== Sys2Proof/Machine/Header.lean ====
section
/-! DEFINITION. The frame-header unit (spec/40_frame_header.md): HDR, HDR.PARSE, HDR.EMIT. -/

namespace Sys2Proof.Machine

/-- The register writes of a parsed header (R120). -/
def State.withHeader (s : State) (d r0 r1 : Word32) : State :=
  { s with
    dlenR := d
    rsv0 := r0
    rsv1 := r1
    dec := { s.dec with dlen := d.toNat, src := Config.hdrSize, pos := 0, bitsLeft := 0 }
    phase := .dGroup }

/-- A parsed header (R120). A `dlen` above OBUF_CAP is refused (R214 (d)). -/
def headerParsed (d r0 r1 : Word32) (s : State) : Op :=
  if s.obufFits d.toNat then .ok (s.withHeader d r0 r1) else .error (.refused .outputCapacity)

/-- A header object whose tag matched: the last check of R121 and the writes of R120. -/
def opHdr (d r0 r1 : Word32) (s : State) : Op :=
  if s.len < Config.hdrSize then .error (.raise .truncated) else headerParsed d r0 r1 s

/-- HDR: executing the header the decoder read. -/
def execHdr (d r0 r1 : Word32) (s : State) : Host.Outcome State Fault Refusal :=
  settle s (opHdr d r0 r1 s)

/-- `be32(IBUF[a], IBUF[a+1], IBUF[a+2], IBUF[a+3])` (R62). -/
def State.inputWord (s : State) (a : Nat) : Except Stop Word32 := do
  let b0 ← s.inputByte a
  let b1 ← s.inputByte (a + 1)
  let b2 ← s.inputByte (a + 2)
  let b3 ← s.inputByte (a + 3)
  return be32 b0 b1 b2 b3

/-- `IBUF[0..4)` (R120). -/
def State.inputTag (s : State) : Except Stop (List Byte) := do
  let m0 ← s.inputByte 0
  let m1 ← s.inputByte 1
  let m2 ← s.inputByte 2
  let m3 ← s.inputByte 3
  return [m0, m1, m2, m3]

/-- HDR.PARSE (R120), with the check order of R121. -/
def opHdrParse (s : State) : Op :=
  if s.len < Config.magicSize then .error (.raise .truncated)
  else do
    let tag ← s.inputTag
    if tag ≠ s.cfg.magic.bytes then .error (.raise .badMagic)
    else if s.len < Config.hdrSize then .error (.raise .truncated)
    else do
      let d ← s.inputWord 4
      let r0 ← s.inputWord 8
      let r1 ← s.inputWord 12
      headerParsed d r0 r1 s

/-- HDR.PARSE. -/
def execHdrParse (s : State) : Host.Outcome State Fault Refusal :=
  settle s (opHdrParse s)

/-- The 16 bytes HDR.EMIT writes: the tag, IN_LEN big-endian, two zero words (R91, R122). -/
def headerBytes (m : Magic) (n : Nat) : List Byte :=
  m.bytes ++ bytesBe32 (BitVec.ofNat 32 n) ++ bytesBe32 0#32 ++ bytesBe32 0#32

/-- An empty group: R122 and R198 clear these three and leave the bytes of `grp_buf`, which nothing reads (R34). -/
def Group.cleared (g : Group) : Group := { g with ctrl := 0, cnt := 0, len := 0 }

/-- HDR.EMIT (R122). Its operand IN_LEN is at most `2^32 - 1` (R212). -/
def opHdrEmit (s : State) : Op :=
  if s.inputEncodable then do
    let t ← s.writeOut 0 (headerBytes s.cfg.magic s.len)
    .ok (((t.setEnc { s.enc with wp := Config.hdrSize, i := 0 }).setGrp s.grp.cleared).setPhase .eScan)
  else .error (.refused .inputTooLong)

/-- HDR.EMIT. -/
def execHdrEmit (s : State) : Host.Outcome State Fault Refusal :=
  settle s (opHdrEmit s)

end Sys2Proof.Machine
end

