-- ==== Sys2Proof/Machine/MatchFinder.lean ====
section
/-! DEFINITION. The sliding-window match finder (spec/42_match_finder.md): WINDOW, MATCHLEN, SELECT, ACCEPT. The search
itself is a function of a reader of input bytes, so that the state machine and the big-step function (R203) share it. -/

namespace Sys2Proof.Machine

/-- The loop of R172 with `fuel` comparisons left and `k` equal bytes counted; none if it needs a byte that cannot be read. -/
def matchFrom (rd : Nat → Option Byte) (j i : Nat) : (fuel k : Nat) → Option Nat
  | 0, k => some k
  | f + 1, k =>
    match rd (j + k), rd (i + k) with
    | some a, some b => if a = b then matchFrom rd j i f (k + 1) else some k
    | _, _ => none

/-- `matchlen(j, i)` (R172): equal bytes of candidate `j` and position `i`, at most `cap`. -/
def matchLen (rd : Nat → Option Byte) (cap j i : Nat) : Option Nat := matchFrom rd j i cap 0

/-- A longest match found so far: `best_len`, `best_dist`. -/
structure Best where
  len  : Nat
  dist : Nat
  deriving DecidableEq, Repr

/-- `k > best_len`: a strictly longer match replaces the best one (R174). -/
def Best.update (b : Best) (k dist : Nat) : Best := if b.len < k then ⟨k, dist⟩ else b

/-- The reference scan of R174 from the candidate at distance `dist` outward, `todo` candidates left. -/
def scanFrom (rd : Nat → Option Byte) (cap i : Nat) : (todo dist : Nat) → Best → Option Best
  | 0, _, b => some b
  | t + 1, dist, b =>
    match matchLen rd cap (i - dist) i with
    | some k => scanFrom rd cap i t (dist + 1) (b.update k dist)
    | none => none

/-- `find(i)` over the candidates `[lo, i)` (R173, R174). -/
def findBest (rd : Nat → Option Byte) (lo cap i : Nat) : Option Best :=
  scanFrom rd cap i (i - lo) 1 ⟨0, 0⟩

/-- `lo = max(0, i - 4096)`, the difference taken only when `i >= 4096` (R171). -/
def windowLo (i : Nat) : Nat := if i < Config.window then 0 else i - Config.window

/-- `cap = min(273, IN_LEN - i)` (R171). -/
def windowCap (n i : Nat) : Nat := min Config.maxLen (n - i)

/-- WINDOW (R171). -/
def opWindow (s : State) : Op :=
  if s.len < s.enc.i then .error (.fault .scanPastInput)
  else .ok (s.setEnc { s.enc with lo := windowLo s.enc.i, cap := windowCap s.len s.enc.i })

/-- WINDOW. -/
def execWindow (s : State) : Host.Outcome State Fault Refusal :=
  settle s (opWindow s)

/-- MATCHLEN (R172): `k` for the candidate in register `j`. -/
def opMatchlen (s : State) : Op :=
  match matchLen s.inputAt s.enc.cap s.enc.j s.enc.i with
  | some k => .ok (s.setEnc { s.enc with k := k })
  | none => .error (.fault .noInputByte)

/-- MATCHLEN. -/
def execMatchlen (s : State) : Host.Outcome State Fault Refusal :=
  settle s (opMatchlen s)

/-- SELECT (R173): `best_len` and `best_dist`. What the scan leaves in `j` and `k` depends on the order of examination,
which is not architectural (R174): free values, log 13. -/
def opSelect (s : State) : Op :=
  match findBest s.inputAt s.enc.lo s.enc.cap s.enc.i with
  | some b =>
    .ok ((s.setEnc { s.enc with
      bestLen := b.len
      bestDist := b.dist
      j := Config.free s.draws .j
      k := Config.free s.draws .k }).bumpDraws)
  | none => .error (.fault .noInputByte)

/-- SELECT. -/
def execSelect (s : State) : Host.Outcome State Fault Refusal :=
  settle s (opSelect s)

/-- ACCEPT (R175): the decision for position `i`. -/
def opAccept (s : State) : Op :=
  if s.matchAccepted then .ok (s.setEnc { s.enc with decision := .backRef s.enc.bestDist s.enc.bestLen })
  else do
    let v ← s.inputByte s.enc.i
    .ok (s.setEnc { s.enc with decision := .literal v })

/-- ACCEPT. -/
def execAccept (s : State) : Host.Outcome State Fault Refusal :=
  settle s (opAccept s)

end Sys2Proof.Machine
end

