-- ==== Sys2Proof/Machine/Emitter.lean ====
section
/-! DEFINITION. The token emitter, the control-byte packer and the scan loop (spec/43_emitter.md): E.STEP, EMIT.LIT,
EMIT.BREF, EMIT.BREF.S, EMIT.BREF.X, PACK, FLUSH, FINAL, E.DONE. -/

namespace Sys2Proof.Machine

/-! ## The staging buffer -/

/-- `grp_buf[grp_len] <- v; grp_len <- grp_len + 1`; none where `grp_buf` has no such byte (R34). -/
def Group.push (g : Group) (v : Byte) : Option Group :=
  if h : g.len < 24 then some { g with buf := g.buf.set g.len v h, len := g.len + 1 } else none

/-- Stage payload bytes in order. -/
def Group.stage (g : Group) : List Byte → Option Group
  | [] => some g
  | v :: vs =>
    match g.push v with
    | some g' => g'.stage vs
    | none => none

/-- The payload bytes staged so far: `grp_buf[0..grp_len)`. -/
def Group.payload (g : Group) : List Byte := g.buf.toList.take g.len

/-- PACK's effect on the group (R197): a literal sets bit `7 - grp_cnt`. -/
def Group.pack (g : Group) (c : Bool) : Group :=
  { g with ctrl := if c then g.ctrl ||| (0x80#8 >>> g.cnt) else g.ctrl, cnt := g.cnt + 1 }

/-- Stage payload bytes of the state's group. -/
def State.stage (s : State) (vs : List Byte) : Op :=
  match s.grp.stage vs with
  | some g => .ok (s.setGrp g)
  | none => .error (.fault .noStageByte)

/-! ## Packer and emitter -/

/-- PACK(`c`) (R197). -/
def State.packBit (s : State) (c : Bool) : State := s.setGrp (s.grp.pack c)

/-- PACK. -/
def execPack (c : Bool) (s : State) : Host.Outcome State Fault Refusal :=
  settle s (.ok (s.packBit c))

/-- EMIT.LIT(`v`) (R193). -/
def opEmitLit (v : Byte) (s : State) : Op := (s.packBit true).stage [v]

/-- EMIT.LIT. -/
def execEmitLit (v : Byte) (s : State) : Host.Outcome State Fault Refusal :=
  settle s (opEmitLit v s)

/-- EMIT.BREF.S (R195), for lengths 3 to 17. -/
def opEmitBrefS (D : BitVec 12) (l : Nat) (s : State) : Op :=
  if Config.minLen ≤ l ∧ l ≤ Config.shortMax then s.stage (shortPayload D l)
  else .error (.refused .operandRange)

/-- EMIT.BREF.S. -/
def execEmitBrefS (D : BitVec 12) (l : Nat) (s : State) : Host.Outcome State Fault Refusal :=
  settle s (opEmitBrefS D l s)

/-- EMIT.BREF.X (R196), for lengths 18 to 273. -/
def opEmitBrefX (D : BitVec 12) (l : Nat) (s : State) : Op :=
  if Config.extBase ≤ l ∧ l ≤ Config.maxLen then s.stage (extPayload D l)
  else .error (.refused .operandRange)

/-- EMIT.BREF.X. -/
def execEmitBrefX (D : BitVec 12) (l : Nat) (s : State) : Host.Outcome State Fault Refusal :=
  settle s (opEmitBrefX D l s)

/-- The emitter's invariant (R194): a length in 3..273 and a distance in 1..4096. -/
def brefEncodable (d l : Nat) : Bool :=
  decide (Config.minLen ≤ l ∧ l ≤ Config.maxLen ∧ 1 ≤ d ∧ d ≤ Config.window)

/-- EMIT.BREF(`d`, `l`) (R194): the invariant check, PACK(0), then the form by length. -/
def opEmitBref (d l : Nat) (s : State) : Op :=
  if brefEncodable d l then
    if l ≤ Config.shortMax then opEmitBrefS (distanceField d) l (s.packBit false)
    else opEmitBrefX (distanceField d) l (s.packBit false)
  else .error (.raise .encInternal)

/-- EMIT.BREF. -/
def execEmitBref (d l : Nat) (s : State) : Host.Outcome State Fault Refusal :=
  settle s (opEmitBref d l s)

/-- FLUSH (R198): the control byte and then the payloads go to `OBUF[wp ..]`. -/
def opFlush (s : State) : Op :=
  if s.grp.len ≤ Config.stageSize then do
    let t ← s.writeOut s.enc.wp (s.grp.ctrl :: s.grp.payload)
    .ok ((t.setEnc { s.enc with wp := s.enc.wp + 1 + s.grp.len }).setGrp s.grp.cleared)
  else .error (.fault .noStageByte)

/-- FLUSH. -/
def execFlush (s : State) : Host.Outcome State Fault Refusal :=
  settle s (opFlush s)

/-! ## The scan loop -/

/-- Emit the token ACCEPT decided on and advance the scan position past it (R192). -/
def opEmitDecision (s : State) : Op :=
  match s.enc.decision with
  | .backRef d l => do
    let t ← opEmitBref d l s
    .ok (t.setEnc { s.enc with i := s.enc.i + l })
  | .literal v => do
    let t ← opEmitLit v s
    .ok (t.setEnc { s.enc with i := s.enc.i + 1 })

/-- `if grp_cnt == 8: FLUSH` (R192). -/
def opFlushIfFull (s : State) : Op := if s.groupFull then opFlush s else .ok s

/-- E.STEP (R192): one decision, or the end of the scan. -/
def opEStep (s : State) : Op :=
  if s.scanDone then .ok (s.setPhase .eFinal)
  else do
    let w ← opWindow s
    let m ← opSelect w
    let a ← opAccept m
    let e ← opEmitDecision a
    opFlushIfFull e

/-- E.STEP. -/
def execEStep (s : State) : Host.Outcome State Fault Refusal :=
  settle s (opEStep s)

/-- The register writes of E.DONE (R201): OUT_LEN gets `wp`, DLEN gets IN_LEN, and the command is over. -/
def State.completeEncode (s : State) : State :=
  { s with
    outLen := BitVec.ofNat 64 s.enc.wp
    dlenR := BitVec.ofNat 32 s.len
    status := .done
    phase := .idle }

/-- E.DONE (R201), where the header could state IN_LEN (R212). -/
def opEDone (s : State) : Op :=
  if s.inputEncodable then .ok s.completeEncode else .error (.refused .inputTooLong)

/-- E.DONE. -/
def execEDone (s : State) : Host.Outcome State Fault Refusal :=
  settle s (opEDone s)

/-- FINAL (R199): flush a partial group if one is pending, then complete. -/
def opFinal (s : State) : Op :=
  if s.grp.cnt = 0 then opEDone s
  else do
    let t ← opFlush s
    opEDone t

/-- FINAL. -/
def execFinal (s : State) : Host.Outcome State Fault Refusal :=
  settle s (opFinal s)

end Sys2Proof.Machine
end

