-- ==== Sys2Proof/Machine/Dispatch.lean ====
section
/-! DEFINITION. exec: one arm for each row of the opcode table, each a direct call of that instruction's meaning. -/

namespace Sys2Proof.Machine

def exec (i : Instr) (s : State) : Host.Outcome State Fault Refusal :=
  match i with
  -- the encoded objects (30_encoding.md R90)
  | .hdr dlen rsv0 rsv1 => Sys2Proof.Machine.execHdr dlen rsv0 rsv1 s
  | .ctrl c => Sys2Proof.Machine.execCtrl c s
  | .lit v => Sys2Proof.Machine.execLit v s
  | .brefS n D => Sys2Proof.Machine.execBrefS n D s
  | .brefX D e => Sys2Proof.Machine.execBrefX D e s
  -- the header unit (40_frame_header.md)
  | .hdrParse => Sys2Proof.Machine.execHdrParse s
  | .hdrEmit => Sys2Proof.Machine.execHdrEmit s
  -- the decode path (41_decoder.md)
  | .dispatch => Sys2Proof.Machine.execDispatch s
  | .brefCheck => Sys2Proof.Machine.execBrefCheck s
  | .replay => Sys2Proof.Machine.execReplay s
  | .dDone => Sys2Proof.Machine.execDDone s
  -- the match finder (42_match_finder.md)
  | .window => Sys2Proof.Machine.execWindow s
  | .matchlen => Sys2Proof.Machine.execMatchlen s
  | .select => Sys2Proof.Machine.execSelect s
  | .accept => Sys2Proof.Machine.execAccept s
  -- the emitter and packer (43_emitter.md)
  | .eStep => Sys2Proof.Machine.execEStep s
  | .emitLit v => Sys2Proof.Machine.execEmitLit v s
  | .emitBref d l => Sys2Proof.Machine.execEmitBref d l s
  | .emitBrefS D l => Sys2Proof.Machine.execEmitBrefS D l s
  | .emitBrefX D l => Sys2Proof.Machine.execEmitBrefX D l s
  | .pack c => Sys2Proof.Machine.execPack c s
  | .flush => Sys2Proof.Machine.execFlush s
  | .final => Sys2Proof.Machine.execFinal s
  | .eDone => Sys2Proof.Machine.execEDone s
  -- host commands, fault entry, reset (44_commands.md, 60_exceptions.md, 70_reset_and_hazards.md)
  | .decode => Sys2Proof.Machine.execDecode s
  | .encode => Sys2Proof.Machine.execEncode s
  | .raise f => Sys2Proof.Machine.execRaise f s
  | .reset => Sys2Proof.Machine.execReset s

end Sys2Proof.Machine
end

