-- ==== Sys2Proof/Machine/Fetch.lean ====
section
/-! DEFINITION. What a step runs next: the reset input, a CMD write, or the operation that the phase register names
(spec/10_state.md R35), with the encoded objects fetched from IBUF and decoded. -/

namespace Sys2Proof.Machine

/-- What the next step does. -/
inductive Next where
  /-- Run this instruction. -/
  | run (i : Instr)
  /-- Take a CMD write that requests nothing (R22: values 0 and 3 have no effect). -/
  | dropCmd
  /-- CORE waits for a command (R35, P_IDLE). -/
  | wait
  /-- A byte the fetch needs lies below IN_LEN and was never written (R246). -/
  | noByte
  deriving DecidableEq, Repr

/-- Fetch and decode at address `a` of IBUF. A rejected header raises BadMagic; an object that needs more bytes than the
input has raises Truncated (R121, R141 to R145, R232). -/
def State.fetch (s : State) (kind : FetchKind) (a : Nat) : Next :=
  match decode s.cfg.magic kind (s.inputPrefix a Config.hdrSize) with
  | .ok (i, _) => .run i
  | .error .badMagic => .run (.raise .badMagic)
  | .error (.short need) => if s.len < a + need then .run (.raise .truncated) else .noByte

/-- The operation the phase names (R35). At a group boundary with nothing owed, decoding is complete and no control byte
is fetched (R141). -/
def State.phaseOp (s : State) : Next :=
  match s.phase with
  | .idle => .wait
  | .dHdr => s.fetch .header 0
  | .dGroup => if s.outputComplete then .run .dDone else s.fetch .control s.dec.src
  | .dToken => .run .dispatch
  | .dLit => s.fetch (.token true) s.dec.src
  | .dBref => s.fetch (.token false) s.dec.src
  | .dCopy => .run .replay
  | .eHdr => .run .hdrEmit
  | .eScan => .run .eStep
  | .eFinal => .run .final

/-- The next step: reset comes first (log 8), then a CMD write (log 7), then CORE's own work. -/
def State.nextOp (s : State) : Next :=
  if s.rst then .run .reset
  else
    match s.cmd with
    | some c =>
      match decodeCmd c with
      | some i => .run i
      | none => .dropCmd
    | none => s.phaseOp

/-! ## Placing an instruction where the next step fetches -/

/-- Where an object of this kind is fetched: a header at address 0, everything else at `src` (R29, R66). -/
def State.fetchAddr (s : State) : FetchKind → Nat
  | .header => 0
  | .control => s.dec.src
  | .token _ => s.dec.src

/-- The phase that fetches an object of this kind (R35). -/
def fetchPhase : FetchKind → Phase
  | .header => .dHdr
  | .control => .dGroup
  | .token true => .dLit
  | .token false => .dBref

/-- `s` about to fetch `bs` as an object of this kind: BUSY in the right phase, no reset and no CMD write pending, the bytes
in IBUF and inside the input. A control byte is fetched only while a byte is owed (R141), so `dlen` is raised above `pos`
there if it is not. -/
def State.withFetch (s : State) (kind : FetchKind) (bs : List Byte) : State :=
  { s with
    rst := false
    cmd := none
    status := .busy
    phase := fetchPhase kind
    inLen := BitVec.ofNat 64 (max s.len (s.fetchAddr kind + bs.length))
    ibuf := Memory.writeList s.ibuf (s.fetchAddr kind) bs
    dec := { s.dec with dlen := if kind = .control then max s.dec.dlen (s.dec.pos + 1) else s.dec.dlen } }

end Sys2Proof.Machine
end

