-- ==== Sys2Proof/Machine/HostPort.lean ====
section
/-! DEFINITION. HOST's accesses to CORE (spec/10_state.md section 2, spec/70_reset_and_hazards.md R262 to R264). They stand
beside step: HOST makes them between steps (log 21). -/

namespace Sys2Proof.Machine

/-- The host-visible registers (R21). -/
inductive HostReg where
  | cmd | status | err | inLen | outLen | dlen | rsv0 | rsv1
  deriving DecidableEq, Repr

/-- The codes of `STATUS.STATE` (R23). -/
def Status.code : Status → BitVec 2
  | .idle => 0#2
  | .busy => 1#2
  | .done => 2#2
  | .fault => 3#2

/-- The codes of `ERR` (R24, R230). -/
def ErrCode.code : ErrCode → BitVec 3
  | .none => 0#3
  | .badMagic => 1#3
  | .truncated => 2#3
  | .invalidDistance => 3#3
  | .lengthOverrun => 4#3
  | .encInternal => 5#3

/-- A command has been requested and its start is the next step: the CMD write has made CORE BUSY for HOST (R22, R210). -/
def State.starting (s : State) : Bool :=
  match s.cmd with
  | some c => (decodeCmd c).isSome
  | none => false

/-- CORE is BUSY as HOST sees it: a command runs, or HOST has requested one (R210). The model holds a start between the CMD
write and the step that does its register writes; no access of HOST can tell the two apart (log 7). -/
def State.hostBusy (s : State) : Bool := decide (s.status = .busy) || s.starting

/-- HOST may touch buffers, IN_LEN and result registers only while CORE is not BUSY (R78, R263). -/
def State.unlessBusy {α : Type} (s : State) (x : Except Refusal α) : Except Refusal α :=
  if s.hostBusy then .error .hostWhileBusy else x

/-- HOST writes IBUF (R37, R262). -/
def State.hostWriteIbuf (s : State) (a : Nat) (v : Byte) : Except Refusal State :=
  s.unlessBusy (if s.ibufFits (a + 1) then .ok { s with ibuf := Memory.write s.ibuf a v } else .error .inputCapacity)

/-- `IBUF[a]` as HOST reads it: the byte written there, and before that the unspecified byte that reset left (R42, U14), a
free value that stays until a write or a reset (R68; log 6). -/
def State.ibufByte (s : State) (a : Nat) : Byte :=
  match Memory.read s.ibuf a with
  | some v => v
  | none => BitVec.ofNat 8 (Config.free s.ibufDraw (.ibuf a))

/-- HOST reads IBUF, all of it, while CORE is not BUSY (R70). -/
def State.hostReadIbuf (s : State) (a : Nat) : Except Refusal Byte :=
  s.unlessBusy (if s.ibufFits (a + 1) then .ok (s.ibufByte a) else .error .inputCapacity)

/-- HOST writes IN_LEN (R25, R262). -/
def State.hostWriteInLen (s : State) (n : LenWord) : Except Refusal State :=
  s.unlessBusy (.ok { s with inLen := n })

/-- HOST writes CMD (R22, R210): 1 or 2 starts the command unless CORE is BUSY. Every other write has no effect: one of 0 or
3, and one while BUSY, which CORE is from the write that starts a command on. -/
def State.hostWriteCmd (s : State) (c : BitVec 2) : State :=
  if s.hostBusy then s
  else
    match decodeCmd c with
    | some _ => { s with cmd := some c }
    | none => s

/-- HOST asserts the reset input (R260). Until the step that takes it, HOST's accesses find CORE as it was (log 8). -/
def State.hostReset (s : State) : State := { s with rst := true }

/-- STATUS as HOST reads it (R23): BUSY from the CMD write on (R210). -/
def State.hostStatus (s : State) : Status := if s.starting then .busy else s.status

/-- ERR as HOST reads it (R24): 0 from the command start on. -/
def State.hostErr (s : State) : ErrCode := if s.starting then .none else s.err

/-- HOST reads a register: STATUS and ERR at any time, the others while CORE is not BUSY, CMD never (R22, R213, R263). -/
def State.hostReadReg (s : State) : HostReg → Except Refusal LenWord
  | .cmd => .error .cmdRead
  | .status => .ok (s.hostStatus.code.setWidth 64)
  | .err => .ok (s.hostErr.code.setWidth 64)
  | .inLen => s.unlessBusy (.ok s.inLen)
  | .outLen => s.unlessBusy (.ok s.outLen)
  | .dlen => s.unlessBusy (.ok (s.dlenR.setWidth 64))
  | .rsv0 => s.unlessBusy (.ok (s.rsv0.setWidth 64))
  | .rsv1 => s.unlessBusy (.ok (s.rsv1.setWidth 64))

/-- HOST reads a byte of the result: `OBUF[0..OUT_LEN)` while DONE (R38, R43, R213). -/
def State.hostReadObuf (s : State) (a : Nat) : Except Refusal Byte :=
  s.unlessBusy
    (if s.status = .done ∧ a < s.outLen.toNat then
      match Memory.read s.obuf a with
      | some v => .ok v
      | none => .error .noResult
    else .error .noResult)

end Sys2Proof.Machine
end

