-- ==== Sys2Proof/Machine/Step.lean ====
section
/-! DEFINITION. One step of CORE (spec/00_scope.md R12): one application of one operation rule, or the taking of one input. -/

namespace Sys2Proof.Machine

/-- One step: what Fetch.lean selects, run by exec. With nothing to do CORE waits, unchanged (R35). -/
def step (s : State) : Host.Outcome State Fault Refusal :=
  match s.nextOp with
  | .run i => exec i s
  | .dropCmd => .next s.cmdTaken
  | .wait => .next s
  | .noByte => .fault .noInputByte

/-- `s` with a word of the opcode table stored where step fetches its next instruction; log 16. -/
def State.withFetchWord (s : State) (nbits w : Nat) : State :=
  s.withFetch (tableKind nbits) (tableBytes nbits w)

end Sys2Proof.Machine
end

