-- ==== Sys2Proof/Machine/BigStep.lean ====
section
/-! DEFINITION. The two functions CORE computes, as functions of the input bytes alone: decode (spec/41_decoder.md R151) and
encode (spec/43_emitter.md R203). The step machine does not use them; statements compare the two. -/

namespace Sys2Proof.Machine

/-! ## decode (R151) -/

/-- What a successful decode yields. -/
structure Decoded where
  out  : List Byte
  dlen : Word32
  rsv0 : Word32
  rsv1 : Word32
  deriving DecidableEq, Repr

/-- `repeat length times: out.append(out[len(out) - distance])`. -/
def copyBack (distance : Nat) : (length : Nat) → List Byte → List Byte
  | 0, out => out
  | l + 1, out => copyBack distance l (out ++ [out.getD (out.length - distance) 0#8])

/-- One back-reference of R151 after its operands: the two checks, then the copy. -/
def applyBackRef (dlen distance length : Nat) (out : List Byte) : Except FaultKind (List Byte) :=
  if out.length < distance then .error .invalidDistance
  else if dlen < out.length + length then .error .lengthOverrun
  else .ok (copyBack distance length out)

/-- The operands of a back-reference at the front of the input, and the input after it. -/
def takeBackRef : List Byte → Except FaultKind ((Nat × Nat) × List Byte)
  | b0 :: b1 :: rest =>
    if b0.toNat / 16 ≠ 0 then .ok (((b0.toNat % 16) * 256 + b1.toNat + 1, b0.toNat / 16 + 2), rest)
    else
      match rest with
      | e :: rest' => .ok (((b0.toNat % 16) * 256 + b1.toNat + 1, e.toNat + 18), rest')
      | [] => .error .truncated
  | _ => .error .truncated

/-- The tokens of one group: `bits` is the number of control bits left, the next one being bit `bits - 1` of `c`. -/
def decodeTokens (dlen : Nat) (c : Byte) :
    (bits : Nat) → (rest out : List Byte) → Except FaultKind (List Byte × List Byte)
  | 0, rest, out => .ok (rest, out)
  | t + 1, rest, out =>
    if dlen ≤ out.length then .ok (rest, out)
    else if c.getLsbD t then
      match rest with
      | v :: rest' => decodeTokens dlen c t rest' (out ++ [v])
      | [] => .error .truncated
    else
      match takeBackRef rest with
      | .error f => .error f
      | .ok ((distance, length), rest') =>
        match applyBackRef dlen distance length out with
        | .error f => .error f
        | .ok out' => decodeTokens dlen c t rest' out'

/-- The groups: each consumes at least its control byte, so `fuel` above the input's length never runs out. -/
def decodeGroups (dlen : Nat) : (fuel : Nat) → (rest out : List Byte) → Except FaultKind (List Byte)
  | 0, _, _ => .error .truncated
  | f + 1, rest, out =>
    if dlen ≤ out.length then .ok out
    else
      match rest with
      | [] => .error .truncated
      | c :: rest' =>
        match decodeTokens dlen c 8 rest' out with
        | .error e => .error e
        | .ok (rest'', out') => decodeGroups dlen f rest'' out'

/-- `decode(inp)` (R151). -/
def decodeFn (m : Magic) (inp : List Byte) : Except FaultKind Decoded :=
  if inp.length < 4 then .error .truncated
  else if inp.take 4 ≠ m.bytes then .error .badMagic
  else
    match inp.drop 4 with
    | l0 :: l1 :: l2 :: l3 :: r0 :: r1 :: r2 :: r3 :: s0 :: s1 :: s2 :: s3 :: rest =>
      match decodeGroups (be32 l0 l1 l2 l3).toNat (rest.length + 1) rest [] with
      | .error f => .error f
      | .ok out => .ok ⟨out, be32 l0 l1 l2 l3, be32 r0 r1 r2 r3, be32 s0 s1 s2 s3⟩
    | _ => .error .truncated

/-! ## encode (R203) -/

/-- The payload bytes of a back-reference, as R203 writes them. -/
def backRefPayload (distance length : Nat) : List Byte :=
  let D := distance - 1
  if length ≤ 17 then [BitVec.ofNat 8 ((length - 2) * 16 + D / 256), BitVec.ofNat 8 (D % 256)]
  else [BitVec.ofNat 8 (D / 256), BitVec.ofNat 8 (D % 256), BitVec.ofNat 8 (length - 18)]

/-- The pending group of R203: `ctrl`, `cnt`, `buf`. -/
structure Pending where
  ctrl : Byte
  cnt  : Nat
  buf  : List Byte
  deriving DecidableEq, Repr

/-- The bytes of a group: its control byte, then its payloads. -/
def Pending.bytes (p : Pending) : List Byte := p.ctrl :: p.buf

/-- `find(inp, i)` (R173). The reads are inside `inp` for `i < len(inp)`; the default is never taken. -/
def findIn (inp : List Byte) (i : Nat) : Best :=
  (findBest (fun a => inp[a]?) (windowLo i) (windowCap inp.length i) i).getD ⟨0, 0⟩

/-- One pass of R203's loop body up to the flush: the token at `i`, and how far it advances `i`. -/
def addToken (inp : List Byte) (i : Nat) (p : Pending) : Pending × Nat :=
  if 3 ≤ (findIn inp i).len then
    (⟨p.ctrl, p.cnt + 1, p.buf ++ backRefPayload (findIn inp i).dist (findIn inp i).len⟩, (findIn inp i).len)
  else (⟨p.ctrl ||| (0x80#8 >>> p.cnt), p.cnt + 1, p.buf ++ [inp.getD i 0#8]⟩, 1)

/-- R203's loop from position `i`, with the group under construction: the token stream from here on. Each pass advances `i`,
so `fuel` above the input's length never runs out. -/
def encodeFrom (inp : List Byte) : (fuel i : Nat) → Pending → List Byte
  | 0, _, _ => []
  | f + 1, i, p =>
    if i < inp.length then
      if (addToken inp i p).1.cnt = 8 then
        (addToken inp i p).1.bytes ++ encodeFrom inp f (i + (addToken inp i p).2) ⟨0, 0, []⟩
      else encodeFrom inp f (i + (addToken inp i p).2) (addToken inp i p).1
    else if p.cnt = 0 then []
    else p.bytes

/-- `encode(inp)` (R203). -/
def encodeFn (m : Magic) (inp : List Byte) : List Byte :=
  headerBytes m inp.length ++ encodeFrom inp (inp.length + 1) 0 ⟨0, 0, []⟩

end Sys2Proof.Machine
end

