-- ==== Sys2Proof/Safety.lean ====
section
/-! DEFINITION. The terms claims are stated in: what HOST owes before a command, what an operation keeps, the invariant
every step keeps, runs of several steps, and what a finished command shows. -/

namespace Sys2Proof.Machine

/-! ## What HOST owes (spec/70_reset_and_hazards.md R262) -/

/-- Every byte of the input has been written (R262 (2), (3)). -/
abbrev State.InputLoaded (s : State) : Prop := ∀ a, a < s.len → (Memory.read s.ibuf a).isSome = true

/-- The input of a command is `inp`: `IBUF[0..IN_LEN)` (R25). -/
abbrev State.HasInput (s : State) (inp : List Byte) : Prop :=
  s.len = inp.length ∧ ∀ a, a < inp.length → Memory.read s.ibuf a = inp[a]?

/-- The input's header declares the length `d`: the big-endian word at frame offsets 4 to 7 (R62, R91). -/
def State.Declares (s : State) (d : Nat) : Prop :=
  ∃ l0 l1 l2 l3 : Byte,
    s.inputAt 4 = some l0 ∧ s.inputAt 5 = some l1 ∧ s.inputAt 6 = some l2 ∧ s.inputAt 7 = some l3 ∧
      d = l0.toNat * 2 ^ 24 + l1.toNat * 2 ^ 16 + l2.toNat * 2 ^ 8 + l3.toNat

/-- Neither the reset input nor a CMD write is waiting, so the next step is CORE's own. -/
abbrev State.Undisturbed (s : State) : Prop := s.rst = false ∧ s.cmd = none

/-- The staged group has room for another token: fewer than 8 tokens, each of at most 3 bytes (R34). -/
abbrev Group.HasRoom (g : Group) : Prop := g.cnt < 8 ∧ g.len ≤ 3 * g.cnt

/-! ## What an operation keeps -/

/-- The configuration, HOST's inputs and IBUF. -/
abbrev KeepsInputs (s t : State) : Prop :=
  t.cfg = s.cfg ∧ t.rst = s.rst ∧ t.cmd = s.cmd ∧ t.inLen = s.inLen ∧ t.ibuf = s.ibuf ∧ t.ibufDraw = s.ibufDraw

/-- STATUS, ERR and the result registers. -/
abbrev KeepsResult (s t : State) : Prop :=
  t.status = s.status ∧ t.err = s.err ∧ t.outLen = s.outLen ∧ t.dlenR = s.dlenR ∧ t.rsv0 = s.rsv0 ∧ t.rsv1 = s.rsv1

/-- The match-finder and scan registers, the staging buffer and the count of free draws. -/
abbrev KeepsEncoder (s t : State) : Prop := t.enc = s.enc ∧ t.grp = s.grp ∧ t.draws = s.draws

/-- Every byte of OBUF reads as before. -/
abbrev KeepsOutput (s t : State) : Prop := ∀ x, Memory.read t.obuf x = Memory.read s.obuf x

/-- OBUF holds `vs` from address `a` on, and every byte outside reads as before. -/
abbrev OutputHas (s t : State) (a : Nat) (vs : List Byte) : Prop :=
  (∀ x, x < vs.length → Memory.read t.obuf (a + x) = vs[x]?) ∧
    ∀ x, x < a ∨ a + vs.length ≤ x → Memory.read t.obuf x = Memory.read s.obuf x

/-- A fault taken, as R239 lists it: the code, the cleared registers, no cursor advance and no buffer write. The operand
latches are left out: R240 says that they may have been fetched (log 9). -/
abbrev TakesFault (s : State) (f : FaultKind) (o : Host.Outcome State Fault Refusal) : Prop :=
  ∃ t, o = .next t ∧ t.err = FaultKind.code f ∧ t.status = .fault ∧ t.phase = .idle ∧ t.outLen = 0 ∧ t.dlenR = 0 ∧
    t.rsv0 = 0 ∧ t.rsv1 = 0 ∧ t.dec.src = s.dec.src ∧ t.dec.pos = s.dec.pos ∧ t.dec.dlen = s.dec.dlen ∧
    KeepsInputs s t ∧ KeepsEncoder s t ∧ KeepsOutput s t

/-! ## Operands of a back-reference -/

/-- The distance and length a back-reference stands for (spec/30_encoding.md R98). -/
def backRefOperands : Instr → Option (Nat × Nat)
  | .brefS n D => some (distanceOf D, shortLength n)
  | .brefX D e => some (distanceOf D, extLength e)
  | _ => none

/-- The payload bytes of a back-reference by length (R99). -/
def payloadOf (d l : Nat) : List Byte :=
  if l ≤ 17 then shortPayload (distanceField d) l else extPayload (distanceField d) l

/-! ## The invariant -/

/-- The phases of the decode path after the header (R35). -/
def Phase.decoding : Phase → Bool
  | .dGroup => true
  | .dToken => true
  | .dLit => true
  | .dBref => true
  | .dCopy => true
  | .idle => false
  | .dHdr => false
  | .eHdr => false
  | .eScan => false
  | .eFinal => false

/-- The phases of the encode path after the header (R35). -/
def Phase.scanning : Phase → Bool
  | .eScan => true
  | .eFinal => true
  | .idle => false
  | .dHdr => false
  | .dGroup => false
  | .dToken => false
  | .dLit => false
  | .dBref => false
  | .dCopy => false
  | .eHdr => false

/-- What holds while the decode path runs (R30, R72, R150). -/
structure State.DecInv (s : State) : Prop where
  srcLow  : 16 ≤ s.dec.src
  srcHigh : s.dec.src ≤ s.len
  posLe   : s.dec.pos ≤ s.dec.dlen
  dlenEq  : s.dec.dlen = s.dlenR.toNat
  fits    : s.obufFits s.dec.dlen = true
  bits    : s.dec.bitsLeft ≤ 8
  written : ∀ a, a < s.dec.pos → (Memory.read s.obuf a).isSome = true
  owed    : s.phase = .dLit ∨ s.phase = .dBref → s.dec.pos < s.dec.dlen
  copying : s.phase = .dCopy →
    1 ≤ s.dec.distance ∧ s.dec.distance ≤ s.dec.pos ∧ s.dec.pos + s.dec.cnt ≤ s.dec.dlen ∧ s.dec.cnt ≤ 273

/-- What holds while the encode path scans (R33, R34, R192, R197, R200, R202, R212). `size` bounds what is written and
staged by nine eighths of what is consumed, which is R202's bound on OUT_LEN. -/
structure State.EncInv (s : State) : Prop where
  encodable : s.len < 2 ^ 32
  scanLe    : s.enc.i ≤ s.len
  scanEnd   : s.phase = .eFinal → s.enc.i = s.len
  wpLow     : 16 ≤ s.enc.wp
  fits      : s.obufFits s.enc.wp = true
  tokens    : s.grp.cnt < 8
  staged    : s.grp.len ≤ 3 * s.grp.cnt
  size      : 8 * (s.enc.wp + s.grp.len) + s.grp.cnt ≤ 128 + 9 * s.enc.i
  padding   : ∀ t, t < 8 → s.grp.cnt ≤ t → s.grp.ctrl.getLsbD (7 - t) = false
  words     : s.dlenR = 0 ∧ s.rsv0 = 0 ∧ s.rsv1 = 0

/-- The invariant of CORE: the buffers are in canonical form, BUSY agrees with the phase (R35), ERR with FAULT (R24), a
fault shows nothing but its code (R239), and each path's own invariant holds in its phases. -/
structure State.Inv (s : State) : Prop where
  ibufWf   : Memory.wf s.ibuf = true
  obufWf   : Memory.wf s.obuf = true
  busyIff  : s.status = .busy ↔ s.phase ≠ .idle
  errIff   : s.err = .none ↔ s.status ≠ .fault
  faulted  : s.status = .fault → s.outLen = 0 ∧ s.dlenR = 0 ∧ s.rsv0 = 0 ∧ s.rsv1 = 0
  running  : s.status = .busy → s.outLen = 0 ∧ s.ibufFits s.len = true
  decoding : s.phase.decoding = true → s.DecInv
  header   : s.phase = .eHdr → s.len < 2 ^ 32 ∧ s.dlenR = 0 ∧ s.rsv0 = 0 ∧ s.rsv1 = 0
  scanning : s.phase.scanning = true → s.EncInv

/-! ## Runs -/

/-- `n` steps of CORE, stopping at the first fault or refusal. -/
def runSteps : Nat → State → Host.Outcome State Fault Refusal
  | 0, s => .next s
  | n + 1, s =>
    match step s with
    | .next t => runSteps n t
    | .fault r => .fault r
    | .refused r => .refused r

/-- The result of a finished DECODE (R148, R151, R211, R239): the decompressed bytes and the header's words, or the fault's
code and nothing else. -/
def State.ShowsDecode (t : State) : Except FaultKind Decoded → Prop
  | .ok d =>
    t.status = .done ∧ t.err = .none ∧ t.outLen.toNat = d.out.length ∧ d.dlen.toNat = d.out.length ∧ t.dlenR = d.dlen ∧
      t.rsv0 = d.rsv0 ∧ t.rsv1 = d.rsv1 ∧ ∀ a, a < d.out.length → Memory.read t.obuf a = d.out[a]?
  | .error f =>
    t.status = .fault ∧ t.err = FaultKind.code f ∧ t.outLen = 0 ∧ t.dlenR = 0 ∧ t.rsv0 = 0 ∧ t.rsv1 = 0

/-- The result of a finished ENCODE of `n` input bytes (R201, R203, R212): the frame. -/
def State.ShowsEncode (t : State) (n : Nat) (frame : List Byte) : Prop :=
  t.status = .done ∧ t.err = .none ∧ t.outLen.toNat = frame.length ∧ t.dlenR.toNat = n ∧ t.rsv0 = 0 ∧ t.rsv1 = 0 ∧
    ∀ a, a < frame.length → Memory.read t.obuf a = frame[a]?

end Sys2Proof.Machine
end

