-- ==== Sys2Proof/Certificates/Slice0/Obligations.lean ====
section
/-! DEFINITION. The statements about CORE for the provers: one def Obligations.<Name> : Prop each. OBLIGATIONS.json lists
them with the rules of spec/ they formalise. -/

open Sys2Proof Sys2Proof.Machine

/-! ## Encoding (spec/30_encoding.md) -/

/-- Words written out from the tables of R92 and R95 to R98 decode to what the vectors of 95_test_vectors.md section 2.4 say
they are: `50 01` is n = 5, D = 1; `1F FF` is n = 1, D = FFF; `0A BC 0A` is D = ABC, e = 0A; `E0` is a control byte or a
literal by where it stands. -/
def Obligations.WordsDecodeToTheirInstructions : Prop :=
  (∀ m, decode m (.token false) [0x50#8, 0x01#8] = .ok (.brefS 5#4 0x001#12, [])) ∧
  (∀ m, decode m (.token false) [0x1F#8, 0xFF#8] = .ok (.brefS 1#4 0xFFF#12, [])) ∧
  (∀ m, decode m (.token false) [0x0A#8, 0xBC#8, 0x0A#8] = .ok (.brefX 0xABC#12 0x0A#8, [])) ∧
  (∀ m, decode m .control [0xE0#8] = .ok (.ctrl 0xE0#8, [])) ∧
  (∀ m, decode m (.token true) [0xE0#8] = .ok (.lit 0xE0#8, []))

/-- Decoding the encoding of a well-formed instruction, followed by any bytes, gives the instruction and those bytes. -/
def Obligations.DecodeOfEncodeIsTheInstruction : Prop :=
  ∀ (m : Magic) (i : Instr) (k : FetchKind) (e rest : List Byte),
    i.wf = true → i.kind = some k → encode m i = some e → decode m k (e ++ rest) = .ok (i, rest)

/-- What the decoder reads is well formed, belongs where it was read, and encodes to exactly the bytes consumed: no bit is
dropped. -/
def Obligations.EncodeOfDecodeIsTheBytesRead : Prop :=
  ∀ (m : Magic) (k : FetchKind) (bs rest : List Byte) (i : Instr),
    decode m k bs = .ok (i, rest) →
      i.wf = true ∧ i.kind = some k ∧ ∃ e, encode m i = some e ∧ bs = e ++ rest

/-- R94 and R98: the decode tree is complete, and what each back-reference's distance and length are. -/
def Obligations.DecodeTreeIsComplete : Prop :=
  ∀ (m : Magic) (b0 b1 e : Byte) (rest : List Byte),
    decode m .control (b0 :: rest) = .ok (.ctrl b0, rest) ∧
    decode m (.token true) (b0 :: rest) = .ok (.lit b0, rest) ∧
    (1 ≤ b0.toNat / 16 →
      ∃ n D, decode m (.token false) (b0 :: b1 :: rest) = .ok (.brefS n D, rest) ∧ n.toNat = b0.toNat / 16 ∧
        D.toNat = (b0.toNat % 16) * 256 + b1.toNat ∧
        backRefOperands (.brefS n D) = some ((b0.toNat % 16) * 256 + b1.toNat + 1, b0.toNat / 16 + 2)) ∧
    (b0.toNat / 16 = 0 →
      ∃ D, decode m (.token false) (b0 :: b1 :: e :: rest) = .ok (.brefX D e, rest) ∧
        D.toNat = (b0.toNat % 16) * 256 + b1.toNat ∧
        backRefOperands (.brefX D e) = some ((b0.toNat % 16) * 256 + b1.toNat + 1, e.toNat + 18))

/-- R100: the bytes R99 gives a pair are the only bytes that decode to it, and every byte pattern decodes to a pair in
range, the 2-byte form to lengths 3 to 17 and the 3-byte form to lengths 18 to 273. -/
def Obligations.TokenEncodingIsABijection : Prop :=
  ∀ m : Magic,
    (∀ (d l : Nat) (bs : List Byte), 1 ≤ d → d ≤ 4096 → 3 ≤ l → l ≤ 273 →
      ((∃ i, decode m (.token false) bs = .ok (i, []) ∧ backRefOperands i = some (d, l)) ↔ bs = payloadOf d l)) ∧
    (∀ b0 b1 : Byte, 1 ≤ b0.toNat / 16 →
      ∃ i d l, decode m (.token false) [b0, b1] = .ok (i, []) ∧ backRefOperands i = some (d, l) ∧
        1 ≤ d ∧ d ≤ 4096 ∧ 3 ≤ l ∧ l ≤ 17) ∧
    (∀ b0 b1 e : Byte, b0.toNat / 16 = 0 →
      ∃ i d l, decode m (.token false) [b0, b1, e] = .ok (i, []) ∧ backRefOperands i = some (d, l) ∧
        1 ≤ d ∧ d ≤ 4096 ∧ 18 ≤ l ∧ l ≤ 273)

/-- R98 on the machine: the step that fetches a legal back-reference latches its operands, in either form, and starts the
copy; nothing but the latches, `src`, `cnt` and `phase` changes. -/
def Obligations.BackReferenceOperandsAreAssembled : Prop :=
  ∀ (s : State) (b0 b1 : Byte), s.Undisturbed → s.phase = .dBref →
    s.inputAt s.dec.src = some b0 → s.inputAt (s.dec.src + 1) = some b1 →
    (b0.toNat % 16) * 256 + b1.toNat + 1 ≤ s.dec.pos →
    (b0.toNat / 16 ≠ 0 → s.dec.pos + (b0.toNat / 16 + 2) ≤ s.dec.dlen →
      ∃ t, step s = .next t ∧ t.phase = .dCopy ∧
        t.dec = { s.dec with
          b0 := b0, b1 := b1, n := t.dec.n, src := s.dec.src + 2
          distance := (b0.toNat % 16) * 256 + b1.toNat + 1
          length := b0.toNat / 16 + 2, cnt := b0.toNat / 16 + 2 } ∧
        t.dec.n.toNat = b0.toNat / 16 ∧
        KeepsInputs s t ∧ KeepsResult s t ∧ KeepsEncoder s t ∧ KeepsOutput s t) ∧
    (b0.toNat / 16 = 0 → ∀ e : Byte, s.inputAt (s.dec.src + 2) = some e → s.dec.pos + (e.toNat + 18) ≤ s.dec.dlen →
      ∃ t, step s = .next t ∧ t.phase = .dCopy ∧
        t.dec = { s.dec with
          b0 := b0, b1 := b1, n := 0#4, extra := e, src := s.dec.src + 3
          distance := (b0.toNat % 16) * 256 + b1.toNat + 1
          length := e.toNat + 18, cnt := e.toNat + 18 } ∧
        KeepsInputs s t ∧ KeepsResult s t ∧ KeepsEncoder s t ∧ KeepsOutput s t)

/-! ## The header unit (spec/40_frame_header.md) -/

/-- R120 and R121: HDR.PARSE. The checks come in order: fewer than 4 bytes, where nothing is compared; then the tag, for which
the four tag bytes suffice; then fewer than 16 bytes. Each takes its fault from the state as it was. A whole header in
IBUF gives the three words big-endian, the cursors and the phase, and changes nothing else. R214 (d) gives a `dlen` above
OBUF_CAP no meaning, so a header that parses has one that fits. -/
def Obligations.HdrParseChecksThenReads : Prop :=
  ∀ s : State,
    (s.len < 4 → exec .hdrParse s = .next (s.takeFault .truncated)) ∧
    (∀ m0 m1 m2 m3 : Byte,
      s.inputAt 0 = some m0 → s.inputAt 1 = some m1 → s.inputAt 2 = some m2 → s.inputAt 3 = some m3 →
      (⟨m0, m1, m2, m3⟩ ≠ s.cfg.magic → exec .hdrParse s = .next (s.takeFault .badMagic)) ∧
      (⟨m0, m1, m2, m3⟩ = s.cfg.magic → s.len < 16 → exec .hdrParse s = .next (s.takeFault .truncated))) ∧
    ∀ b : Nat → Byte, 16 ≤ s.len → (∀ a, a < 16 → Memory.read s.ibuf a = some (b a)) →
      s.cfg.magic = ⟨b 0, b 1, b 2, b 3⟩ →
      s.obufFits ((b 4).toNat * 2 ^ 24 + (b 5).toNat * 2 ^ 16 + (b 6).toNat * 2 ^ 8 + (b 7).toNat) = true →
      ∃ t, exec .hdrParse s = .next t ∧
        t.dlenR.toNat = (b 4).toNat * 2 ^ 24 + (b 5).toNat * 2 ^ 16 + (b 6).toNat * 2 ^ 8 + (b 7).toNat ∧
        t.rsv0.toNat = (b 8).toNat * 2 ^ 24 + (b 9).toNat * 2 ^ 16 + (b 10).toNat * 2 ^ 8 + (b 11).toNat ∧
        t.rsv1.toNat = (b 12).toNat * 2 ^ 24 + (b 13).toNat * 2 ^ 16 + (b 14).toNat * 2 ^ 8 + (b 15).toNat ∧
        t.dec = { s.dec with dlen := t.dlenR.toNat, src := 16, pos := 0, bitsLeft := 0 } ∧
        t.phase = .dGroup ∧ t.status = s.status ∧ t.err = s.err ∧ t.outLen = s.outLen ∧
        KeepsInputs s t ∧ KeepsEncoder s t ∧ KeepsOutput s t

/-- The decoded header object executes as R120 says: every word is accepted, and only a short input or a `dlen` above
OBUF_CAP keeps it from completing. That R214 (d)'s refusal is declared here is the model's choice (log 10). -/
def Obligations.HeaderObjectExecutes : Prop :=
  ∀ (s : State) (d r0 r1 : Word32),
    (16 ≤ s.len → s.obufFits d.toNat = true →
      ∃ t, exec (.hdr d r0 r1) s = .next t ∧ t.dlenR = d ∧ t.rsv0 = r0 ∧ t.rsv1 = r1 ∧
        t.dec = { s.dec with dlen := d.toNat, src := 16, pos := 0, bitsLeft := 0 } ∧ t.phase = .dGroup ∧
        t.status = s.status ∧ t.err = s.err ∧ t.outLen = s.outLen ∧
        KeepsInputs s t ∧ KeepsEncoder s t ∧ KeepsOutput s t) ∧
    (s.len < 16 → exec (.hdr d r0 r1) s = .next (s.takeFault .truncated)) ∧
    (16 ≤ s.len → s.obufFits d.toNat = false → exec (.hdr d r0 r1) s = .refused .outputCapacity)

/-- R122: HDR.EMIT writes the 16 header bytes at OBUF address 0, sets the encode cursors and empties the group; every other
byte and register stays. -/
def Obligations.HdrEmitWritesTheHeader : Prop :=
  ∀ s : State, s.len < 2 ^ 32 → s.obufFits 16 = true →
    ∃ t, exec .hdrEmit s = .next t ∧
      OutputHas s t 0
        [s.cfg.magic.m0, s.cfg.magic.m1, s.cfg.magic.m2, s.cfg.magic.m3,
          BitVec.ofNat 8 (s.len / 2 ^ 24), BitVec.ofNat 8 (s.len / 2 ^ 16), BitVec.ofNat 8 (s.len / 2 ^ 8),
          BitVec.ofNat 8 s.len, 0, 0, 0, 0, 0, 0, 0, 0] ∧
      t.enc = { s.enc with wp := 16, i := 0 } ∧
      t.grp.ctrl = 0 ∧ t.grp.cnt = 0 ∧ t.grp.len = 0 ∧ t.phase = .eScan ∧
      t.dec = s.dec ∧ t.draws = s.draws ∧ KeepsInputs s t ∧ KeepsResult s t

/-! ## The decode path (spec/41_decoder.md) -/

/-- R141: CTRL completes the command when nothing is owed, raises Truncated when no byte is left, and otherwise loads the
control byte; nothing else changes. -/
def Obligations.CtrlLoadsTheControlByte : Prop :=
  ∀ (s : State) (c : Byte),
    (s.dec.dlen ≤ s.dec.pos → exec (.ctrl c) s = exec .dDone s) ∧
    (s.dec.pos < s.dec.dlen → s.len ≤ s.dec.src → exec (.ctrl c) s = .next (s.takeFault .truncated)) ∧
    (s.dec.pos < s.dec.dlen → s.dec.src < s.len →
      ∃ t, exec (.ctrl c) s = .next t ∧
        t.dec = { s.dec with ctrl := c, bitsLeft := 8, src := s.dec.src + 1 } ∧ t.phase = .dToken ∧
        KeepsInputs s t ∧ KeepsResult s t ∧ KeepsEncoder s t ∧ KeepsOutput s t)

/-- R142, R31: DISPATCH completes the command when nothing is owed, whatever bits are unused; goes to the next group when
the bits are used up; and otherwise takes bit 7 of `ctrl`, shifts the rest up, and routes a 1 to the literal path and a 0 to
the back-reference path. -/
def Obligations.DispatchTakesTheTopBit : Prop :=
  ∀ s : State,
    (s.dec.dlen ≤ s.dec.pos → exec .dispatch s = exec .dDone s) ∧
    (s.dec.pos < s.dec.dlen → s.dec.bitsLeft = 0 → exec .dispatch s = .next (s.setPhase .dGroup)) ∧
    (s.dec.pos < s.dec.dlen → s.dec.bitsLeft ≠ 0 →
      ∃ t, exec .dispatch s = .next t ∧
        (128 ≤ s.dec.ctrl.toNat → t.dec.cbit = true ∧ t.phase = .dLit) ∧
        (s.dec.ctrl.toNat < 128 → t.dec.cbit = false ∧ t.phase = .dBref) ∧
        t.dec.ctrl.toNat = (2 * s.dec.ctrl.toNat) % 256 ∧
        t.dec = { s.dec with cbit := t.dec.cbit, ctrl := t.dec.ctrl, bitsLeft := s.dec.bitsLeft - 1 } ∧
        KeepsInputs s t ∧ KeepsResult s t ∧ KeepsEncoder s t ∧ KeepsOutput s t)

/-- R143: LIT raises Truncated when no byte is left; otherwise it stores the byte at OBUF[pos] and advances both cursors;
every other byte of OBUF and every other register stays. -/
def Obligations.LitCopiesOneByte : Prop :=
  ∀ (s : State) (v : Byte),
    (s.len ≤ s.dec.src → exec (.lit v) s = .next (s.takeFault .truncated)) ∧
    (s.dec.src < s.len → s.obufFits (s.dec.pos + 1) = true →
      ∃ t, exec (.lit v) s = .next t ∧ OutputHas s t s.dec.pos [v] ∧
        t.dec = { s.dec with src := s.dec.src + 1, pos := s.dec.pos + 1 } ∧ t.phase = .dToken ∧
        KeepsInputs s t ∧ KeepsResult s t ∧ KeepsEncoder s t)

/-- R144, with R98 and R146 from where it goes on: BREF.S raises Truncated where its two bytes are not both there, then
InvalidDistance, then LengthOverrun, each as R239 says; a legal one latches its operands and starts the copy. -/
def Obligations.ShortBackReferenceStartsTheCopy : Prop :=
  ∀ (s : State) (n : BitVec 4) (D : BitVec 12), n ≠ 0 →
    (s.len < s.dec.src + 2 → TakesFault s .truncated (exec (.brefS n D) s)) ∧
    (s.dec.src + 2 ≤ s.len → s.dec.pos < D.toNat + 1 →
      TakesFault s .invalidDistance (exec (.brefS n D) s)) ∧
    (s.dec.src + 2 ≤ s.len → D.toNat + 1 ≤ s.dec.pos → s.dec.dlen < s.dec.pos + (n.toNat + 2) →
      TakesFault s .lengthOverrun (exec (.brefS n D) s)) ∧
    (s.dec.src + 2 ≤ s.len → D.toNat + 1 ≤ s.dec.pos → s.dec.pos + (n.toNat + 2) ≤ s.dec.dlen →
      ∃ t, exec (.brefS n D) s = .next t ∧ t.phase = .dCopy ∧
        t.dec = { s.dec with
          b0 := t.dec.b0, b1 := t.dec.b1, n := n, src := s.dec.src + 2
          distance := D.toNat + 1, length := n.toNat + 2, cnt := n.toNat + 2 } ∧
        t.dec.b0.toNat = n.toNat * 16 + D.toNat / 256 ∧ t.dec.b1.toNat = D.toNat % 256 ∧
        KeepsInputs s t ∧ KeepsResult s t ∧ KeepsEncoder s t ∧ KeepsOutput s t)

/-- R145, with R98 and R146: the same for BREF.X, whose three bytes must all be there before anything is checked (R238),
and which also latches its third byte. -/
def Obligations.ExtendedBackReferenceStartsTheCopy : Prop :=
  ∀ (s : State) (D : BitVec 12) (e : Byte),
    (s.len < s.dec.src + 3 → TakesFault s .truncated (exec (.brefX D e) s)) ∧
    (s.dec.src + 3 ≤ s.len → s.dec.pos < D.toNat + 1 →
      TakesFault s .invalidDistance (exec (.brefX D e) s)) ∧
    (s.dec.src + 3 ≤ s.len → D.toNat + 1 ≤ s.dec.pos → s.dec.dlen < s.dec.pos + (e.toNat + 18) →
      TakesFault s .lengthOverrun (exec (.brefX D e) s)) ∧
    (s.dec.src + 3 ≤ s.len → D.toNat + 1 ≤ s.dec.pos → s.dec.pos + (e.toNat + 18) ≤ s.dec.dlen →
      ∃ t, exec (.brefX D e) s = .next t ∧ t.phase = .dCopy ∧
        t.dec = { s.dec with
          b0 := t.dec.b0, b1 := t.dec.b1, n := 0, extra := e, src := s.dec.src + 3
          distance := D.toNat + 1, length := e.toNat + 18, cnt := e.toNat + 18 } ∧
        t.dec.b0.toNat = D.toNat / 256 ∧ t.dec.b1.toNat = D.toNat % 256 ∧
        KeepsInputs s t ∧ KeepsResult s t ∧ KeepsEncoder s t ∧ KeepsOutput s t)

/-- R146: BREF.CHECK tests the distance, then the length, and otherwise starts the copy with `cnt = length`; the bounds
`distance = pos` and `pos + length = dlen` are legal. -/
def Obligations.BrefCheckTestsDistanceThenLength : Prop :=
  ∀ s : State,
    (s.dec.pos < s.dec.distance → exec .brefCheck s = .next (s.takeFault .invalidDistance)) ∧
    (s.dec.distance ≤ s.dec.pos → s.dec.dlen < s.dec.pos + s.dec.length →
      exec .brefCheck s = .next (s.takeFault .lengthOverrun)) ∧
    (s.dec.distance ≤ s.dec.pos → s.dec.pos + s.dec.length ≤ s.dec.dlen →
      ∃ t, exec .brefCheck s = .next t ∧ t.dec = { s.dec with cnt := s.dec.length } ∧ t.phase = .dCopy ∧
        KeepsInputs s t ∧ KeepsResult s t ∧ KeepsEncoder s t ∧ KeepsOutput s t)

/-- R232: on the decode path a missing byte raises Truncated, whatever the bytes that are there hold: the control byte, the
literal, either byte of a code, the third byte of an extended form. -/
def Obligations.MissingBytesRaiseTruncated : Prop :=
  ∀ s : State, s.Undisturbed →
    (s.phase = .dGroup → s.dec.pos < s.dec.dlen → s.len ≤ s.dec.src → TakesFault s .truncated (step s)) ∧
    (s.phase = .dLit → s.len ≤ s.dec.src → TakesFault s .truncated (step s)) ∧
    (s.phase = .dBref → s.len < s.dec.src + 2 → TakesFault s .truncated (step s)) ∧
    (s.phase = .dBref → s.len = s.dec.src + 2 → ∀ b0 b1 : Byte, s.inputAt s.dec.src = some b0 →
      s.inputAt (s.dec.src + 1) = some b1 → b0.toNat < 16 → TakesFault s .truncated (step s))

/-- R147: REPLAY copies the byte at `pos - distance` to `pos` and counts down; at 0 it only goes on to the next token. -/
def Obligations.ReplayCopiesOneByte : Prop :=
  ∀ s : State,
    (s.dec.cnt = 0 → exec .replay s = .next (s.setPhase .dToken)) ∧
    ∀ v : Byte, s.dec.cnt ≠ 0 → s.dec.distance ≤ s.dec.pos → s.obufFits (s.dec.pos + 1) = true →
      Memory.read s.obuf (s.dec.pos - s.dec.distance) = some v →
      ∃ t, exec .replay s = .next t ∧ OutputHas s t s.dec.pos [v] ∧
        t.dec = { s.dec with pos := s.dec.pos + 1, cnt := s.dec.cnt - 1 } ∧ t.phase = s.phase ∧
        KeepsInputs s t ∧ KeepsResult s t ∧ KeepsEncoder s t

/-- R74: the whole copy, one step a byte, repeats the last `distance` bytes before its start, also where it overlaps
itself. -/
def Obligations.ReplayRepeatsTheLastBytes : Prop :=
  ∀ s : State, s.Undisturbed → s.phase = .dCopy → 1 ≤ s.dec.distance → s.dec.distance ≤ s.dec.pos →
    s.obufFits (s.dec.pos + s.dec.cnt) = true →
    (∀ a, a < s.dec.pos → (Memory.read s.obuf a).isSome = true) →
    ∃ t, runSteps s.dec.cnt s = .next t ∧ t.phase = .dCopy ∧
      t.dec = { s.dec with pos := s.dec.pos + s.dec.cnt, cnt := 0 } ∧
      (∀ x, x < s.dec.cnt →
        Memory.read t.obuf (s.dec.pos + x) = Memory.read s.obuf (s.dec.pos - s.dec.distance + x % s.dec.distance)) ∧
      (∀ x, x < s.dec.pos ∨ s.dec.pos + s.dec.cnt ≤ x → Memory.read t.obuf x = Memory.read s.obuf x) ∧
      KeepsInputs s t ∧ KeepsResult s t ∧ KeepsEncoder s t

/-- R148: completion of DECODE writes OUT_LEN, STATE and the phase. A `dlen` is a 32-bit word (R30). That the datapath
registers and the bytes of OBUF stay, also those at or above OUT_LEN, is the model's choice (log 22; U6 and U16 leave them
any value). -/
def Obligations.DecodeCompletes : Prop :=
  ∀ s : State, s.dec.dlen < 2 ^ 32 →
    ∃ t, exec .dDone s = .next t ∧ t.outLen.toNat = s.dec.dlen ∧ t.status = .done ∧ t.phase = .idle ∧
      t.err = s.err ∧ t.dlenR = s.dlenR ∧ t.rsv0 = s.rsv0 ∧ t.rsv1 = s.rsv1 ∧ t.dec = s.dec ∧
      KeepsInputs s t ∧ KeepsEncoder s t ∧ KeepsOutput s t

/-! ## The match finder (spec/42_match_finder.md) -/

/-- R171: WINDOW. `lo` is `max(0, i - 4096)`, so the candidates are the at most 4096 preceding positions, and `cap` is
`min(273, IN_LEN - i)`. -/
def Obligations.WindowIsThePrecedingBytes : Prop :=
  ∀ s : State, s.enc.i < s.len →
    ∃ t, exec .window s = .next t ∧
      (s.enc.i < 4096 → t.enc.lo = 0) ∧ (4096 ≤ s.enc.i → t.enc.lo = s.enc.i - 4096) ∧
      (∀ x, t.enc.lo ≤ x ∧ x < s.enc.i ↔ x < s.enc.i ∧ s.enc.i ≤ x + 4096) ∧
      1 ≤ t.enc.cap ∧ t.enc.cap ≤ 273 ∧ s.enc.i + t.enc.cap ≤ s.len ∧
      (t.enc.cap = 273 ∨ s.enc.i + t.enc.cap = s.len) ∧
      t.enc = { s.enc with lo := t.enc.lo, cap := t.enc.cap } ∧ t.phase = s.phase ∧ t.dec = s.dec ∧ t.grp = s.grp ∧
      t.draws = s.draws ∧ KeepsInputs s t ∧ KeepsResult s t ∧ KeepsOutput s t

/-- R172: MATCHLEN counts the equal bytes of candidate `j` and position `i` up to `cap`, and writes `k` alone. The
candidate's bytes may run past `i`. -/
def Obligations.MatchlenIsTheLongestEqualRun : Prop :=
  ∀ s : State, s.InputLoaded → s.enc.j < s.enc.i → s.enc.i + s.enc.cap ≤ s.len →
    ∃ t, exec .matchlen s = .next t ∧ t.enc.k ≤ s.enc.cap ∧
      (∀ x, x < t.enc.k → Memory.read s.ibuf (s.enc.j + x) = Memory.read s.ibuf (s.enc.i + x)) ∧
      (t.enc.k < s.enc.cap → Memory.read s.ibuf (s.enc.j + t.enc.k) ≠ Memory.read s.ibuf (s.enc.i + t.enc.k)) ∧
      t.enc = { s.enc with k := t.enc.k } ∧ t.phase = s.phase ∧ t.dec = s.dec ∧ t.grp = s.grp ∧ t.draws = s.draws ∧
      KeepsInputs s t ∧ KeepsResult s t ∧ KeepsOutput s t

/-- R173: SELECT finds the longest match of the window and, among the longest, the nearest; no match gives (0, 0). What the
scan leaves in `j` and `k` is unspecified (R174). -/
def Obligations.SelectIsLongestThenNearest : Prop :=
  ∀ s : State, s.InputLoaded → s.enc.lo ≤ s.enc.i → s.enc.i + s.enc.cap ≤ s.len →
    ∃ t, exec .select s = .next t ∧
      (∀ j k, s.enc.lo ≤ j → j < s.enc.i → matchLen s.inputAt s.enc.cap j s.enc.i = some k →
        k ≤ t.enc.bestLen ∧ (k = t.enc.bestLen → 0 < k → t.enc.bestDist ≤ s.enc.i - j)) ∧
      (0 < t.enc.bestLen → 1 ≤ t.enc.bestDist ∧ t.enc.bestDist ≤ s.enc.i - s.enc.lo ∧
        matchLen s.inputAt s.enc.cap (s.enc.i - t.enc.bestDist) s.enc.i = some t.enc.bestLen) ∧
      (t.enc.bestLen = 0 → t.enc.bestDist = 0) ∧
      t.enc = { s.enc with bestLen := t.enc.bestLen, bestDist := t.enc.bestDist, j := t.enc.j, k := t.enc.k } ∧
      t.phase = s.phase ∧ t.dec = s.dec ∧ t.grp = s.grp ∧ KeepsInputs s t ∧ KeepsResult s t ∧ KeepsOutput s t

/-- R175: ACCEPT decides for a back-reference from length 3 on, and otherwise for the byte at `i`; the decision latch is
the model's own (log 12), and nothing else changes. -/
def Obligations.AcceptAppliesTheThreshold : Prop :=
  ∀ s : State,
    (3 ≤ s.enc.bestLen →
      ∃ t, exec .accept s = .next t ∧
        t.enc = { s.enc with decision := .backRef s.enc.bestDist s.enc.bestLen } ∧ t.phase = s.phase ∧ t.dec = s.dec ∧
        t.grp = s.grp ∧ t.draws = s.draws ∧ KeepsInputs s t ∧ KeepsResult s t ∧ KeepsOutput s t) ∧
    (s.enc.bestLen < 3 → ∀ v : Byte, s.inputAt s.enc.i = some v →
      ∃ t, exec .accept s = .next t ∧ t.enc = { s.enc with decision := .literal v } ∧ t.phase = s.phase ∧
        t.dec = s.dec ∧ t.grp = s.grp ∧ t.draws = s.draws ∧ KeepsInputs s t ∧ KeepsResult s t ∧ KeepsOutput s t)

/-- R218, for the search alone: a match that ACCEPT takes is encodable, lies inside the input on both sides, and its bytes
are the bytes at `i`. -/
def Obligations.AcceptedMatchIsLegal : Prop :=
  ∀ (inp : List Byte) (i : Nat), i < inp.length → 3 ≤ (findIn inp i).len →
    (findIn inp i).len ≤ 273 ∧ 1 ≤ (findIn inp i).dist ∧ (findIn inp i).dist ≤ 4096 ∧ (findIn inp i).dist ≤ i ∧
      i + (findIn inp i).len ≤ inp.length ∧
      ∀ x, x < (findIn inp i).len → inp[i - (findIn inp i).dist + x]? = inp[i + x]?

/-! ## The emitter and packer (spec/43_emitter.md) -/

/-- R197: PACK sets bit `7 - grp_cnt` of the control byte for a literal, leaves it for a back-reference, leaves every other
bit, and counts the token. -/
def Obligations.PackSetsItsOwnBit : Prop :=
  ∀ (s : State) (c : Bool), s.grp.cnt < 8 →
    ∃ t, exec (.pack c) s = .next t ∧
      (∀ b, b < 8 → t.grp.ctrl.getLsbD b = (s.grp.ctrl.getLsbD b || (c && decide (b = 7 - s.grp.cnt)))) ∧
      t.grp = { s.grp with ctrl := t.grp.ctrl, cnt := s.grp.cnt + 1 } ∧
      t.enc = s.enc ∧ t.dec = s.dec ∧ t.phase = s.phase ∧ t.draws = s.draws ∧
      KeepsInputs s t ∧ KeepsResult s t ∧ KeepsOutput s t

/-- R193: EMIT.LIT stages the byte unchanged under a control bit 1. -/
def Obligations.EmitLitStagesTheByte : Prop :=
  ∀ (s : State) (v : Byte), s.grp.HasRoom →
    ∃ t, exec (.emitLit v) s = .next t ∧ t.grp.payload = s.grp.payload ++ [v] ∧
      t.grp.len = s.grp.len + 1 ∧ t.grp.cnt = s.grp.cnt + 1 ∧
      t.grp.ctrl = s.grp.ctrl ||| BitVec.ofNat 8 (2 ^ (7 - s.grp.cnt)) ∧
      t.enc = s.enc ∧ t.dec = s.dec ∧ t.phase = s.phase ∧ t.draws = s.draws ∧
      KeepsInputs s t ∧ KeepsResult s t ∧ KeepsOutput s t

/-- R194: EMIT.BREF raises EncInternal outside its bounds and otherwise stages, under a control bit 0, the 2-byte form for
lengths up to 17 and the 3-byte form above. -/
def Obligations.EmitBrefChecksThenStages : Prop :=
  ∀ (s : State) (d l : Nat),
    (l < 3 ∨ 273 < l ∨ d < 1 ∨ 4096 < d → exec (.emitBref d l) s = .next (s.takeFault .encInternal)) ∧
    (3 ≤ l → l ≤ 273 → 1 ≤ d → d ≤ 4096 → s.grp.HasRoom →
      ∃ t, exec (.emitBref d l) s = .next t ∧
        (l ≤ 17 → t.grp.payload = s.grp.payload ++
          [BitVec.ofNat 8 ((l - 2) * 16 + (d - 1) / 256), BitVec.ofNat 8 ((d - 1) % 256)]) ∧
        (17 < l → t.grp.payload = s.grp.payload ++
          [BitVec.ofNat 8 ((d - 1) / 256), BitVec.ofNat 8 ((d - 1) % 256), BitVec.ofNat 8 (l - 18)]) ∧
        t.grp.len = s.grp.len + (if l ≤ 17 then 2 else 3) ∧ t.grp.cnt = s.grp.cnt + 1 ∧ t.grp.ctrl = s.grp.ctrl ∧
        t.enc = s.enc ∧ t.dec = s.dec ∧ t.phase = s.phase ∧ t.draws = s.draws ∧
        KeepsInputs s t ∧ KeepsResult s t ∧ KeepsOutput s t)

/-- R195: EMIT.BREF.S stages the two bytes and neither packs a bit nor counts a token. -/
def Obligations.EmitShortFormStagesTwoBytes : Prop :=
  ∀ (s : State) (D : BitVec 12) (l : Nat), 3 ≤ l → l ≤ 17 → s.grp.len + 2 ≤ 24 →
    ∃ t, exec (.emitBrefS D l) s = .next t ∧
      t.grp.payload = s.grp.payload ++ [BitVec.ofNat 8 ((l - 2) * 16 + D.toNat / 256), BitVec.ofNat 8 (D.toNat % 256)] ∧
      t.grp.len = s.grp.len + 2 ∧ t.grp.cnt = s.grp.cnt ∧ t.grp.ctrl = s.grp.ctrl ∧
      t.enc = s.enc ∧ t.dec = s.dec ∧ t.phase = s.phase ∧ t.draws = s.draws ∧
      KeepsInputs s t ∧ KeepsResult s t ∧ KeepsOutput s t

/-- R196: EMIT.BREF.X stages the three bytes and neither packs a bit nor counts a token. -/
def Obligations.EmitExtendedFormStagesThreeBytes : Prop :=
  ∀ (s : State) (D : BitVec 12) (l : Nat), 18 ≤ l → l ≤ 273 → s.grp.len + 3 ≤ 24 →
    ∃ t, exec (.emitBrefX D l) s = .next t ∧
      t.grp.payload = s.grp.payload ++
        [BitVec.ofNat 8 (D.toNat / 256), BitVec.ofNat 8 (D.toNat % 256), BitVec.ofNat 8 (l - 18)] ∧
      t.grp.len = s.grp.len + 3 ∧ t.grp.cnt = s.grp.cnt ∧ t.grp.ctrl = s.grp.ctrl ∧
      t.enc = s.enc ∧ t.dec = s.dec ∧ t.phase = s.phase ∧ t.draws = s.draws ∧
      KeepsInputs s t ∧ KeepsResult s t ∧ KeepsOutput s t

/-- R198: FLUSH writes the control byte and the staged payloads from `wp` on, moves `wp` past them and empties the group;
every other byte and register stays. -/
def Obligations.FlushWritesTheGroup : Prop :=
  ∀ s : State, s.grp.len ≤ 24 → s.obufFits (s.enc.wp + 1 + s.grp.len) = true →
    ∃ t, exec .flush s = .next t ∧ OutputHas s t s.enc.wp (s.grp.ctrl :: s.grp.payload) ∧
      s.grp.payload.length = s.grp.len ∧
      t.enc = { s.enc with wp := s.enc.wp + 1 + s.grp.len } ∧
      t.grp.ctrl = 0 ∧ t.grp.cnt = 0 ∧ t.grp.len = 0 ∧
      t.dec = s.dec ∧ t.phase = s.phase ∧ t.draws = s.draws ∧ KeepsInputs s t ∧ KeepsResult s t

/-- R201: E.DONE reports the frame's length and the input's length. That the datapath registers and the bytes of OBUF stay,
also those at or above OUT_LEN, is the model's choice (log 22; U6 and U16 leave them any value). -/
def Obligations.EncodeCompletes : Prop :=
  ∀ s : State, s.len < 2 ^ 32 → s.enc.wp < 2 ^ 64 →
    ∃ t, exec .eDone s = .next t ∧ t.outLen.toNat = s.enc.wp ∧ t.dlenR.toNat = s.len ∧ t.status = .done ∧
      t.phase = .idle ∧ t.err = s.err ∧ t.rsv0 = s.rsv0 ∧ t.rsv1 = s.rsv1 ∧ t.dec = s.dec ∧
      KeepsInputs s t ∧ KeepsEncoder s t ∧ KeepsOutput s t

/-- R199: FINAL completes at once when no token is pending, and otherwise writes the partial group first. That the datapath
registers and the bytes of OBUF beyond the frame stay after completion is the model's choice (log 22; U6 and U16 leave them
any value). -/
def Obligations.FinalFlushesThenCompletes : Prop :=
  ∀ s : State, s.len < 2 ^ 32 → s.enc.wp + 1 + s.grp.len < 2 ^ 64 →
    (s.grp.cnt = 0 →
      ∃ t, exec .final s = .next t ∧ exec .eDone s = .next t ∧ t.outLen.toNat = s.enc.wp ∧ t.status = .done ∧
        KeepsInputs s t ∧ KeepsEncoder s t ∧ KeepsOutput s t) ∧
    (s.grp.cnt ≠ 0 → s.grp.len ≤ 24 → s.obufFits (s.enc.wp + 1 + s.grp.len) = true →
      ∃ t, exec .final s = .next t ∧ OutputHas s t s.enc.wp (s.grp.ctrl :: s.grp.payload) ∧
        t.outLen.toNat = s.enc.wp + 1 + s.grp.len ∧ t.dlenR.toNat = s.len ∧ t.status = .done ∧ t.phase = .idle ∧
        t.enc = { s.enc with wp := s.enc.wp + 1 + s.grp.len } ∧ t.grp.ctrl = 0 ∧ t.grp.cnt = 0 ∧ t.grp.len = 0 ∧
        t.err = s.err ∧ t.rsv0 = s.rsv0 ∧ t.rsv1 = s.rsv1 ∧ t.dec = s.dec ∧ t.draws = s.draws ∧ KeepsInputs s t)

/-- R192: E.STEP ends the scan at the end of the input; before it, it emits exactly one token, the greedy decision of R173
and R175 at `i`, advances `i` past it, and flushes a full group to `OBUF[wp ..]`. `best_len` and `best_dist` of the next
state are R173's pair. The decoder's registers, the results and all other bytes stay. -/
def Obligations.EncodeStepEmitsOneToken : Prop :=
  ∀ s : State,
    (s.len ≤ s.enc.i → exec .eStep s = .next (s.setPhase .eFinal)) ∧
    (s.enc.i < s.len → s.InputLoaded → s.grp.HasRoom → (s.grp.cnt = 7 → s.obufFits (s.enc.wp + 25) = true) →
      ∃ (t : State) (b : Best) (bytes : List Byte),
        exec .eStep s = .next t ∧
        findBest s.inputAt (windowLo s.enc.i) (windowCap s.len s.enc.i) s.enc.i = some b ∧
        t.enc.lo = windowLo s.enc.i ∧ t.enc.cap = windowCap s.len s.enc.i ∧
        t.enc.bestLen = b.len ∧ t.enc.bestDist = b.dist ∧
        (3 ≤ b.len → t.enc.i = s.enc.i + b.len ∧ bytes = payloadOf b.dist b.len) ∧
        (b.len < 3 → t.enc.i = s.enc.i + 1 ∧ ∃ v, s.inputAt s.enc.i = some v ∧ bytes = [v]) ∧
        (s.grp.cnt < 7 → t.grp.cnt = s.grp.cnt + 1 ∧ t.grp.len = s.grp.len + bytes.length ∧
          t.grp.payload = s.grp.payload ++ bytes ∧ t.enc.wp = s.enc.wp ∧
          (3 ≤ b.len → t.grp.ctrl = s.grp.ctrl) ∧
          (b.len < 3 → t.grp.ctrl = s.grp.ctrl ||| BitVec.ofNat 8 (2 ^ (7 - s.grp.cnt))) ∧ KeepsOutput s t) ∧
        (s.grp.cnt = 7 → t.grp.cnt = 0 ∧ t.grp.len = 0 ∧ t.grp.ctrl = 0 ∧
          t.enc.wp = s.enc.wp + 1 + (s.grp.len + bytes.length) ∧
          OutputHas s t s.enc.wp
            ((if 3 ≤ b.len then s.grp.ctrl else s.grp.ctrl ||| 1#8) :: (s.grp.payload ++ bytes))) ∧
        t.phase = s.phase ∧ t.dec = s.dec ∧ KeepsInputs s t ∧ KeepsResult s t)

/-! ## Commands, faults, reset (spec/44_commands.md, 60_exceptions.md, 70_reset_and_hazards.md) -/

/-- R210, R261, R42: a command start, from IDLE, DONE or FAULT alike. IBUF, IN_LEN and OBUF stay; CMD holds no value
afterwards (R22). Nothing is said of the datapath registers: R42 leaves them unspecified. -/
def Obligations.CommandStartClearsTheResults : Prop :=
  ∀ s : State, s.status ≠ .busy → s.ibufFits s.len = true →
    (∃ t, exec .decode s = .next t ∧ t.status = .busy ∧ t.phase = .dHdr ∧ t.err = .none ∧ t.outLen = 0 ∧ t.dlenR = 0 ∧
      t.rsv0 = 0 ∧ t.rsv1 = 0 ∧ t.cmd = none ∧ t.cfg = s.cfg ∧ t.rst = s.rst ∧ t.inLen = s.inLen ∧ t.ibuf = s.ibuf ∧
      t.ibufDraw = s.ibufDraw ∧ KeepsOutput s t) ∧
    (s.len < 2 ^ 32 →
      ∃ t, exec .encode s = .next t ∧ t.status = .busy ∧ t.phase = .eHdr ∧ t.err = .none ∧ t.outLen = 0 ∧ t.dlenR = 0 ∧
        t.rsv0 = 0 ∧ t.rsv1 = 0 ∧ t.cmd = none ∧ t.cfg = s.cfg ∧ t.rst = s.rst ∧ t.inLen = s.inLen ∧ t.ibuf = s.ibuf ∧
        t.ibufDraw = s.ibufDraw ∧ KeepsOutput s t)

/-- R22, R210: a CMD write of 1 or 2 while CORE is not BUSY starts the command: HOST finds CORE BUSY from the write on, with
ERR 0, no later write has an effect, and the next step is the command's start. A write while BUSY, and one of 0 or 3, has no
effect. CMD holds no value once the start is taken, and HOST cannot read it. The reset input is taken first. That a start
is held in the field `cmd` until the next step, and that the reset input comes before it, is the model's choice (logs 7
and 8). -/
def Obligations.HostInputsAreTaken : Prop :=
  ∀ s : State,
    s.hostReadReg .cmd = .error .cmdRead ∧
    (s.rst = true → step s = exec .reset s ∧ ∀ t, step s = .next t → t.rst = false) ∧
    (s.status ≠ .busy → s.cmd = none →
      (s.rst = false → step (s.hostWriteCmd 1#2) = exec .decode s ∧ step (s.hostWriteCmd 2#2) = exec .encode s) ∧
      ∀ c c' : BitVec 2, c = 1#2 ∨ c = 2#2 →
        (s.hostWriteCmd c).hostReadReg .status = .ok 1 ∧ (s.hostWriteCmd c).hostReadReg .err = .ok 0 ∧
        (s.hostWriteCmd c).hostWriteCmd c' = s.hostWriteCmd c ∧ s.hostWriteCmd c = { s with cmd := some c }) ∧
    (s.status = .busy → ∀ c, s.hostWriteCmd c = s) ∧ s.hostWriteCmd 0#2 = s ∧ s.hostWriteCmd 3#2 = s ∧
    (s.rst = false →
      (s.status ≠ .busy → s.cmd = some 1#2 → step s = exec .decode s) ∧
      (s.status ≠ .busy → s.cmd = some 2#2 → step s = exec .encode s) ∧
      (s.status = .busy → s.cmd = some 1#2 ∨ s.cmd = some 2#2 → step s = .next { s with cmd := none }) ∧
      (s.cmd = some 0#2 ∨ s.cmd = some 3#2 → step s = .next { s with cmd := none }) ∧
      ∀ t, s.cmd ≠ none → step s = .next t → t.cmd = none)

/-- R214 (a), (b): the command starts that are refused, and that no other start is. -/
def Obligations.RefusedCommandStarts : Prop :=
  ∀ s : State, s.status ≠ .busy →
    (s.ibufFits s.len = false → exec .decode s = .refused .inputCapacity ∧ exec .encode s = .refused .inputCapacity) ∧
    (s.ibufFits s.len = true → 2 ^ 32 ≤ s.len → exec .encode s = .refused .inputTooLong) ∧
    (∀ r, exec .decode s = .refused r → s.ibufFits s.len = false) ∧
    (∀ r, exec .encode s = .refused r → s.ibufFits s.len = false ∨ 2 ^ 32 ≤ s.len)

/-- R239: fault entry writes the code, clears the result registers, ends the command, and does nothing else: no cursor
moves and no byte is written. -/
def Obligations.FaultEntryLeavesOnlyTheCode : Prop :=
  ∀ (s : State) (f : FaultKind),
    ∃ t, exec (.raise f) s = .next t ∧
      (f = .badMagic → t.err.code = 1#3) ∧ (f = .truncated → t.err.code = 2#3) ∧
      (f = .invalidDistance → t.err.code = 3#3) ∧ (f = .lengthOverrun → t.err.code = 4#3) ∧
      (f = .encInternal → t.err.code = 5#3) ∧
      t.outLen = 0 ∧ t.dlenR = 0 ∧ t.rsv0 = 0 ∧ t.rsv1 = 0 ∧ t.status = .fault ∧ t.phase = .idle ∧
      t.dec = s.dec ∧ KeepsInputs s t ∧ KeepsEncoder s t ∧ KeepsOutput s t

/-- R240: a fault is terminal. With no reset and no CMD write, a faulted CORE stays as it is for any number of steps. R240
says it of the command and of ERR; that a waiting CORE keeps its whole state, the datapath registers and OBUF too, is the
model's choice (logs 20 and 22; U6 and U16). -/
def Obligations.FaultIsTerminal : Prop :=
  ∀ (s : State) (n : Nat), s.Inv → s.Undisturbed → s.status = .fault → runSteps n s = .next s

/-- R260: what reset leaves, from any state, also in the middle of a command. Nothing is said of the datapath registers and
the buffers: R260 leaves them unspecified. -/
def Obligations.ResetReturnsToIdle : Prop :=
  ∀ s : State,
    ∃ t, exec .reset s = .next t ∧ t.status = .idle ∧ t.err = .none ∧ t.inLen = 0 ∧ t.outLen = 0 ∧ t.dlenR = 0 ∧
      t.rsv0 = 0 ∧ t.rsv1 = 0 ∧ t.phase = .idle ∧ t.cmd = none

/-- R42: the state right after reset has the values R42 states. -/
def Obligations.ResetStateHasTheSpecifiedValues : Prop :=
  State.reset.status.code = 0#2 ∧ State.reset.err.code = 0#3 ∧ State.reset.inLen = 0 ∧ State.reset.outLen = 0 ∧
    State.reset.dlenR = 0 ∧ State.reset.rsv0 = 0 ∧ State.reset.rsv1 = 0 ∧ State.reset.cmd = none ∧
    State.reset.phase = .idle

/-! ## HOST's accesses (spec/10_state.md section 2, 70_reset_and_hazards.md section 2) -/

/-- R78, R263, R213, R262, R70: while BUSY, which CORE is from the write of CMD on, HOST reads only STATUS and ERR and writes no
buffer and no IN_LEN; in DONE it reads every result register, and the OBUF bytes below OUT_LEN that CORE has written; in
FAULT it reads ERR and no byte of OBUF; outside BUSY it reads all of IBUF, and what it writes the next command reads, byte
for byte, with nothing else changed. That the accesses are functions beside step, and what they refuse, is the model's
choice (log 21), and so is the form of a start that is under way (log 7). -/
def Obligations.HostAccessRules : Prop :=
  ∀ s : State,
    (s.status = .busy ∨ s.cmd = some 1#2 ∨ s.cmd = some 2#2 →
      s.hostReadReg .inLen = .error .hostWhileBusy ∧ s.hostReadReg .outLen = .error .hostWhileBusy ∧
      s.hostReadReg .dlen = .error .hostWhileBusy ∧ s.hostReadReg .rsv0 = .error .hostWhileBusy ∧
      s.hostReadReg .rsv1 = .error .hostWhileBusy ∧ s.hostReadReg .cmd = .error .cmdRead ∧
      (∀ a, s.hostReadIbuf a = .error .hostWhileBusy) ∧ (∀ a, s.hostReadObuf a = .error .hostWhileBusy) ∧
      (∀ a v, s.hostWriteIbuf a v = .error .hostWhileBusy) ∧ (∀ n, s.hostWriteInLen n = .error .hostWhileBusy) ∧
      s.hostReadReg .status = .ok 1 ∧
      (s.err = .none ∨ s.cmd = some 1#2 ∨ s.cmd = some 2#2 → s.hostReadReg .err = .ok 0)) ∧
    (s.status = .done → s.cmd = none →
      s.hostReadReg .outLen = .ok s.outLen ∧ s.hostReadReg .status = .ok 2 ∧
      s.hostReadReg .dlen = .ok (s.dlenR.setWidth 64) ∧ s.hostReadReg .rsv0 = .ok (s.rsv0.setWidth 64) ∧
      s.hostReadReg .rsv1 = .ok (s.rsv1.setWidth 64) ∧
      ∀ a v, a < s.outLen.toNat → Memory.read s.obuf a = some v → s.hostReadObuf a = .ok v) ∧
    (s.status = .fault → s.cmd = none →
      s.hostReadReg .status = .ok 3 ∧ s.hostReadReg .err = .ok (s.err.code.setWidth 64) ∧
      ∀ a, s.hostReadObuf a = .error .noResult) ∧
    (s.status ≠ .busy → s.cmd = none → ∀ (a : Nat) (v : Byte) (n : LenWord), s.ibufFits (a + 1) = true →
      (∃ w, s.hostReadIbuf a = .ok w ∧ ∀ w', Memory.read s.ibuf a = some w' → w = w') ∧
      ∃ t u, s.hostWriteIbuf a v = .ok t ∧ t.hostWriteInLen n = .ok u ∧ u = { s with ibuf := u.ibuf, inLen := n } ∧
        u.len = n.toNat ∧ (a < n.toNat → u.inputAt a = some v) ∧ u.hostReadReg .inLen = .ok n ∧
        u.hostReadIbuf a = .ok v ∧ ∀ x, x ≠ a → Memory.read u.ibuf x = Memory.read s.ibuf x)

/-! ## The whole machine -/

/-- A step runs what the decoder reads at the fetch address: when no input is waiting and the phase fetches an object of
kind `k`, and the input there decodes to `i`, the step is exec of `i` on the same state. At a group boundary this needs a
byte to be owed (R141). -/
def Obligations.StepRunsTheDecodedInstruction : Prop :=
  ∀ (s : State) (k : FetchKind) (i : Instr) (rest : List Byte), s.Undisturbed → s.phase = fetchPhase k →
    (k = .control → s.dec.pos < s.dec.dlen) →
    decode s.cfg.magic k (s.inputPrefix (s.fetchAddr k) 16) = .ok (i, rest) → step s = exec i s

/-- R35's table: the step of each phase is the operation the table names for it, the bytes it fetches being there. In P_DHDR
fetching, decoding and executing the header is HDR.PARSE, faults and stops included. In P_IDLE CORE waits; that its state
stays unchanged there is the model's choice (log 20). -/
def Obligations.StepRunsThePhasesOperation : Prop :=
  ∀ s : State, s.Undisturbed →
    (s.phase = .idle → step s = .next s) ∧ (s.phase = .dHdr → step s = exec .hdrParse s) ∧
    (s.phase = .dGroup → ∀ c, s.inputAt s.dec.src = some c → step s = exec (.ctrl c) s) ∧
    (s.phase = .dToken → step s = exec .dispatch s) ∧
    (s.phase = .dLit → ∀ v, s.inputAt s.dec.src = some v → step s = exec (.lit v) s) ∧
    (s.phase = .dBref → ∀ b0 b1 : Byte, s.inputAt s.dec.src = some b0 → s.inputAt (s.dec.src + 1) = some b1 →
      (1 ≤ b0.toNat / 16 →
        ∃ n D, n.toNat = b0.toNat / 16 ∧ D.toNat = (b0.toNat % 16) * 256 + b1.toNat ∧ step s = exec (.brefS n D) s) ∧
      (b0.toNat / 16 = 0 → ∀ e : Byte, s.inputAt (s.dec.src + 2) = some e →
        ∃ D, D.toNat = (b0.toNat % 16) * 256 + b1.toNat ∧ step s = exec (.brefX D e) s)) ∧
    (s.phase = .dCopy → step s = exec .replay s) ∧ (s.phase = .eHdr → step s = exec .hdrEmit s) ∧
    (s.phase = .eScan → step s = exec .eStep s) ∧ (s.phase = .eFinal → step s = exec .final s)

/-- The invariant holds right after reset. -/
def Obligations.ResetStateHasTheInvariant : Prop := State.reset.Inv

/-- Every step keeps the invariant: canonical buffers, BUSY exactly when a phase is active, an error code exactly in FAULT,
and the decoder's (R150) and encoder's bounds. -/
def Obligations.StepKeepsTheInvariant : Prop :=
  ∀ s t : State, s.Inv → step s = .next t → t.Inv

/-- R25, R37, R7: no instruction but RESET changes IN_LEN or a byte of IBUF, and none changes the configuration. -/
def Obligations.CoreNeverWritesItsInput : Prop :=
  ∀ (i : Instr) (s t : State), exec i s = .next t →
    t.cfg = s.cfg ∧
      (i ≠ .reset → t.inLen = s.inLen ∧ t.ibufDraw = s.ibufDraw ∧ ∀ a, Memory.read t.ibuf a = Memory.read s.ibuf a)

/-- R79: a step of the decode path changes no register of the encode path, and the other way round. -/
def Obligations.PathsShareNoDatapathRegister : Prop :=
  ∀ s t : State, s.Undisturbed → step s = .next t →
    ((s.phase.decoding = true ∨ s.phase = .dHdr) → t.enc = s.enc ∧ t.grp = s.grp) ∧
    ((s.phase.scanning = true ∨ s.phase = .eHdr) → t.dec = s.dec)

/-- R29 and R72: on the decode path `src` stays or moves forward by 1, 2 or 3, never beyond the input, and a step writes at
most the one byte at OBUF[pos], which lies below `dlen`. -/
def Obligations.DecoderStepsAreBounded : Prop :=
  ∀ s t : State, s.Inv → s.Undisturbed → s.phase.decoding = true → step s = .next t →
    (s.dec.src ≤ t.dec.src ∧ t.dec.src ≤ s.dec.src + 3 ∧ t.dec.src ≤ s.len) ∧
      ∀ x, x ≠ s.dec.pos ∨ s.dec.dlen ≤ x → Memory.read t.obuf x = Memory.read s.obuf x

/-- R245, R235: no step of the encode path takes a fault; a step of the decode path takes none but the document's three and
LengthOverrun. -/
def Obligations.CommandsFaultAsSpecified : Prop :=
  ∀ s t : State, s.Inv → s.Undisturbed → s.phase ≠ .idle → step s = .next t →
    ((s.phase.scanning = true ∨ s.phase = .eHdr) → t.err = .none ∧ t.status ≠ .fault) ∧
    ((s.phase.decoding = true ∨ s.phase = .dHdr) → t.status = .fault →
      t.err = .badMagic ∨ t.err = .truncated ∨ t.err = .invalidDistance ∨ t.err = .lengthOverrun)

/-- Progress (R269): where HOST keeps its duties (R262) and none of R214's four cases holds, every step gives a next state: a
command that starts has an input that IBUF holds and, for ENCODE, that a header can state; a header that is parsed declares
a length that OBUF holds; and an ENCODE under way has room for R202's bound. The model stops for nothing else. -/
def Obligations.EveryStepCompletes : Prop :=
  ∀ s : State, s.Inv → s.InputLoaded →
    (s.status ≠ .busy → s.cmd = some 1#2 ∨ s.cmd = some 2#2 → s.ibufFits s.len = true) →
    (s.status ≠ .busy → s.cmd = some 2#2 → s.len < 2 ^ 32) →
    (s.phase = .dHdr → ∀ d, s.Declares d → s.obufFits d = true) →
    (s.phase = .eHdr ∨ s.phase.scanning = true → s.obufFits (16 + s.len + (s.len + 7) / 8) = true) →
    ∃ t, step s = .next t

/-- R214: a step is refused only for one of its four cases. (a) A start whose input IBUF does not hold; (b) an ENCODE request
whose input no header can state; (c) an ENCODE that has to write what OBUF does not hold: the header, the group that the
token at `i` completes, or the last group; (d) a parsed header that declares a length OBUF does not hold. In which step (c)
and (d) are declared is the model's choice (log 10). -/
def Obligations.StepsAreRefusedForCapacityOnly : Prop :=
  ∀ (s : State) (r : Refusal), s.Inv → step s = .refused r →
    s.rst = false ∧
    ((r = .inputCapacity ∧ (s.cmd = some 1#2 ∨ s.cmd = some 2#2) ∧ s.status ≠ .busy ∧ s.ibufFits s.len = false) ∨
      (r = .inputTooLong ∧ s.cmd = some 2#2 ∧ s.status ≠ .busy ∧ 2 ^ 32 ≤ s.len) ∨
      (r = .outputCapacity ∧ s.cmd = none ∧
        ((s.phase = .dHdr ∧ ∃ d, s.Declares d ∧ s.obufFits d = false) ∨
          (s.phase = .eHdr ∧ s.obufFits 16 = false) ∨
          (s.phase = .eScan ∧ s.grp.cnt = 7 ∧ ∃ b : Best,
            findBest s.inputAt (windowLo s.enc.i) (windowCap s.len s.enc.i) s.enc.i = some b ∧
            s.obufFits (s.enc.wp + 1 +
              (s.grp.len + (if 3 ≤ b.len then (payloadOf b.dist b.len).length else 1))) = false) ∨
          (s.phase = .eFinal ∧ s.grp.cnt ≠ 0 ∧ s.obufFits (s.enc.wp + 1 + s.grp.len) = false))))

/-- A term outside the operand ranges of R96, R195 and R196 is no instruction, and is refused by name in every state. -/
def Obligations.IllFormedTermsAreRefused : Prop :=
  ∀ (i : Instr) (s : State), i.wf = false → exec i s = .refused .operandRange

/-! ## What the two commands compute -/

/-- R211, R151: DECODE started on any loaded input ends, and shows exactly what the function `decode` of R151 gives. The
output buffer has no limit here (R214 (d)). -/
def Obligations.DecodeCommandComputesDecode : Prop :=
  ∀ (s s0 : State) (inp : List Byte), s.Undisturbed → s.status ≠ .busy → s.HasInput inp → s.cfg.obufCap = none →
    exec .decode s = .next s0 →
    ∃ n t, runSteps n s0 = .next t ∧ t.ShowsDecode (decodeFn s.cfg.magic inp)

/-- R212, R203: ENCODE started on any loaded input ends DONE, and shows exactly the frame the function `encode` of R203
gives. The output buffer has no limit here (R214 (c)). -/
def Obligations.EncodeCommandComputesEncode : Prop :=
  ∀ (s s0 : State) (inp : List Byte), s.Undisturbed → s.status ≠ .busy → s.HasInput inp → s.cfg.obufCap = none →
    exec .encode s = .next s0 →
    ∃ n t, runSteps n s0 = .next t ∧ t.ShowsEncode inp.length (encodeFn s.cfg.magic inp)

/-- R215: decode of encode gives the input back, for every tag, with zero reserved words. -/
def Obligations.DecodeOfEncodeIsTheInput : Prop :=
  ∀ (m : Magic) (inp : List Byte), inp.length < 2 ^ 32 →
    decodeFn m (encodeFn m inp) = .ok ⟨inp, BitVec.ofNat 32 inp.length, 0, 0⟩

/-- R202: the bounds on a frame's length; 16 is reached by the empty input alone. -/
def Obligations.FrameLengthIsBounded : Prop :=
  ∀ (m : Magic) (inp : List Byte),
    16 ≤ (encodeFn m inp).length ∧ ((encodeFn m inp).length = 16 ↔ inp = []) ∧
      (encodeFn m inp).length ≤ 16 + inp.length + (inp.length + 7) / 8

/-- R106: bytes after the last token the decoder needs change nothing. -/
def Obligations.TrailingBytesAreIgnored : Prop :=
  ∀ (m : Magic) (inp extra : List Byte) (d : Decoded), decodeFn m inp = .ok d → decodeFn m (inp ++ extra) = .ok d

/-- R103: the reserved words of a header are accepted whatever they hold, are reported, and change nothing else. -/
def Obligations.ReservedWordsAreOpaque : Prop :=
  ∀ (m : Magic) (d r0 r1 : Word32) (rest : List Byte),
    decodeFn m (m.bytes ++ bytesBe32 d ++ bytesBe32 r0 ++ bytesBe32 r1 ++ rest) =
      (decodeFn m (m.bytes ++ bytesBe32 d ++ bytesBe32 0 ++ bytesBe32 0 ++ rest)).map
        fun x => { x with rsv0 := r0, rsv1 := r1 }

/-- R104: the control bits below the last token of a frame are ignored. Here the group's first `t` tokens complete the
output, and a control byte that agrees on those bits gives the same result. -/
def Obligations.UnusedControlBitsAreIgnored : Prop :=
  ∀ (dlen : Nat) (c c' : Byte) (t : Nat) (rest out rest' out' : List Byte), t ≤ 8 →
    decodeTokens dlen (c >>> (8 - t)) t rest out = .ok (rest', out') → dlen ≤ out'.length →
    (∀ b, 8 - t ≤ b → b < 8 → c.getLsbD b = c'.getLsbD b) →
    decodeTokens dlen c 8 rest out = .ok (rest', out') ∧ decodeTokens dlen c' 8 rest out = .ok (rest', out')
end

