-- ==== Sys2Proof/Laws/Memory.lean ====
section
/-! SUPPORT. The laws of byte memories: a read after a write, the canonical form, and that it makes equal memories equal
data. -/

namespace Sys2Proof.Machine

@[simp] theorem Memory.read_nil (a : Nat) : Memory.read [] a = none := rfl

theorem Memory.read_cons (x : Nat) (v : Byte) (m : Memory) (a : Nat) :
    Memory.read ((x, v) :: m) a = if a = x then some v else Memory.read m a := rfl

/-- A read after a write: the byte written at its address, everything else as before. -/
theorem Memory.read_write (m : Memory) (a : Nat) (v : Byte) (x : Nat) :
    Memory.read (Memory.write m a v) x = if x = a then some v else Memory.read m x := by
  induction m with
  | nil => simp [Memory.write, Memory.read]
  | cons c m ih =>
    obtain ⟨y, w⟩ := c
    unfold Memory.write
    by_cases hlt : a < y
    · simp only [if_pos hlt, Memory.read_cons]
    · by_cases heq : a = y
      · subst heq
        by_cases hx : x = a <;> simp [Memory.read_cons, hx]
      · simp only [if_neg hlt, if_neg heq, Memory.read_cons, ih]
        by_cases hy : x = y
        · simp [hy, Ne.symm heq]
        · simp [hy]

@[simp] theorem Memory.read_write_same (m : Memory) (a : Nat) (v : Byte) :
    Memory.read (Memory.write m a v) a = some v := by
  simp [Memory.read_write]

theorem Memory.read_write_ne (m : Memory) {a x : Nat} (v : Byte) (h : x ≠ a) :
    Memory.read (Memory.write m a v) x = Memory.read m x := by
  simp [Memory.read_write, h]

/-- A read after a run of writes. -/
theorem Memory.read_writeList (vs : List Byte) :
    ∀ (m : Memory) (a x : Nat), Memory.read (Memory.writeList m a vs) x =
      if a ≤ x ∧ x < a + vs.length then vs[x - a]? else Memory.read m x := by
  induction vs with
  | nil =>
    intro m a x
    have h : ¬ (a ≤ x ∧ x < a + 0) := by omega
    simp only [Memory.writeList, List.length_nil, if_neg h]
  | cons v vs ih =>
    intro m a x
    simp only [Memory.writeList, List.length_cons, ih, Memory.read_write]
    by_cases hx : x = a
    · subst hx
      have h1 : ¬ (x + 1 ≤ x ∧ x < x + 1 + vs.length) := by omega
      have h2 : x ≤ x ∧ x < x + (vs.length + 1) := by omega
      simp [h2]
    · by_cases hin : a + 1 ≤ x ∧ x < a + 1 + vs.length
      · have h2 : a ≤ x ∧ x < a + (vs.length + 1) := by omega
        have h3 : x - a = (x - (a + 1)) + 1 := by omega
        rw [if_pos hin, if_pos h2, h3, List.getElem?_cons_succ]
      · have h2 : ¬ (a ≤ x ∧ x < a + (vs.length + 1)) := by omega
        rw [if_neg hin, if_neg h2, if_neg hx]

theorem Memory.read_writeList_inside (m : Memory) (a : Nat) (vs : List Byte) {x : Nat} (h : x < vs.length) :
    Memory.read (Memory.writeList m a vs) (a + x) = vs[x]? := by
  have h2 : a ≤ a + x ∧ a + x < a + vs.length := by omega
  rw [Memory.read_writeList, if_pos h2, Nat.add_sub_cancel_left]

theorem Memory.read_writeList_outside (m : Memory) (a : Nat) (vs : List Byte) {x : Nat}
    (h : x < a ∨ a + vs.length ≤ x) : Memory.read (Memory.writeList m a vs) x = Memory.read m x := by
  have h2 : ¬ (a ≤ x ∧ x < a + vs.length) := by omega
  rw [Memory.read_writeList, if_neg h2]

/-! ## The canonical form -/

@[simp] theorem Memory.wf_nil : Memory.wf [] = true := rfl

theorem Memory.wf_tail {c : Host.Cell} {m : Memory} (h : Memory.wf (c :: m) = true) : Memory.wf m = true := by
  cases m with
  | nil => rfl
  | cons d m => simp only [Memory.wf, Bool.and_eq_true] at h; exact h.2

/-- Below the first listed address nothing is listed. -/
theorem Memory.read_below {m : Memory} : ∀ {x : Nat} {v : Byte}, Memory.wf ((x, v) :: m) = true →
    ∀ {a : Nat}, a ≤ x → Memory.read m a = none := by
  induction m with
  | nil => intros; rfl
  | cons c m ih =>
    obtain ⟨y, w⟩ := c
    intro x v h a ha
    simp only [Memory.wf, Bool.and_eq_true, decide_eq_true_eq] at h
    rw [Memory.read_cons, if_neg (by omega)]
    exact ih h.2 (by omega)

theorem Memory.wf_cons_write {x : Nat} {v : Byte} {m : Memory} (h : Memory.wf ((x, v) :: m) = true) {a : Nat} (w : Byte)
    (ha : x < a) (hm : Memory.wf (Memory.write m a w) = true) : Memory.wf ((x, v) :: Memory.write m a w) = true := by
  cases m with
  | nil => simp [Memory.write, Memory.wf, ha]
  | cons c m =>
    obtain ⟨y, u⟩ := c
    simp only [Memory.wf, Bool.and_eq_true, decide_eq_true_eq] at h
    unfold Memory.write at hm ⊢
    split
    · rename_i h1
      rw [if_pos h1] at hm
      simp only [Memory.wf, Bool.and_eq_true, decide_eq_true_eq]
      exact ⟨ha, by simpa [Memory.wf] using hm⟩
    · rename_i h1
      rw [if_neg h1] at hm
      split
      · rename_i h2
        rw [if_pos h2] at hm
        simp only [Memory.wf, Bool.and_eq_true, decide_eq_true_eq]
        exact ⟨ha, hm⟩
      · rename_i h2
        rw [if_neg h2] at hm
        simp only [Memory.wf, Bool.and_eq_true, decide_eq_true_eq]
        exact ⟨h.1, hm⟩

/-- A write keeps the canonical form. -/
theorem Memory.wf_write {m : Memory} (h : Memory.wf m = true) (a : Nat) (v : Byte) :
    Memory.wf (Memory.write m a v) = true := by
  induction m with
  | nil => rfl
  | cons c m ih =>
    obtain ⟨y, w⟩ := c
    have hm := ih (Memory.wf_tail h)
    unfold Memory.write
    by_cases h1 : a < y
    · simp only [if_pos h1, Memory.wf, Bool.and_eq_true, decide_eq_true_eq]
      exact ⟨h1, h⟩
    · by_cases h2 : a = y
      · subst h2
        simp only [lt_irrefl, if_false, if_true]
        cases m with
        | nil => rfl
        | cons d m => simpa [Memory.wf] using h
      · simp only [if_neg h1, if_neg h2]
        exact Memory.wf_cons_write h v (by omega) hm

/-- A run of writes keeps the canonical form. -/
theorem Memory.wf_writeList (vs : List Byte) : ∀ {m : Memory}, Memory.wf m = true → ∀ a : Nat,
    Memory.wf (Memory.writeList m a vs) = true := by
  induction vs with
  | nil => intro m h a; exact h
  | cons v vs ih => intro m h a; exact ih (Memory.wf_write h a v) (a + 1)

/-- Memories in canonical form that read alike are the same data. -/
theorem Memory.ext_of_read {m : Memory} : ∀ {m' : Memory}, Memory.wf m = true → Memory.wf m' = true →
    (∀ a, Memory.read m a = Memory.read m' a) → m = m' := by
  induction m with
  | nil =>
    intro m' _ _ h
    cases m' with
    | nil => rfl
    | cons c m' => obtain ⟨y, w⟩ := c; simpa [Memory.read] using h y
  | cons c m ih =>
    obtain ⟨x, v⟩ := c
    intro m' hm hm' h
    cases m' with
    | nil => simpa [Memory.read] using h x
    | cons d m' =>
      obtain ⟨y, w⟩ := d
      have hxy : x = y := by
        rcases Nat.lt_trichotomy x y with hlt | heq | hgt
        · have hx := h x
          rw [Memory.read_cons, if_pos rfl, Memory.read_cons, if_neg (by omega),
            Memory.read_below hm' (by omega)] at hx
          cases hx
        · exact heq
        · have hy := h y
          rw [Memory.read_cons, if_neg (by omega), Memory.read_below hm (by omega), Memory.read_cons, if_pos rfl] at hy
          cases hy
      subst hxy
      have hv := h x
      simp only [Memory.read_cons, if_true, Option.some.injEq] at hv
      subst hv
      rw [ih (Memory.wf_tail hm) (Memory.wf_tail hm') fun a => ?_]
      by_cases ha : a ≤ x
      · rw [Memory.read_below hm ha, Memory.read_below hm' ha]
      · have := h a
        rwa [Memory.read_cons, Memory.read_cons, if_neg (by omega), if_neg (by omega)] at this

end Sys2Proof.Machine
end

