-- ==== Sys2Proof/Laws/State.lean ====
section
/-! SUPPORT. One lemma for each field of State under each named update, each true by rfl, so that no proof unfolds a record
update; and what the derived readings of State (`len`, `inputAt`, the capacities) depend on. -/

namespace Sys2Proof.Machine

/-! ## setDec -/

section
variable (s : State) (d : DecRegs)
@[simp] theorem State.setDec_cfg : (s.setDec d).cfg = s.cfg := rfl
@[simp] theorem State.setDec_rst : (s.setDec d).rst = s.rst := rfl
@[simp] theorem State.setDec_cmd : (s.setDec d).cmd = s.cmd := rfl
@[simp] theorem State.setDec_status : (s.setDec d).status = s.status := rfl
@[simp] theorem State.setDec_err : (s.setDec d).err = s.err := rfl
@[simp] theorem State.setDec_inLen : (s.setDec d).inLen = s.inLen := rfl
@[simp] theorem State.setDec_outLen : (s.setDec d).outLen = s.outLen := rfl
@[simp] theorem State.setDec_dlenR : (s.setDec d).dlenR = s.dlenR := rfl
@[simp] theorem State.setDec_rsv0 : (s.setDec d).rsv0 = s.rsv0 := rfl
@[simp] theorem State.setDec_rsv1 : (s.setDec d).rsv1 = s.rsv1 := rfl
@[simp] theorem State.setDec_phase : (s.setDec d).phase = s.phase := rfl
@[simp] theorem State.setDec_dec : (s.setDec d).dec = d := rfl
@[simp] theorem State.setDec_enc : (s.setDec d).enc = s.enc := rfl
@[simp] theorem State.setDec_grp : (s.setDec d).grp = s.grp := rfl
@[simp] theorem State.setDec_ibuf : (s.setDec d).ibuf = s.ibuf := rfl
@[simp] theorem State.setDec_obuf : (s.setDec d).obuf = s.obuf := rfl
@[simp] theorem State.setDec_ibufDraw : (s.setDec d).ibufDraw = s.ibufDraw := rfl
@[simp] theorem State.setDec_draws : (s.setDec d).draws = s.draws := rfl
@[simp] theorem State.setDec_len : (s.setDec d).len = s.len := rfl
@[simp] theorem State.setDec_inputAt (a : Nat) : (s.setDec d).inputAt a = s.inputAt a := rfl
@[simp] theorem State.setDec_obufFits (n : Nat) : (s.setDec d).obufFits n = s.obufFits n := rfl
@[simp] theorem State.setDec_ibufFits (n : Nat) : (s.setDec d).ibufFits n = s.ibufFits n := rfl
end

/-! ## setEnc -/

section
variable (s : State) (e : EncRegs)
@[simp] theorem State.setEnc_cfg : (s.setEnc e).cfg = s.cfg := rfl
@[simp] theorem State.setEnc_rst : (s.setEnc e).rst = s.rst := rfl
@[simp] theorem State.setEnc_cmd : (s.setEnc e).cmd = s.cmd := rfl
@[simp] theorem State.setEnc_status : (s.setEnc e).status = s.status := rfl
@[simp] theorem State.setEnc_err : (s.setEnc e).err = s.err := rfl
@[simp] theorem State.setEnc_inLen : (s.setEnc e).inLen = s.inLen := rfl
@[simp] theorem State.setEnc_outLen : (s.setEnc e).outLen = s.outLen := rfl
@[simp] theorem State.setEnc_dlenR : (s.setEnc e).dlenR = s.dlenR := rfl
@[simp] theorem State.setEnc_rsv0 : (s.setEnc e).rsv0 = s.rsv0 := rfl
@[simp] theorem State.setEnc_rsv1 : (s.setEnc e).rsv1 = s.rsv1 := rfl
@[simp] theorem State.setEnc_phase : (s.setEnc e).phase = s.phase := rfl
@[simp] theorem State.setEnc_dec : (s.setEnc e).dec = s.dec := rfl
@[simp] theorem State.setEnc_enc : (s.setEnc e).enc = e := rfl
@[simp] theorem State.setEnc_grp : (s.setEnc e).grp = s.grp := rfl
@[simp] theorem State.setEnc_ibuf : (s.setEnc e).ibuf = s.ibuf := rfl
@[simp] theorem State.setEnc_obuf : (s.setEnc e).obuf = s.obuf := rfl
@[simp] theorem State.setEnc_ibufDraw : (s.setEnc e).ibufDraw = s.ibufDraw := rfl
@[simp] theorem State.setEnc_draws : (s.setEnc e).draws = s.draws := rfl
@[simp] theorem State.setEnc_len : (s.setEnc e).len = s.len := rfl
@[simp] theorem State.setEnc_inputAt (a : Nat) : (s.setEnc e).inputAt a = s.inputAt a := rfl
@[simp] theorem State.setEnc_obufFits (n : Nat) : (s.setEnc e).obufFits n = s.obufFits n := rfl
@[simp] theorem State.setEnc_ibufFits (n : Nat) : (s.setEnc e).ibufFits n = s.ibufFits n := rfl
end

/-! ## setGrp -/

section
variable (s : State) (g : Group)
@[simp] theorem State.setGrp_cfg : (s.setGrp g).cfg = s.cfg := rfl
@[simp] theorem State.setGrp_rst : (s.setGrp g).rst = s.rst := rfl
@[simp] theorem State.setGrp_cmd : (s.setGrp g).cmd = s.cmd := rfl
@[simp] theorem State.setGrp_status : (s.setGrp g).status = s.status := rfl
@[simp] theorem State.setGrp_err : (s.setGrp g).err = s.err := rfl
@[simp] theorem State.setGrp_inLen : (s.setGrp g).inLen = s.inLen := rfl
@[simp] theorem State.setGrp_outLen : (s.setGrp g).outLen = s.outLen := rfl
@[simp] theorem State.setGrp_dlenR : (s.setGrp g).dlenR = s.dlenR := rfl
@[simp] theorem State.setGrp_rsv0 : (s.setGrp g).rsv0 = s.rsv0 := rfl
@[simp] theorem State.setGrp_rsv1 : (s.setGrp g).rsv1 = s.rsv1 := rfl
@[simp] theorem State.setGrp_phase : (s.setGrp g).phase = s.phase := rfl
@[simp] theorem State.setGrp_dec : (s.setGrp g).dec = s.dec := rfl
@[simp] theorem State.setGrp_enc : (s.setGrp g).enc = s.enc := rfl
@[simp] theorem State.setGrp_grp : (s.setGrp g).grp = g := rfl
@[simp] theorem State.setGrp_ibuf : (s.setGrp g).ibuf = s.ibuf := rfl
@[simp] theorem State.setGrp_obuf : (s.setGrp g).obuf = s.obuf := rfl
@[simp] theorem State.setGrp_ibufDraw : (s.setGrp g).ibufDraw = s.ibufDraw := rfl
@[simp] theorem State.setGrp_draws : (s.setGrp g).draws = s.draws := rfl
@[simp] theorem State.setGrp_len : (s.setGrp g).len = s.len := rfl
@[simp] theorem State.setGrp_inputAt (a : Nat) : (s.setGrp g).inputAt a = s.inputAt a := rfl
@[simp] theorem State.setGrp_obufFits (n : Nat) : (s.setGrp g).obufFits n = s.obufFits n := rfl
@[simp] theorem State.setGrp_ibufFits (n : Nat) : (s.setGrp g).ibufFits n = s.ibufFits n := rfl
end

/-! ## setPhase -/

section
variable (s : State) (p : Phase)
@[simp] theorem State.setPhase_cfg : (s.setPhase p).cfg = s.cfg := rfl
@[simp] theorem State.setPhase_rst : (s.setPhase p).rst = s.rst := rfl
@[simp] theorem State.setPhase_cmd : (s.setPhase p).cmd = s.cmd := rfl
@[simp] theorem State.setPhase_status : (s.setPhase p).status = s.status := rfl
@[simp] theorem State.setPhase_err : (s.setPhase p).err = s.err := rfl
@[simp] theorem State.setPhase_inLen : (s.setPhase p).inLen = s.inLen := rfl
@[simp] theorem State.setPhase_outLen : (s.setPhase p).outLen = s.outLen := rfl
@[simp] theorem State.setPhase_dlenR : (s.setPhase p).dlenR = s.dlenR := rfl
@[simp] theorem State.setPhase_rsv0 : (s.setPhase p).rsv0 = s.rsv0 := rfl
@[simp] theorem State.setPhase_rsv1 : (s.setPhase p).rsv1 = s.rsv1 := rfl
@[simp] theorem State.setPhase_phase : (s.setPhase p).phase = p := rfl
@[simp] theorem State.setPhase_dec : (s.setPhase p).dec = s.dec := rfl
@[simp] theorem State.setPhase_enc : (s.setPhase p).enc = s.enc := rfl
@[simp] theorem State.setPhase_grp : (s.setPhase p).grp = s.grp := rfl
@[simp] theorem State.setPhase_ibuf : (s.setPhase p).ibuf = s.ibuf := rfl
@[simp] theorem State.setPhase_obuf : (s.setPhase p).obuf = s.obuf := rfl
@[simp] theorem State.setPhase_ibufDraw : (s.setPhase p).ibufDraw = s.ibufDraw := rfl
@[simp] theorem State.setPhase_draws : (s.setPhase p).draws = s.draws := rfl
@[simp] theorem State.setPhase_len : (s.setPhase p).len = s.len := rfl
@[simp] theorem State.setPhase_inputAt (a : Nat) : (s.setPhase p).inputAt a = s.inputAt a := rfl
@[simp] theorem State.setPhase_obufFits (n : Nat) : (s.setPhase p).obufFits n = s.obufFits n := rfl
@[simp] theorem State.setPhase_ibufFits (n : Nat) : (s.setPhase p).ibufFits n = s.ibufFits n := rfl
end

/-! ## setObuf -/

section
variable (s : State) (m : Memory)
@[simp] theorem State.setObuf_cfg : (s.setObuf m).cfg = s.cfg := rfl
@[simp] theorem State.setObuf_rst : (s.setObuf m).rst = s.rst := rfl
@[simp] theorem State.setObuf_cmd : (s.setObuf m).cmd = s.cmd := rfl
@[simp] theorem State.setObuf_status : (s.setObuf m).status = s.status := rfl
@[simp] theorem State.setObuf_err : (s.setObuf m).err = s.err := rfl
@[simp] theorem State.setObuf_inLen : (s.setObuf m).inLen = s.inLen := rfl
@[simp] theorem State.setObuf_outLen : (s.setObuf m).outLen = s.outLen := rfl
@[simp] theorem State.setObuf_dlenR : (s.setObuf m).dlenR = s.dlenR := rfl
@[simp] theorem State.setObuf_rsv0 : (s.setObuf m).rsv0 = s.rsv0 := rfl
@[simp] theorem State.setObuf_rsv1 : (s.setObuf m).rsv1 = s.rsv1 := rfl
@[simp] theorem State.setObuf_phase : (s.setObuf m).phase = s.phase := rfl
@[simp] theorem State.setObuf_dec : (s.setObuf m).dec = s.dec := rfl
@[simp] theorem State.setObuf_enc : (s.setObuf m).enc = s.enc := rfl
@[simp] theorem State.setObuf_grp : (s.setObuf m).grp = s.grp := rfl
@[simp] theorem State.setObuf_ibuf : (s.setObuf m).ibuf = s.ibuf := rfl
@[simp] theorem State.setObuf_obuf : (s.setObuf m).obuf = m := rfl
@[simp] theorem State.setObuf_ibufDraw : (s.setObuf m).ibufDraw = s.ibufDraw := rfl
@[simp] theorem State.setObuf_draws : (s.setObuf m).draws = s.draws := rfl
@[simp] theorem State.setObuf_len : (s.setObuf m).len = s.len := rfl
@[simp] theorem State.setObuf_inputAt (a : Nat) : (s.setObuf m).inputAt a = s.inputAt a := rfl
@[simp] theorem State.setObuf_obufFits (n : Nat) : (s.setObuf m).obufFits n = s.obufFits n := rfl
@[simp] theorem State.setObuf_ibufFits (n : Nat) : (s.setObuf m).ibufFits n = s.ibufFits n := rfl
end

/-! ## bumpDraws -/

section
variable (s : State)
@[simp] theorem State.bumpDraws_cfg : s.bumpDraws.cfg = s.cfg := rfl
@[simp] theorem State.bumpDraws_rst : s.bumpDraws.rst = s.rst := rfl
@[simp] theorem State.bumpDraws_cmd : s.bumpDraws.cmd = s.cmd := rfl
@[simp] theorem State.bumpDraws_status : s.bumpDraws.status = s.status := rfl
@[simp] theorem State.bumpDraws_err : s.bumpDraws.err = s.err := rfl
@[simp] theorem State.bumpDraws_inLen : s.bumpDraws.inLen = s.inLen := rfl
@[simp] theorem State.bumpDraws_outLen : s.bumpDraws.outLen = s.outLen := rfl
@[simp] theorem State.bumpDraws_dlenR : s.bumpDraws.dlenR = s.dlenR := rfl
@[simp] theorem State.bumpDraws_rsv0 : s.bumpDraws.rsv0 = s.rsv0 := rfl
@[simp] theorem State.bumpDraws_rsv1 : s.bumpDraws.rsv1 = s.rsv1 := rfl
@[simp] theorem State.bumpDraws_phase : s.bumpDraws.phase = s.phase := rfl
@[simp] theorem State.bumpDraws_dec : s.bumpDraws.dec = s.dec := rfl
@[simp] theorem State.bumpDraws_enc : s.bumpDraws.enc = s.enc := rfl
@[simp] theorem State.bumpDraws_grp : s.bumpDraws.grp = s.grp := rfl
@[simp] theorem State.bumpDraws_ibuf : s.bumpDraws.ibuf = s.ibuf := rfl
@[simp] theorem State.bumpDraws_obuf : s.bumpDraws.obuf = s.obuf := rfl
@[simp] theorem State.bumpDraws_ibufDraw : s.bumpDraws.ibufDraw = s.ibufDraw := rfl
@[simp] theorem State.bumpDraws_draws : s.bumpDraws.draws = s.draws + 1 := rfl
@[simp] theorem State.bumpDraws_len : s.bumpDraws.len = s.len := rfl
@[simp] theorem State.bumpDraws_inputAt (a : Nat) : s.bumpDraws.inputAt a = s.inputAt a := rfl
@[simp] theorem State.bumpDraws_obufFits (n : Nat) : s.bumpDraws.obufFits n = s.obufFits n := rfl
@[simp] theorem State.bumpDraws_ibufFits (n : Nat) : s.bumpDraws.ibufFits n = s.ibufFits n := rfl
end

/-! ## cmdTaken -/

section
variable (s : State)
@[simp] theorem State.cmdTaken_cfg : s.cmdTaken.cfg = s.cfg := rfl
@[simp] theorem State.cmdTaken_rst : s.cmdTaken.rst = s.rst := rfl
@[simp] theorem State.cmdTaken_cmd : s.cmdTaken.cmd = none := rfl
@[simp] theorem State.cmdTaken_status : s.cmdTaken.status = s.status := rfl
@[simp] theorem State.cmdTaken_err : s.cmdTaken.err = s.err := rfl
@[simp] theorem State.cmdTaken_inLen : s.cmdTaken.inLen = s.inLen := rfl
@[simp] theorem State.cmdTaken_outLen : s.cmdTaken.outLen = s.outLen := rfl
@[simp] theorem State.cmdTaken_dlenR : s.cmdTaken.dlenR = s.dlenR := rfl
@[simp] theorem State.cmdTaken_rsv0 : s.cmdTaken.rsv0 = s.rsv0 := rfl
@[simp] theorem State.cmdTaken_rsv1 : s.cmdTaken.rsv1 = s.rsv1 := rfl
@[simp] theorem State.cmdTaken_phase : s.cmdTaken.phase = s.phase := rfl
@[simp] theorem State.cmdTaken_dec : s.cmdTaken.dec = s.dec := rfl
@[simp] theorem State.cmdTaken_enc : s.cmdTaken.enc = s.enc := rfl
@[simp] theorem State.cmdTaken_grp : s.cmdTaken.grp = s.grp := rfl
@[simp] theorem State.cmdTaken_ibuf : s.cmdTaken.ibuf = s.ibuf := rfl
@[simp] theorem State.cmdTaken_obuf : s.cmdTaken.obuf = s.obuf := rfl
@[simp] theorem State.cmdTaken_ibufDraw : s.cmdTaken.ibufDraw = s.ibufDraw := rfl
@[simp] theorem State.cmdTaken_draws : s.cmdTaken.draws = s.draws := rfl
@[simp] theorem State.cmdTaken_len : s.cmdTaken.len = s.len := rfl
@[simp] theorem State.cmdTaken_inputAt (a : Nat) : s.cmdTaken.inputAt a = s.inputAt a := rfl
@[simp] theorem State.cmdTaken_obufFits (n : Nat) : s.cmdTaken.obufFits n = s.obufFits n := rfl
@[simp] theorem State.cmdTaken_ibufFits (n : Nat) : s.cmdTaken.ibufFits n = s.ibufFits n := rfl
end

/-! ## takeFault -/

section
variable (s : State) (f : FaultKind)
@[simp] theorem State.takeFault_cfg : (s.takeFault f).cfg = s.cfg := rfl
@[simp] theorem State.takeFault_rst : (s.takeFault f).rst = s.rst := rfl
@[simp] theorem State.takeFault_cmd : (s.takeFault f).cmd = s.cmd := rfl
@[simp] theorem State.takeFault_status : (s.takeFault f).status = .fault := rfl
@[simp] theorem State.takeFault_err : (s.takeFault f).err = FaultKind.code f := rfl
@[simp] theorem State.takeFault_inLen : (s.takeFault f).inLen = s.inLen := rfl
@[simp] theorem State.takeFault_outLen : (s.takeFault f).outLen = 0 := rfl
@[simp] theorem State.takeFault_dlenR : (s.takeFault f).dlenR = 0 := rfl
@[simp] theorem State.takeFault_rsv0 : (s.takeFault f).rsv0 = 0 := rfl
@[simp] theorem State.takeFault_rsv1 : (s.takeFault f).rsv1 = 0 := rfl
@[simp] theorem State.takeFault_phase : (s.takeFault f).phase = .idle := rfl
@[simp] theorem State.takeFault_dec : (s.takeFault f).dec = s.dec := rfl
@[simp] theorem State.takeFault_enc : (s.takeFault f).enc = s.enc := rfl
@[simp] theorem State.takeFault_grp : (s.takeFault f).grp = s.grp := rfl
@[simp] theorem State.takeFault_ibuf : (s.takeFault f).ibuf = s.ibuf := rfl
@[simp] theorem State.takeFault_obuf : (s.takeFault f).obuf = s.obuf := rfl
@[simp] theorem State.takeFault_ibufDraw : (s.takeFault f).ibufDraw = s.ibufDraw := rfl
@[simp] theorem State.takeFault_draws : (s.takeFault f).draws = s.draws := rfl
@[simp] theorem State.takeFault_len : (s.takeFault f).len = s.len := rfl
@[simp] theorem State.takeFault_inputAt (a : Nat) : (s.takeFault f).inputAt a = s.inputAt a := rfl
@[simp] theorem State.takeFault_obufFits (n : Nat) : (s.takeFault f).obufFits n = s.obufFits n := rfl
@[simp] theorem State.takeFault_ibufFits (n : Nat) : (s.takeFault f).ibufFits n = s.ibufFits n := rfl
end

/-! ## startCommand -/

section
variable (s : State) (p : Phase)
@[simp] theorem State.startCommand_cfg : (s.startCommand p).cfg = s.cfg := rfl
@[simp] theorem State.startCommand_rst : (s.startCommand p).rst = s.rst := rfl
@[simp] theorem State.startCommand_cmd : (s.startCommand p).cmd = none := rfl
@[simp] theorem State.startCommand_status : (s.startCommand p).status = .busy := rfl
@[simp] theorem State.startCommand_err : (s.startCommand p).err = .none := rfl
@[simp] theorem State.startCommand_inLen : (s.startCommand p).inLen = s.inLen := rfl
@[simp] theorem State.startCommand_outLen : (s.startCommand p).outLen = 0 := rfl
@[simp] theorem State.startCommand_dlenR : (s.startCommand p).dlenR = 0 := rfl
@[simp] theorem State.startCommand_rsv0 : (s.startCommand p).rsv0 = 0 := rfl
@[simp] theorem State.startCommand_rsv1 : (s.startCommand p).rsv1 = 0 := rfl
@[simp] theorem State.startCommand_phase : (s.startCommand p).phase = p := rfl
@[simp] theorem State.startCommand_dec : (s.startCommand p).dec = freeDec s.draws := rfl
@[simp] theorem State.startCommand_enc : (s.startCommand p).enc = freeEnc s.draws s.enc := rfl
@[simp] theorem State.startCommand_grp : (s.startCommand p).grp = freeGrp s.draws := rfl
@[simp] theorem State.startCommand_ibuf : (s.startCommand p).ibuf = s.ibuf := rfl
@[simp] theorem State.startCommand_obuf : (s.startCommand p).obuf = s.obuf := rfl
@[simp] theorem State.startCommand_ibufDraw : (s.startCommand p).ibufDraw = s.ibufDraw := rfl
@[simp] theorem State.startCommand_draws : (s.startCommand p).draws = s.draws + 1 := rfl
@[simp] theorem State.startCommand_len : (s.startCommand p).len = s.len := rfl
@[simp] theorem State.startCommand_inputAt (a : Nat) : (s.startCommand p).inputAt a = s.inputAt a := rfl
@[simp] theorem State.startCommand_obufFits (n : Nat) : (s.startCommand p).obufFits n = s.obufFits n := rfl
@[simp] theorem State.startCommand_ibufFits (n : Nat) : (s.startCommand p).ibufFits n = s.ibufFits n := rfl
end

/-! ## completeDecode -/

section
variable (s : State)
@[simp] theorem State.completeDecode_cfg : s.completeDecode.cfg = s.cfg := rfl
@[simp] theorem State.completeDecode_rst : s.completeDecode.rst = s.rst := rfl
@[simp] theorem State.completeDecode_cmd : s.completeDecode.cmd = s.cmd := rfl
@[simp] theorem State.completeDecode_status : s.completeDecode.status = .done := rfl
@[simp] theorem State.completeDecode_err : s.completeDecode.err = s.err := rfl
@[simp] theorem State.completeDecode_inLen : s.completeDecode.inLen = s.inLen := rfl
@[simp] theorem State.completeDecode_outLen : s.completeDecode.outLen = BitVec.ofNat 64 s.dec.dlen := rfl
@[simp] theorem State.completeDecode_dlenR : s.completeDecode.dlenR = s.dlenR := rfl
@[simp] theorem State.completeDecode_rsv0 : s.completeDecode.rsv0 = s.rsv0 := rfl
@[simp] theorem State.completeDecode_rsv1 : s.completeDecode.rsv1 = s.rsv1 := rfl
@[simp] theorem State.completeDecode_phase : s.completeDecode.phase = .idle := rfl
@[simp] theorem State.completeDecode_dec : s.completeDecode.dec = s.dec := rfl
@[simp] theorem State.completeDecode_enc : s.completeDecode.enc = s.enc := rfl
@[simp] theorem State.completeDecode_grp : s.completeDecode.grp = s.grp := rfl
@[simp] theorem State.completeDecode_ibuf : s.completeDecode.ibuf = s.ibuf := rfl
@[simp] theorem State.completeDecode_obuf : s.completeDecode.obuf = s.obuf := rfl
@[simp] theorem State.completeDecode_ibufDraw : s.completeDecode.ibufDraw = s.ibufDraw := rfl
@[simp] theorem State.completeDecode_draws : s.completeDecode.draws = s.draws := rfl
@[simp] theorem State.completeDecode_len : s.completeDecode.len = s.len := rfl
@[simp] theorem State.completeDecode_inputAt (a : Nat) : s.completeDecode.inputAt a = s.inputAt a := rfl
@[simp] theorem State.completeDecode_obufFits (n : Nat) : s.completeDecode.obufFits n = s.obufFits n := rfl
@[simp] theorem State.completeDecode_ibufFits (n : Nat) : s.completeDecode.ibufFits n = s.ibufFits n := rfl
end

/-! ## packBit -/

section
variable (s : State) (c : Bool)
@[simp] theorem State.packBit_cfg : (s.packBit c).cfg = s.cfg := rfl
@[simp] theorem State.packBit_rst : (s.packBit c).rst = s.rst := rfl
@[simp] theorem State.packBit_cmd : (s.packBit c).cmd = s.cmd := rfl
@[simp] theorem State.packBit_status : (s.packBit c).status = s.status := rfl
@[simp] theorem State.packBit_err : (s.packBit c).err = s.err := rfl
@[simp] theorem State.packBit_inLen : (s.packBit c).inLen = s.inLen := rfl
@[simp] theorem State.packBit_outLen : (s.packBit c).outLen = s.outLen := rfl
@[simp] theorem State.packBit_dlenR : (s.packBit c).dlenR = s.dlenR := rfl
@[simp] theorem State.packBit_rsv0 : (s.packBit c).rsv0 = s.rsv0 := rfl
@[simp] theorem State.packBit_rsv1 : (s.packBit c).rsv1 = s.rsv1 := rfl
@[simp] theorem State.packBit_phase : (s.packBit c).phase = s.phase := rfl
@[simp] theorem State.packBit_dec : (s.packBit c).dec = s.dec := rfl
@[simp] theorem State.packBit_enc : (s.packBit c).enc = s.enc := rfl
@[simp] theorem State.packBit_grp : (s.packBit c).grp = s.grp.pack c := rfl
@[simp] theorem State.packBit_ibuf : (s.packBit c).ibuf = s.ibuf := rfl
@[simp] theorem State.packBit_obuf : (s.packBit c).obuf = s.obuf := rfl
@[simp] theorem State.packBit_ibufDraw : (s.packBit c).ibufDraw = s.ibufDraw := rfl
@[simp] theorem State.packBit_draws : (s.packBit c).draws = s.draws := rfl
@[simp] theorem State.packBit_len : (s.packBit c).len = s.len := rfl
@[simp] theorem State.packBit_inputAt (a : Nat) : (s.packBit c).inputAt a = s.inputAt a := rfl
@[simp] theorem State.packBit_obufFits (n : Nat) : (s.packBit c).obufFits n = s.obufFits n := rfl
@[simp] theorem State.packBit_ibufFits (n : Nat) : (s.packBit c).ibufFits n = s.ibufFits n := rfl
end

/-! ## withHeader -/

section
variable (s : State) (d r0 r1 : Word32)
@[simp] theorem State.withHeader_cfg : (s.withHeader d r0 r1).cfg = s.cfg := rfl
@[simp] theorem State.withHeader_rst : (s.withHeader d r0 r1).rst = s.rst := rfl
@[simp] theorem State.withHeader_cmd : (s.withHeader d r0 r1).cmd = s.cmd := rfl
@[simp] theorem State.withHeader_status : (s.withHeader d r0 r1).status = s.status := rfl
@[simp] theorem State.withHeader_err : (s.withHeader d r0 r1).err = s.err := rfl
@[simp] theorem State.withHeader_inLen : (s.withHeader d r0 r1).inLen = s.inLen := rfl
@[simp] theorem State.withHeader_outLen : (s.withHeader d r0 r1).outLen = s.outLen := rfl
@[simp] theorem State.withHeader_dlenR : (s.withHeader d r0 r1).dlenR = d := rfl
@[simp] theorem State.withHeader_rsv0 : (s.withHeader d r0 r1).rsv0 = r0 := rfl
@[simp] theorem State.withHeader_rsv1 : (s.withHeader d r0 r1).rsv1 = r1 := rfl
@[simp] theorem State.withHeader_phase : (s.withHeader d r0 r1).phase = .dGroup := rfl
@[simp] theorem State.withHeader_dec : (s.withHeader d r0 r1).dec = { s.dec with dlen := d.toNat, src := 16, pos := 0, bitsLeft := 0 } := rfl
@[simp] theorem State.withHeader_enc : (s.withHeader d r0 r1).enc = s.enc := rfl
@[simp] theorem State.withHeader_grp : (s.withHeader d r0 r1).grp = s.grp := rfl
@[simp] theorem State.withHeader_ibuf : (s.withHeader d r0 r1).ibuf = s.ibuf := rfl
@[simp] theorem State.withHeader_obuf : (s.withHeader d r0 r1).obuf = s.obuf := rfl
@[simp] theorem State.withHeader_ibufDraw : (s.withHeader d r0 r1).ibufDraw = s.ibufDraw := rfl
@[simp] theorem State.withHeader_draws : (s.withHeader d r0 r1).draws = s.draws := rfl
@[simp] theorem State.withHeader_len : (s.withHeader d r0 r1).len = s.len := rfl
@[simp] theorem State.withHeader_inputAt (a : Nat) : (s.withHeader d r0 r1).inputAt a = s.inputAt a := rfl
@[simp] theorem State.withHeader_obufFits (n : Nat) : (s.withHeader d r0 r1).obufFits n = s.obufFits n := rfl
@[simp] theorem State.withHeader_ibufFits (n : Nat) : (s.withHeader d r0 r1).ibufFits n = s.ibufFits n := rfl
end

/-! ## completeEncode -/

section
variable (s : State)
@[simp] theorem State.completeEncode_cfg : s.completeEncode.cfg = s.cfg := rfl
@[simp] theorem State.completeEncode_rst : s.completeEncode.rst = s.rst := rfl
@[simp] theorem State.completeEncode_cmd : s.completeEncode.cmd = s.cmd := rfl
@[simp] theorem State.completeEncode_status : s.completeEncode.status = .done := rfl
@[simp] theorem State.completeEncode_err : s.completeEncode.err = s.err := rfl
@[simp] theorem State.completeEncode_inLen : s.completeEncode.inLen = s.inLen := rfl
@[simp] theorem State.completeEncode_outLen : s.completeEncode.outLen = BitVec.ofNat 64 s.enc.wp := rfl
@[simp] theorem State.completeEncode_dlenR : s.completeEncode.dlenR = BitVec.ofNat 32 s.len := rfl
@[simp] theorem State.completeEncode_rsv0 : s.completeEncode.rsv0 = s.rsv0 := rfl
@[simp] theorem State.completeEncode_rsv1 : s.completeEncode.rsv1 = s.rsv1 := rfl
@[simp] theorem State.completeEncode_phase : s.completeEncode.phase = .idle := rfl
@[simp] theorem State.completeEncode_dec : s.completeEncode.dec = s.dec := rfl
@[simp] theorem State.completeEncode_enc : s.completeEncode.enc = s.enc := rfl
@[simp] theorem State.completeEncode_grp : s.completeEncode.grp = s.grp := rfl
@[simp] theorem State.completeEncode_ibuf : s.completeEncode.ibuf = s.ibuf := rfl
@[simp] theorem State.completeEncode_obuf : s.completeEncode.obuf = s.obuf := rfl
@[simp] theorem State.completeEncode_ibufDraw : s.completeEncode.ibufDraw = s.ibufDraw := rfl
@[simp] theorem State.completeEncode_draws : s.completeEncode.draws = s.draws := rfl
@[simp] theorem State.completeEncode_len : s.completeEncode.len = s.len := rfl
@[simp] theorem State.completeEncode_inputAt (a : Nat) : s.completeEncode.inputAt a = s.inputAt a := rfl
@[simp] theorem State.completeEncode_obufFits (n : Nat) : s.completeEncode.obufFits n = s.obufFits n := rfl
@[simp] theorem State.completeEncode_ibufFits (n : Nat) : s.completeEncode.ibufFits n = s.ibufFits n := rfl
end

/-! ## afterReset -/

section
variable (s : State)
@[simp] theorem State.afterReset_cfg : s.afterReset.cfg = s.cfg := rfl
@[simp] theorem State.afterReset_rst : s.afterReset.rst = false := rfl
@[simp] theorem State.afterReset_cmd : s.afterReset.cmd = none := rfl
@[simp] theorem State.afterReset_status : s.afterReset.status = .idle := rfl
@[simp] theorem State.afterReset_err : s.afterReset.err = .none := rfl
@[simp] theorem State.afterReset_inLen : s.afterReset.inLen = 0 := rfl
@[simp] theorem State.afterReset_outLen : s.afterReset.outLen = 0 := rfl
@[simp] theorem State.afterReset_dlenR : s.afterReset.dlenR = 0 := rfl
@[simp] theorem State.afterReset_rsv0 : s.afterReset.rsv0 = 0 := rfl
@[simp] theorem State.afterReset_rsv1 : s.afterReset.rsv1 = 0 := rfl
@[simp] theorem State.afterReset_phase : s.afterReset.phase = .idle := rfl
@[simp] theorem State.afterReset_dec : s.afterReset.dec = freeDec s.draws := rfl
@[simp] theorem State.afterReset_enc : s.afterReset.enc = freeEnc s.draws s.enc := rfl
@[simp] theorem State.afterReset_grp : s.afterReset.grp = freeGrp s.draws := rfl
@[simp] theorem State.afterReset_ibuf : s.afterReset.ibuf = [] := rfl
@[simp] theorem State.afterReset_obuf : s.afterReset.obuf = [] := rfl
@[simp] theorem State.afterReset_ibufDraw : s.afterReset.ibufDraw = s.draws := rfl
@[simp] theorem State.afterReset_draws : s.afterReset.draws = s.draws + 1 := rfl
@[simp] theorem State.afterReset_len : s.afterReset.len = 0 := rfl
end

/-! ## Right after reset -/

/-- Both buffers of State.reset are in canonical form; Memory.wf_write and Memory.wf_writeList keep it. -/
theorem reset_buffers_wf : Memory.wf State.reset.ibuf = true ∧ Memory.wf State.reset.obuf = true := by decide

end Sys2Proof.Machine
end

