-- ==== Sys2Proof/Laws/Ops.lean ====
section
/-! SUPPORT. What the shared operations of Machine/Ops.lean can do, said once: how an operation settles, sequencing,
writes to OBUF, reads of either buffer, and the fetched bytes. -/

namespace Sys2Proof.Machine

/-! ## settle and sequencing -/

@[simp] theorem settle_ok (s t : State) : settle s (.ok t) = .next t := rfl
@[simp] theorem settle_raise (s : State) (f : FaultKind) : settle s (.error (.raise f)) = .next (s.takeFault f) := rfl
@[simp] theorem settle_fault (s : State) (r : Fault) : settle s (.error (.fault r)) = .fault r := rfl
@[simp] theorem settle_refused (s : State) (r : Refusal) : settle s (.error (.refused r)) = .refused r := rfl

/-- An operation ends in a next state either by its own effect or by taking a fault from the state it began in. -/
theorem settle_next {s t : State} {o : Op} :
    settle s o = .next t ↔ o = .ok t ∨ ∃ f, o = .error (.raise f) ∧ t = s.takeFault f := by
  rcases o with ⟨f⟩ | u
  · cases f <;> simp [settle, eq_comm]
  · simp [settle]

theorem settle_eq_refused {s : State} {o : Op} {r : Refusal} :
    settle s o = .refused r ↔ o = .error (.refused r) := by
  rcases o with ⟨f⟩ | u
  · cases f <;> simp [settle]
  · simp [settle]

theorem settle_eq_fault {s : State} {o : Op} {r : Fault} : settle s o = .fault r ↔ o = .error (.fault r) := by
  rcases o with ⟨f⟩ | u
  · cases f <;> simp [settle]
  · simp [settle]

@[simp] theorem ok_bind {α β : Type} (a : α) (f : α → Except Stop β) : (Except.ok a >>= f) = f a := rfl
@[simp] theorem error_bind {α β : Type} (e : Stop) (f : α → Except Stop β) :
    ((Except.error e : Except Stop α) >>= f) = .error e := rfl

/-- A sequence completes exactly when both parts do. -/
theorem bind_ok {α β : Type} {x : Except Stop α} {f : α → Except Stop β} {b : β} :
    (x >>= f) = .ok b ↔ ∃ a, x = .ok a ∧ f a = .ok b := by
  cases x <;> simp

/-- A sequence stops where its first stopping part does. -/
theorem bind_error {α β : Type} {x : Except Stop α} {f : α → Except Stop β} {e : Stop} :
    (x >>= f) = .error e ↔ x = .error e ∨ ∃ a, x = .ok a ∧ f a = .error e := by
  cases x <;> simp

theorem settle_of_ok {s t : State} {o : Op} (h : o = .ok t) : settle s o = .next t := by rw [h]; rfl

/-! ## The buffers -/

/-- A run of bytes written to OBUF, as OutputHas says it. -/
theorem outputHas_of_writeList {s t : State} {a : Nat} {vs : List Byte} (h : t.obuf = Memory.writeList s.obuf a vs) :
    OutputHas s t a vs := by
  refine ⟨fun x hx => ?_, fun x hx => ?_⟩ <;> rw [h]
  · exact Memory.read_writeList_inside _ _ _ hx
  · exact Memory.read_writeList_outside _ _ _ hx

theorem capFits_mono {c : Option Nat} {n m : Nat} (h : capFits c n = true) (hm : m ≤ n) : capFits c m = true := by
  cases c with
  | none => rfl
  | some c => simp only [capFits, decide_eq_true_eq] at *; omega

theorem State.obufFits_mono {s : State} {n m : Nat} (h : s.obufFits n = true) (hm : m ≤ n) : s.obufFits m = true :=
  capFits_mono h hm

theorem State.obufFits_unlimited {s : State} (h : s.cfg.obufCap = none) (n : Nat) : s.obufFits n = true := by
  simp [State.obufFits, h, capFits]

theorem State.ibufFits_unlimited {s : State} (h : s.cfg.ibufCap = none) (n : Nat) : s.ibufFits n = true := by
  simp [State.ibufFits, h, capFits]

theorem State.len_lt (s : State) : s.len < 2 ^ 64 := s.inLen.isLt

theorem State.writeOut_of_fits {s : State} {a : Nat} {vs : List Byte} (h : s.obufFits (a + vs.length) = true) :
    s.writeOut a vs = .ok (s.setObuf (Memory.writeList s.obuf a vs)) := by
  simp [State.writeOut, h]

theorem State.writeOut_ok {s t : State} {a : Nat} {vs : List Byte} (h : s.writeOut a vs = .ok t) :
    s.obufFits (a + vs.length) = true ∧ t = s.setObuf (Memory.writeList s.obuf a vs) := by
  unfold State.writeOut at h
  split at h
  · exact ⟨‹_›, by simpa using h.symm⟩
  · cases h

theorem State.writeOut_error {s : State} {a : Nat} {vs : List Byte} {e : Stop} (h : s.writeOut a vs = .error e) :
    e = .refused .outputCapacity ∧ s.obufFits (a + vs.length) = false := by
  unfold State.writeOut at h
  split at h
  · cases h
  · rename_i hf
    exact ⟨by simpa using h.symm, by simpa using hf⟩

theorem State.inputAt_of_lt {s : State} {a : Nat} (h : a < s.len) : s.inputAt a = Memory.read s.ibuf a := by
  simp [State.inputAt, h]

theorem State.inputAt_lt {s : State} {a : Nat} {v : Byte} (h : s.inputAt a = some v) : a < s.len := by
  unfold State.inputAt at h
  split at h
  · assumption
  · cases h

theorem State.inputAt_loaded {s : State} (h : s.InputLoaded) {a : Nat} (ha : a < s.len) : ∃ v, s.inputAt a = some v := by
  rw [State.inputAt_of_lt ha]
  exact Option.isSome_iff_exists.1 (h a ha)

theorem State.inputByte_of_some {s : State} {a : Nat} {v : Byte} (h : s.inputAt a = some v) : s.inputByte a = .ok v := by
  simp [State.inputByte, h]

theorem State.inputByte_of_none {s : State} {a : Nat} (h : s.inputAt a = none) :
    s.inputByte a = .error (.fault .noInputByte) := by
  simp [State.inputByte, h]

theorem State.outputByte_of_some {s : State} {a : Nat} {v : Byte} (h : Memory.read s.obuf a = some v) :
    s.outputByte a = .ok v := by
  simp [State.outputByte, h]

/-! ## The fetched bytes -/

@[simp] theorem State.inputPrefix_zero (s : State) (a : Nat) : s.inputPrefix a 0 = [] := rfl

theorem State.inputPrefix_succ_some {s : State} {a : Nat} {v : Byte} (h : s.inputAt a = some v) (n : Nat) :
    s.inputPrefix a (n + 1) = v :: s.inputPrefix (a + 1) n := by
  simp [State.inputPrefix, h]

theorem State.inputPrefix_succ_none {s : State} {a : Nat} (h : s.inputAt a = none) (n : Nat) :
    s.inputPrefix a (n + 1) = [] := by
  simp [State.inputPrefix, h]

/-- A fetched byte is the input's byte at its address. -/
theorem State.inputAt_of_prefix {s : State} {v : Byte} (n : Nat) : ∀ {a x : Nat}, (s.inputPrefix a n)[x]? = some v →
    s.inputAt (a + x) = some v := by
  induction n with
  | zero => intro a x h; cases h
  | succ n ih =>
    intro a x h
    cases hv : s.inputAt a with
    | none => rw [State.inputPrefix_succ_none hv] at h; cases h
    | some w =>
      rw [State.inputPrefix_succ_some hv] at h
      cases x with
      | zero => rw [Nat.add_zero, hv]; exact h
      | succ x =>
        have := ih (a := a + 1) (x := x) h
        rwa [Nat.add_assoc, Nat.add_comm 1 x] at this

/-- The fetched bytes lie inside the input. -/
theorem State.inputPrefix_length (s : State) (n : Nat) : ∀ a, (s.inputPrefix a n).length ≤ n ∧
    ((s.inputPrefix a n) ≠ [] → a + (s.inputPrefix a n).length ≤ s.len) := by
  induction n with
  | zero => intro a; simp
  | succ n ih =>
    intro a
    cases h : s.inputAt a with
    | none => simp [State.inputPrefix_succ_none h]
    | some v =>
      have hlt := State.inputAt_lt h
      have := ih (a + 1)
      simp only [State.inputPrefix_succ_some h, List.length_cons]
      refine ⟨by omega, fun _ => ?_⟩
      by_cases he : s.inputPrefix (a + 1) n = []
      · simp [he]; omega
      · have := this.2 he; omega

/-! ## Runs -/

theorem hostRun_next (M : Host.Core) (n : Nat) (s t : M.State) (h : M.step s = .next t) :
    M.run (n + 1) s = M.run n t := by
  simp [Host.Core.run, h]

theorem hostRun_fault (M : Host.Core) (n : Nat) (s : M.State) (r : M.Fault) (h : M.step s = .fault r) :
    M.run (n + 1) s = .fault r := by
  simp [Host.Core.run, h]

theorem hostRun_refused (M : Host.Core) (n : Nat) (s : M.State) (r : M.Refusal) (h : M.step s = .refused r) :
    M.run (n + 1) s = .refused r := by
  simp [Host.Core.run, h]

/-- A run is the host's run of the machine. -/
theorem runSteps_eq_run (n : Nat) (s : State) : runSteps n s = Host.Core.run Sys2Proof.core n s := by
  induction n generalizing s with
  | zero => rfl
  | succ n ih =>
    rw [runSteps]
    cases h : step s with
    | next t => exact (ih t).trans (hostRun_next Sys2Proof.core n s t h).symm
    | fault r => exact (hostRun_fault Sys2Proof.core n s r h).symm
    | refused r => exact (hostRun_refused Sys2Proof.core n s r h).symm

theorem runSteps_succ {s t : State} (h : step s = .next t) (n : Nat) : runSteps (n + 1) s = runSteps n t := by
  simp [runSteps, h]

/-- Runs compose. -/
theorem runSteps_add {n m : Nat} {s t : State} (h : runSteps n s = .next t) : runSteps (n + m) s = runSteps m t := by
  induction n generalizing s with
  | zero =>
    simp only [runSteps, Host.Outcome.next.injEq] at h
    subst h
    rw [Nat.zero_add]
  | succ n ih =>
    rw [Nat.succ_add, runSteps]
    rw [runSteps] at h
    cases hs : step s with
    | next u => rw [hs] at h; exact ih h
    | fault r => rw [hs] at h; cases h
    | refused r => rw [hs] at h; cases h

end Sys2Proof.Machine
end

