-- ==== Sys2Proof/Laws/Emitter.lean ====
section
/-! SUPPORT. What the staging buffer, the packer and the payload functions do, said once (spec/43_emitter.md R193 to R198). -/

namespace Sys2Proof.Machine

/-! ## Staging -/

theorem Group.payload_length {g : Group} (h : g.len ≤ 24) : g.payload.length = g.len := by
  simp [Group.payload, h]

theorem Group.push_of_lt {g : Group} {v : Byte} (h : g.len < 24) :
    g.push v = some { g with buf := g.buf.set g.len v h, len := g.len + 1 } := by
  simp [Group.push, h]

/-- A byte staged goes behind the payload and nowhere else. -/
theorem Group.push_spec {g : Group} (v : Byte) (h : g.len < 24) :
    ∃ g', g.push v = some g' ∧ g'.ctrl = g.ctrl ∧ g'.cnt = g.cnt ∧ g'.len = g.len + 1 ∧ g'.payload = g.payload ++ [v] := by
  refine ⟨_, Group.push_of_lt h, rfl, rfl, rfl, ?_⟩
  have hl : g.len < g.buf.toList.length := by simpa using h
  simp only [Group.payload, Vector.toList_set]
  rw [List.take_add_one, List.take_set_of_le (Nat.le_refl _)]
  simp [h]

/-- Bytes staged in order: everything Group.stage does where the buffer has room. -/
theorem Group.stage_spec (vs : List Byte) : ∀ (g : Group), g.len + vs.length ≤ 24 →
    ∃ g', g.stage vs = some g' ∧ g'.ctrl = g.ctrl ∧ g'.cnt = g.cnt ∧ g'.len = g.len + vs.length ∧
      g'.payload = g.payload ++ vs := by
  induction vs with
  | nil => intro g _; exact ⟨g, rfl, rfl, rfl, rfl, by simp⟩
  | cons v vs ih =>
    intro g h
    simp only [List.length_cons] at h
    obtain ⟨g1, hp, c1, n1, l1, p1⟩ := Group.push_spec v (show g.len < 24 by omega)
    obtain ⟨g2, hs, c2, n2, l2, p2⟩ := ih g1 (by omega)
    refine ⟨g2, ?_, c2.trans c1, n2.trans n1, ?_, ?_⟩
    · simp [Group.stage, hp, hs]
    · simp only [List.length_cons]; omega
    · simp [p2, p1]

theorem State.stage_spec {s : State} {vs : List Byte} (h : s.grp.len + vs.length ≤ 24) :
    ∃ g, s.stage vs = .ok (s.setGrp g) ∧ g.ctrl = s.grp.ctrl ∧ g.cnt = s.grp.cnt ∧ g.len = s.grp.len + vs.length ∧
      g.payload = s.grp.payload ++ vs := by
  obtain ⟨g, hs, hg⟩ := Group.stage_spec vs s.grp h
  exact ⟨g, by simp [State.stage, hs], hg⟩

/-- Staging touches the group alone. -/
theorem State.stage_ok {s t : State} {vs : List Byte} (h : s.stage vs = .ok t) : t = s.setGrp t.grp := by
  unfold State.stage at h
  split at h
  · cases h; rfl
  · cases h

theorem State.stage_error {s : State} {vs : List Byte} {e : Stop} (h : s.stage vs = .error e) : e = .fault .noStageByte := by
  unfold State.stage at h
  split at h
  · cases h
  · simpa using h.symm

/-! ## The packer -/

@[simp] theorem Group.pack_cnt (g : Group) (c : Bool) : (g.pack c).cnt = g.cnt + 1 := rfl
@[simp] theorem Group.pack_len (g : Group) (c : Bool) : (g.pack c).len = g.len := rfl
@[simp] theorem Group.pack_buf (g : Group) (c : Bool) : (g.pack c).buf = g.buf := rfl
@[simp] theorem Group.pack_payload (g : Group) (c : Bool) : (g.pack c).payload = g.payload := rfl
@[simp] theorem Group.pack_false_ctrl (g : Group) : (g.pack false).ctrl = g.ctrl := rfl
@[simp] theorem Group.pack_true_ctrl (g : Group) : (g.pack true).ctrl = g.ctrl ||| (0x80#8 >>> g.cnt) := rfl
@[simp] theorem Group.cleared_ctrl (g : Group) : g.cleared.ctrl = 0 := rfl
@[simp] theorem Group.cleared_cnt (g : Group) : g.cleared.cnt = 0 := rfl
@[simp] theorem Group.cleared_len (g : Group) : g.cleared.len = 0 := rfl
@[simp] theorem Group.cleared_buf (g : Group) : g.cleared.buf = g.buf := rfl
@[simp] theorem State.packBit_eq (s : State) (c : Bool) : s.packBit c = s.setGrp (s.grp.pack c) := rfl

/-- The bit that PACK sets for token number `n` is bit `7 - n` (R197). -/
theorem packMask_getLsbD {n : Nat} (hn : n < 8) (b : Nat) : (0x80#8 >>> n).getLsbD b = decide (b = 7 - n) := by
  have h : ∀ n : Fin 8, ∀ b : Fin 8, (0x80#8 >>> n.val).getLsbD b.val = decide (b.val = 7 - n.val) := by decide
  by_cases hb : b < 8
  · exact h ⟨n, hn⟩ ⟨b, hb⟩
  · rw [BitVec.getLsbD_of_ge _ _ (by omega), eq_comm, decide_eq_false_iff_not]
    omega

theorem packMask_eq {n : Nat} (hn : n < 8) : 0x80#8 >>> n = BitVec.ofNat 8 (2 ^ (7 - n)) := by
  have h : ∀ n : Fin 8, 0x80#8 >>> n.val = BitVec.ofNat 8 (2 ^ (7 - n.val)) := by decide
  exact h ⟨n, hn⟩

/-! ## Payloads -/

theorem distanceOf_distanceField {d : Nat} (h1 : 1 ≤ d) (h2 : d ≤ 4096) : distanceOf (distanceField d) = d := by
  simp only [distanceOf, distanceField, Config.distBias, BitVec.toNat_ofNat]
  omega

theorem distanceField_toNat {d : Nat} (h2 : d ≤ 4096) : (distanceField d).toNat = d - 1 := by
  simp only [distanceField, Config.distBias, BitVec.toNat_ofNat]
  omega

theorem setWidth_extract_high (D : BitVec 12) : (D.extractLsb' 8 4).setWidth 8 = BitVec.ofNat 8 (D.toNat / 256) := by
  apply BitVec.eq_of_toNat_eq
  have := D.isLt
  simp only [BitVec.toNat_setWidth, BitVec.extractLsb'_toNat, Nat.shiftRight_eq_div_pow, BitVec.toNat_ofNat]
  omega

theorem extract_low (D : BitVec 12) : D.extractLsb' 0 8 = BitVec.ofNat 8 (D.toNat % 256) := by
  apply BitVec.eq_of_toNat_eq
  simp [BitVec.extractLsb'_toNat, Nat.shiftRight_zero]

/-- The first byte of the short form holds the length in its high nibble (R99). -/
theorem shortPayload_eq (D : BitVec 12) {l : Nat} (h1 : 3 ≤ l) (h2 : l ≤ 17) :
    shortPayload D l = [BitVec.ofNat 8 ((l - 2) * 16 + D.toNat / 256), BitVec.ofNat 8 (D.toNat % 256)] := by
  have hD := D.isLt
  simp only [shortPayload, Config.lenBias, setWidth_extract_high, extract_low, List.cons.injEq, and_true]
  apply BitVec.eq_of_toNat_eq
  have e1 : ((l - 2) % 2 ^ 8) <<< 4 % 2 ^ 8 = (l - 2) <<< 4 := by
    rw [Nat.shiftLeft_eq, Nat.shiftLeft_eq]; omega
  have e2 : D.toNat / 256 % 2 ^ 8 = D.toNat / 256 := by omega
  simp only [BitVec.toNat_or, BitVec.toNat_shiftLeft, BitVec.toNat_ofNat]
  rw [e1, e2, ← Nat.shiftLeft_add_eq_or_of_lt (by omega), Nat.shiftLeft_eq]
  omega

theorem extPayload_eq (D : BitVec 12) (l : Nat) :
    extPayload D l = [BitVec.ofNat 8 (D.toNat / 256), BitVec.ofNat 8 (D.toNat % 256), BitVec.ofNat 8 (l - 18)] := by
  simp only [extPayload, Config.extBase, setWidth_extract_high, extract_low]

@[simp] theorem shortPayload_length (D : BitVec 12) (l : Nat) : (shortPayload D l).length = 2 := rfl
@[simp] theorem extPayload_length (D : BitVec 12) (l : Nat) : (extPayload D l).length = 3 := rfl

/-- The payload in the bytes that R203 writes. -/
theorem payloadOf_eq {d l : Nat} (h1 : 3 ≤ l) (h2 : d ≤ 4096) :
    payloadOf d l =
      if l ≤ 17 then [BitVec.ofNat 8 ((l - 2) * 16 + (d - 1) / 256), BitVec.ofNat 8 ((d - 1) % 256)]
      else [BitVec.ofNat 8 ((d - 1) / 256), BitVec.ofNat 8 ((d - 1) % 256), BitVec.ofNat 8 (l - 18)] := by
  unfold payloadOf
  split
  · rw [shortPayload_eq _ h1 ‹_›, distanceField_toNat h2]
  · rw [extPayload_eq, distanceField_toNat h2]

theorem payloadOf_length (d l : Nat) : (payloadOf d l).length = if l ≤ 17 then 2 else 3 := by
  unfold payloadOf
  split <;> rfl

/-! ## The operations -/

/-- EMIT.LIT where the group has room. -/
theorem opEmitLit_spec {s : State} (v : Byte) (h : s.grp.HasRoom) :
    ∃ g, opEmitLit v s = .ok (s.setGrp g) ∧ g.ctrl = s.grp.ctrl ||| (0x80#8 >>> s.grp.cnt) ∧ g.cnt = s.grp.cnt + 1 ∧
      g.len = s.grp.len + 1 ∧ g.payload = s.grp.payload ++ [v] := by
  obtain ⟨h1, h2⟩ := h
  exact State.stage_spec (s := s.packBit true) (vs := [v]) (by simp; omega)

/-- EMIT.BREF inside its bounds, where the group has room. -/
theorem opEmitBref_spec {s : State} {d l : Nat} (h1 : 3 ≤ l) (h2 : l ≤ 273) (h3 : 1 ≤ d) (h4 : d ≤ 4096)
    (hr : s.grp.HasRoom) :
    ∃ g, opEmitBref d l s = .ok (s.setGrp g) ∧ g.ctrl = s.grp.ctrl ∧ g.cnt = s.grp.cnt + 1 ∧
      g.len = s.grp.len + (payloadOf d l).length ∧ g.payload = s.grp.payload ++ payloadOf d l := by
  have hb : brefEncodable d l = true := decide_eq_true ⟨h1, h2, h3, h4⟩
  obtain ⟨r1, r2⟩ := hr
  rw [opEmitBref, if_pos hb]
  by_cases hl : l ≤ 17
  · obtain ⟨g, hs, hg⟩ :=
      State.stage_spec (s := s.packBit false) (vs := shortPayload (distanceField d) l) (by simp; omega)
    refine ⟨g, ?_, by simpa [payloadOf, hl] using hg⟩
    rw [if_pos hl]
    exact (if_pos (And.intro h1 hl)).trans hs
  · obtain ⟨g, hs, hg⟩ :=
      State.stage_spec (s := s.packBit false) (vs := extPayload (distanceField d) l) (by simp; omega)
    refine ⟨g, ?_, by simpa [payloadOf, hl] using hg⟩
    rw [if_neg hl]
    exact (if_pos (And.intro (show 18 ≤ l by omega) h2)).trans hs

/-- FLUSH where the staged bytes exist and OBUF holds the group. -/
theorem opFlush_spec {s : State} (h1 : s.grp.len ≤ 24) (h2 : s.obufFits (s.enc.wp + 1 + s.grp.len) = true) :
    opFlush s = .ok (((s.setObuf (Memory.writeList s.obuf s.enc.wp (s.grp.ctrl :: s.grp.payload))).setEnc
      { s.enc with wp := s.enc.wp + 1 + s.grp.len }).setGrp s.grp.cleared) := by
  have hw := State.writeOut_of_fits (s := s) (a := s.enc.wp) (vs := s.grp.ctrl :: s.grp.payload)
    (by rwa [List.length_cons, Group.payload_length h1, ← Nat.add_assoc, Nat.add_right_comm])
  simp only [opFlush, Config.stageSize, h1, if_true, hw, ok_bind]

/-- The header's bytes, one by one. -/
theorem headerBytes_eq (m : Magic) (n : Nat) :
    headerBytes m n =
      [m.m0, m.m1, m.m2, m.m3, BitVec.ofNat 8 (n / 2 ^ 24), BitVec.ofNat 8 (n / 2 ^ 16), BitVec.ofNat 8 (n / 2 ^ 8),
        BitVec.ofNat 8 n, 0, 0, 0, 0, 0, 0, 0, 0] := by
  simp only [headerBytes, Magic.bytes, bytesBe32, List.cons_append, List.nil_append, List.cons.injEq, and_true, true_and]
  refine ⟨?_, ?_, ?_, ?_, ?_, ?_, ?_, ?_, ?_, ?_, ?_, ?_⟩ <;> first | rfl | skip
  all_goals apply BitVec.eq_of_toNat_eq
  all_goals simp only [BitVec.extractLsb'_toNat, Nat.shiftRight_eq_div_pow, BitVec.toNat_ofNat]
  all_goals omega

@[simp] theorem headerBytes_length (m : Magic) (n : Nat) : (headerBytes m n).length = 16 := rfl

/-- HDR.EMIT where the length can be stated and OBUF holds a header. -/
theorem opHdrEmit_spec {s : State} (h1 : s.len < 2 ^ 32) (h2 : s.obufFits 16 = true) :
    opHdrEmit s = .ok ((((s.setObuf (Memory.writeList s.obuf 0 (headerBytes s.cfg.magic s.len))).setEnc
      { s.enc with wp := 16, i := 0 }).setGrp s.grp.cleared).setPhase .eScan) := by
  have hw := State.writeOut_of_fits (s := s) (a := 0) (vs := headerBytes s.cfg.magic s.len) h2
  simp only [opHdrEmit, State.inputEncodable, h1, decide_true, if_true, hw, ok_bind]

end Sys2Proof.Machine
end

