-- ==== Sys2Proof/Laws/MatchFinder.lean ====
section
/-! SUPPORT. What the match finder computes, said once: the bounds of the window (R171), what a comparison counts (R172),
and what the scan selects (R173, R174). -/

namespace Sys2Proof.Machine

/-! ## The window -/

theorem windowLo_le (i : Nat) : windowLo i ≤ i := by
  unfold windowLo
  split <;> omega

/-- A candidate is in the window exactly when it is at most 4096 bytes back. -/
theorem windowLo_le_iff (i x : Nat) : windowLo i ≤ x ↔ i ≤ x + 4096 := by
  simp only [windowLo, Config.window]
  split <;> omega

theorem windowCap_le (n i : Nat) : windowCap n i ≤ 273 := Nat.min_le_left ..

theorem windowCap_inside {n i : Nat} (h : i ≤ n) : i + windowCap n i ≤ n := by
  have : windowCap n i ≤ n - i := Nat.min_le_right ..
  omega

theorem windowCap_cases {n i : Nat} (h : i ≤ n) : windowCap n i = 273 ∨ i + windowCap n i = n := by
  rcases Nat.le_total 273 (n - i) with hc | hc
  · exact .inl (Nat.min_eq_left hc)
  · exact .inr (by rw [show windowCap n i = n - i from Nat.min_eq_right hc]; omega)

/-! ## The comparison -/

/-- What the loop of R172 returns: a count of equal bytes that stops at the first difference or at the limit. -/
theorem matchFrom_spec {rd : Nat → Option Byte} {j i : Nat} : ∀ {f k r : Nat}, matchFrom rd j i f k = some r →
    k ≤ r ∧ r ≤ k + f ∧ (∀ x, k ≤ x → x < r → ∃ v, rd (j + x) = some v ∧ rd (i + x) = some v) ∧
      (r < k + f → ∃ a b, rd (j + r) = some a ∧ rd (i + r) = some b ∧ a ≠ b) := by
  intro f
  induction f with
  | zero =>
    intro k r h
    simp only [matchFrom, Option.some.injEq] at h
    subst h
    exact ⟨le_rfl, le_rfl, fun x h1 h2 => absurd h2 (by omega), fun h => absurd h (by omega)⟩
  | succ f ih =>
    intro k r h
    unfold matchFrom at h
    split at h
    · rename_i a b ha hb
      split at h
      · rename_i hab
        obtain ⟨h1, h2, h3, h4⟩ := ih h
        refine ⟨by omega, by omega, fun x hx hr => ?_, fun hr => h4 (by omega)⟩
        rcases Nat.eq_or_lt_of_le hx with rfl | hx
        · exact ⟨a, ha, hab ▸ hb⟩
        · exact h3 x hx hr
      · rename_i hab
        simp only [Option.some.injEq] at h
        subst h
        exact ⟨le_rfl, by omega, fun x h1 h2 => absurd h2 (by omega), fun _ => ⟨a, b, ha, hb, hab⟩⟩
    · cases h

/-- The loop completes where every byte it may need can be read. -/
theorem matchFrom_total {rd : Nat → Option Byte} {j i : Nat} : ∀ {f k : Nat},
    (∀ x, k ≤ x → x < k + f → (rd (j + x)).isSome = true ∧ (rd (i + x)).isSome = true) →
    ∃ r, matchFrom rd j i f k = some r := by
  intro f
  induction f with
  | zero => intro k _; exact ⟨k, rfl⟩
  | succ f ih =>
    intro k h
    obtain ⟨hj, hi⟩ := h k le_rfl (by omega)
    obtain ⟨a, ha⟩ := Option.isSome_iff_exists.1 hj
    obtain ⟨b, hb⟩ := Option.isSome_iff_exists.1 hi
    unfold matchFrom
    rw [ha, hb]
    by_cases hab : a = b
    · simp only [if_pos hab]
      exact ih fun x h1 h2 => h x (by omega) (by omega)
    · simp only [if_neg hab]
      exact ⟨k, rfl⟩

theorem matchLen_spec {rd : Nat → Option Byte} {cap j i r : Nat} (h : matchLen rd cap j i = some r) :
    r ≤ cap ∧ (∀ x, x < r → ∃ v, rd (j + x) = some v ∧ rd (i + x) = some v) ∧
      (r < cap → ∃ a b, rd (j + r) = some a ∧ rd (i + r) = some b ∧ a ≠ b) := by
  obtain ⟨_, h2, h3, h4⟩ := matchFrom_spec h
  exact ⟨by omega, fun x hx => h3 x (Nat.zero_le _) hx, fun hr => h4 (by omega)⟩

theorem matchLen_total {rd : Nat → Option Byte} {cap j i n : Nat} (hrd : ∀ a, a < n → (rd a).isSome = true) (hj : j ≤ i)
    (hn : i + cap ≤ n) : ∃ r, matchLen rd cap j i = some r :=
  matchFrom_total fun _ _ _ => ⟨hrd _ (by omega), hrd _ (by omega)⟩

/-! ## The selection -/

/-- `b` is R173's answer for the candidates at distances 1 to `n`: the longest match, and of the longest the nearest. -/
structure BestOf (rd : Nat → Option Byte) (cap i n : Nat) (b : Best) : Prop where
  longest : ∀ d k, 1 ≤ d → d ≤ n → matchLen rd cap (i - d) i = some k → k ≤ b.len ∧ (k = b.len → 0 < k → b.dist ≤ d)
  attained : 0 < b.len → 1 ≤ b.dist ∧ b.dist ≤ n ∧ matchLen rd cap (i - b.dist) i = some b.len
  none : b.len = 0 → b.dist = 0

theorem BestOf.start (rd : Nat → Option Byte) (cap i : Nat) : BestOf rd cap i 0 ⟨0, 0⟩ :=
  ⟨fun d _ h1 h2 => by omega, fun h => absurd h (Nat.lt_irrefl 0), fun _ => rfl⟩

theorem BestOf.next {rd : Nat → Option Byte} {cap i n k : Nat} {b : Best} (h : BestOf rd cap i n b)
    (hk : matchLen rd cap (i - (n + 1)) i = some k) : BestOf rd cap i (n + 1) (b.update k (n + 1)) := by
  unfold Best.update
  split
  · rename_i hlt
    refine ⟨fun d k' h1 h2 hd => ?_, fun _ => ⟨by simp, le_rfl, hk⟩, fun h0 => ?_⟩
    · rcases Nat.eq_or_lt_of_le h2 with rfl | h2
      · have : k' = k := by rw [hk] at hd; exact (Option.some.inj hd).symm
        exact ⟨this.le, fun _ _ => le_rfl⟩
      · have := (h.longest d k' h1 (by omega) hd).1
        exact ⟨by show k' ≤ k; omega, fun he => by simp only at he; omega⟩
    · simp only at h0; omega
  · rename_i hlt
    refine ⟨fun d k' h1 h2 hd => ?_, fun hp => ?_, h.none⟩
    · rcases Nat.eq_or_lt_of_le h2 with rfl | h2
      · have hk' : k' = k := by rw [hk] at hd; exact (Option.some.inj hd).symm
        refine ⟨by omega, fun he hp => ?_⟩
        have := (h.attained (by omega)).2.1
        omega
      · exact h.longest d k' h1 (by omega) hd
    · obtain ⟨a1, a2, a3⟩ := h.attained hp
      exact ⟨a1, by omega, a3⟩

theorem scanFrom_spec {rd : Nat → Option Byte} {cap i : Nat} : ∀ {t n : Nat} {b r : Best},
    scanFrom rd cap i t (n + 1) b = some r → BestOf rd cap i n b → BestOf rd cap i (n + t) r := by
  intro t
  induction t with
  | zero =>
    intro n b r h hb
    simp only [scanFrom, Option.some.injEq] at h
    exact h ▸ hb
  | succ t ih =>
    intro n b r h hb
    unfold scanFrom at h
    split at h
    · rename_i k hk
      have := ih h (hb.next hk)
      rwa [Nat.add_right_comm] at this
    · cases h

theorem scanFrom_total {rd : Nat → Option Byte} {cap i m : Nat} (hrd : ∀ a, a < m → (rd a).isSome = true)
    (hm : i + cap ≤ m) : ∀ {t n : Nat} {b : Best}, ∃ r, scanFrom rd cap i t n b = some r := by
  intro t
  induction t with
  | zero => intro n b; exact ⟨b, rfl⟩
  | succ t ih =>
    intro n b
    obtain ⟨k, hk⟩ := matchLen_total (j := i - n) hrd (Nat.sub_le ..) hm
    unfold scanFrom
    rw [hk]
    exact ih

/-- SELECT's answer is R173's. -/
theorem findBest_spec {rd : Nat → Option Byte} {lo cap i : Nat} {b : Best} (h : findBest rd lo cap i = some b) :
    BestOf rd cap i (i - lo) b := by
  have := scanFrom_spec (n := 0) h (BestOf.start rd cap i)
  rwa [Nat.zero_add] at this

theorem findBest_total {rd : Nat → Option Byte} {lo cap i m : Nat} (hrd : ∀ a, a < m → (rd a).isSome = true)
    (hm : i + cap ≤ m) : ∃ b, findBest rd lo cap i = some b :=
  scanFrom_total hrd hm

/-- A match taken from R171's window lies in the format's bounds and inside the input, and its bytes are equal. -/
theorem BestOf.bounds {rd : Nat → Option Byte} {n i : Nat} {b : Best} (hi : i ≤ n)
    (h : BestOf rd (windowCap n i) i (i - windowLo i) b) (hp : 0 < b.len) :
    b.len ≤ 273 ∧ 1 ≤ b.dist ∧ b.dist ≤ 4096 ∧ b.dist ≤ i ∧ i + b.len ≤ n ∧
      ∀ x, x < b.len → ∃ v, rd (i - b.dist + x) = some v ∧ rd (i + x) = some v := by
  obtain ⟨h1, h2, h3⟩ := h.attained hp
  obtain ⟨m1, m2, _⟩ := matchLen_spec h3
  have c1 := windowCap_le n i
  have c2 := windowCap_inside hi
  have l1 := (windowLo_le_iff i (windowLo i)).1 le_rfl
  have l2 := windowLo_le i
  exact ⟨by omega, h1, by omega, by omega, by omega, m2⟩

/-- The search reads nothing else, so readers that agree below `n` give the same answer. -/
theorem matchFrom_congr {rd rd' : Nat → Option Byte} {n : Nat} (h : ∀ a, a < n → rd a = rd' a) {j i : Nat} (hj : j ≤ i) :
    ∀ {f k : Nat}, i + (k + f) ≤ n → matchFrom rd j i f k = matchFrom rd' j i f k := by
  intro f
  induction f with
  | zero => intro k _; rfl
  | succ f ih =>
    intro k hn
    unfold matchFrom
    rw [h (j + k) (by omega), h (i + k) (by omega), ih (by omega)]

theorem findBest_congr {rd rd' : Nat → Option Byte} {n lo cap i : Nat} (h : ∀ a, a < n → rd a = rd' a) (hn : i + cap ≤ n) :
    findBest rd lo cap i = findBest rd' lo cap i := by
  have hs : ∀ t d b, scanFrom rd cap i t d b = scanFrom rd' cap i t d b := by
    intro t
    induction t with
    | zero => intro d b; rfl
    | succ t ih =>
      intro d b
      have hm : matchLen rd cap (i - d) i = matchLen rd' cap (i - d) i :=
        matchFrom_congr h (Nat.sub_le ..) (by omega)
      unfold scanFrom
      simp only [hm, ih]
  exact hs _ _ _

end Sys2Proof.Machine
end

