-- ==== Sys2Proof/Laws/EncodeStep.lean ====
section
/-! SUPPORT. One E.STEP, said once (spec/43_emitter.md R192): what the search and the emitter make of the position, before
the flush of a full group. -/

namespace Sys2Proof.Machine

theorem State.InputLoaded.inputAt {s : State} (h : s.InputLoaded) (a : Nat) (ha : a < s.len) :
    (s.inputAt a).isSome = true := by
  rw [State.inputAt_of_lt ha]
  exact h a ha

/-- SELECT on a state whose search has the answer `b`. -/
theorem opSelect_of_find {s : State} {b : Best} (h : findBest s.inputAt s.enc.lo s.enc.cap s.enc.i = some b) :
    opSelect s = .ok ((s.setEnc { s.enc with
      bestLen := b.len
      bestDist := b.dist
      j := Config.free s.draws .j
      k := Config.free s.draws .k }).bumpDraws) := by
  simp only [opSelect, h]

theorem opSelect_none {s : State} (h : findBest s.inputAt s.enc.lo s.enc.cap s.enc.i = none) :
    opSelect s = .error (.fault .noInputByte) := by
  simp only [opSelect, h]

theorem opWindow_of_le {s : State} (h : s.enc.i ≤ s.len) :
    opWindow s = .ok (s.setEnc { s.enc with lo := windowLo s.enc.i, cap := windowCap s.len s.enc.i }) := by
  rw [opWindow, if_neg (Nat.not_lt.2 h)]

/-- The registers the search leaves: R171's window and R173's pair, and free values in `j` and `k`. -/
def searched (s : State) (b : Best) : EncRegs :=
  { s.enc with
    lo := windowLo s.enc.i
    cap := windowCap s.len s.enc.i
    bestLen := b.len
    bestDist := b.dist
    j := Config.free s.draws .j
    k := Config.free s.draws .k }

/-- A state after the token of position `i`: the searched registers with the decision and the next position, the group
with the token, and one more draw. -/
def afterToken (s : State) (b : Best) (g : Group) (d : Decision) (i : Nat) : State :=
  ((s.setEnc { searched s b with decision := d, i := i }).setGrp g).bumpDraws

/-- The search of E.STEP, in terms of its answer. -/
theorem opEStep_search {s : State} {b : Best} (hi : s.enc.i < s.len)
    (hb : findBest s.inputAt (windowLo s.enc.i) (windowCap s.len s.enc.i) s.enc.i = some b) :
    opEStep s = (do
      let a ← opAccept (s.setEnc (searched s b)).bumpDraws
      let e ← opEmitDecision a
      opFlushIfFull e) := by
  have hd : s.scanDone = false := decide_eq_false (Nat.not_le.2 hi)
  have hw := opWindow_of_le hi.le
  have hs := opSelect_of_find
    (s := s.setEnc { s.enc with lo := windowLo s.enc.i, cap := windowCap s.len s.enc.i }) (b := b) hb
  rw [opEStep, hd, hw, ok_bind, hs, ok_bind]
  rfl

/-- What one token does to the group and the scan position: `b` is R173's answer, `bytes` the payload, R99's form of the
selected match from length 3 on and the byte at the scan position below it. -/
structure TokenOf (s : State) (b : Best) (g : Group) (i' : Nat) (bytes : List Byte) : Prop where
  find    : findBest s.inputAt (windowLo s.enc.i) (windowCap s.len s.enc.i) s.enc.i = some b
  cnt     : g.cnt = s.grp.cnt + 1
  len     : g.len = s.grp.len + bytes.length
  payload : g.payload = s.grp.payload ++ bytes
  backRef : 3 ≤ b.len → i' = s.enc.i + b.len ∧ bytes = payloadOf b.dist b.len ∧ g.ctrl = s.grp.ctrl
  literal : b.len < 3 → i' = s.enc.i + 1 ∧ (∃ v, s.inputAt s.enc.i = some v ∧ bytes = [v]) ∧
    g.ctrl = s.grp.ctrl ||| (0x80#8 >>> s.grp.cnt)

/-- A payload is 1 to 3 bytes and no longer than what it stands for; the scan stays inside the input. -/
theorem TokenOf.bounds {s : State} {b : Best} {g : Group} {i' : Nat} {bytes : List Byte} (h : TokenOf s b g i' bytes)
    (hi : s.enc.i < s.len) :
    1 ≤ bytes.length ∧ bytes.length ≤ 3 ∧ s.enc.i + bytes.length ≤ i' ∧ i' ≤ s.len := by
  by_cases hl : 3 ≤ b.len
  · obtain ⟨_, _, _, _, hn, _⟩ := (findBest_spec h.find).bounds hi.le (by omega)
    obtain ⟨h1, h2, _⟩ := h.backRef hl
    rw [h1, h2, payloadOf_length]
    split <;> omega
  · obtain ⟨h1, ⟨v, _, h2⟩, _⟩ := h.literal (by omega)
    rw [h1, h2, List.length_singleton]
    omega

/-- One token of the encode path, before the flush of a full group. -/
theorem opEStep_token {s : State} {b : Best} {v : Byte} (hi : s.enc.i < s.len) (hr : s.grp.HasRoom)
    (hb : findBest s.inputAt (windowLo s.enc.i) (windowCap s.len s.enc.i) s.enc.i = some b)
    (hv : s.inputAt s.enc.i = some v) :
    ∃ g d i' bytes, opEStep s = opFlushIfFull (afterToken s b g d i') ∧ TokenOf s b g i' bytes := by
  rw [opEStep_search hi hb]
  by_cases hl : 3 ≤ b.len
  · obtain ⟨a1, a2, a3, _, _, _⟩ := (findBest_spec hb).bounds hi.le (by omega)
    have hA : opAccept (s.setEnc (searched s b)).bumpDraws =
        .ok ((s.setEnc (searched s b)).bumpDraws.setEnc { searched s b with decision := .backRef b.dist b.len }) :=
      if_pos (decide_eq_true hl)
    obtain ⟨g, hg, g1, g2, g3, g4⟩ := opEmitBref_spec
      (s := (s.setEnc (searched s b)).bumpDraws.setEnc { searched s b with decision := .backRef b.dist b.len })
      hl a1 a2 a3 hr
    refine ⟨g, .backRef b.dist b.len, s.enc.i + b.len, payloadOf b.dist b.len, ?_, hb, g2, g3, g4,
      fun _ => ⟨rfl, rfl, g1⟩, fun h => absurd hl (by omega)⟩
    rw [hA, ok_bind]
    simp only [opEmitDecision, State.setEnc_enc, hg, ok_bind]
    rfl
  · have hA : opAccept (s.setEnc (searched s b)).bumpDraws =
        .ok ((s.setEnc (searched s b)).bumpDraws.setEnc { searched s b with decision := .literal v }) := by
      have hm : (s.setEnc (searched s b)).bumpDraws.matchAccepted = false := decide_eq_false hl
      have hb' : (s.setEnc (searched s b)).bumpDraws.inputByte (s.setEnc (searched s b)).bumpDraws.enc.i = .ok v :=
        State.inputByte_of_some hv
      rw [opAccept, hm, hb', ok_bind]
      rfl
    obtain ⟨g, hg, g1, g2, g3, g4⟩ := opEmitLit_spec
      (s := (s.setEnc (searched s b)).bumpDraws.setEnc { searched s b with decision := .literal v }) v hr
    refine ⟨g, .literal v, s.enc.i + 1, [v], ?_, hb, g2, g3, g4, fun h => absurd h hl,
      fun _ => ⟨rfl, ⟨v, hv, rfl⟩, g1⟩⟩
    rw [hA, ok_bind]
    simp only [opEmitDecision, State.setEnc_enc, hg, ok_bind]
    rfl

/-- Where the bytes of the window or the byte at the position cannot be read, E.STEP stops: it raises nothing. -/
theorem opEStep_unread {s : State} (hi : s.enc.i < s.len)
    (h : findBest s.inputAt (windowLo s.enc.i) (windowCap s.len s.enc.i) s.enc.i = none ∨ s.inputAt s.enc.i = none) :
    opEStep s = .error (.fault .noInputByte) := by
  cases hb : findBest s.inputAt (windowLo s.enc.i) (windowCap s.len s.enc.i) s.enc.i with
  | none =>
    have hd : s.scanDone = false := decide_eq_false (Nat.not_le.2 hi)
    have hs := opSelect_none
      (s := s.setEnc { s.enc with lo := windowLo s.enc.i, cap := windowCap s.len s.enc.i }) hb
    rw [opEStep, hd, opWindow_of_le hi.le, ok_bind, hs]
    rfl
  | some b =>
    have hv : s.inputAt s.enc.i = none := h.resolve_left (by rw [hb]; exact nofun)
    rw [opEStep_search hi hb]
    have hl : ¬ 3 ≤ b.len := fun hl => by
      obtain ⟨_, _, _, _, _, a6⟩ := (findBest_spec hb).bounds hi.le (by omega)
      obtain ⟨v, _, hv'⟩ := a6 0 (by omega)
      rw [Nat.add_zero, hv] at hv'
      cases hv'
    have hm : (s.setEnc (searched s b)).bumpDraws.matchAccepted = false := decide_eq_false hl
    have hb' : (s.setEnc (searched s b)).bumpDraws.inputByte (s.setEnc (searched s b)).bumpDraws.enc.i =
        .error (.fault .noInputByte) := State.inputByte_of_none hv
    rw [opAccept, hm, hb']
    rfl

/-! ## A flushed group -/

/-- The state FLUSH leaves (R198). -/
def State.flushed (s : State) : State :=
  ((s.setObuf (Memory.writeList s.obuf s.enc.wp (s.grp.ctrl :: s.grp.payload))).setEnc
    { s.enc with wp := s.enc.wp + 1 + s.grp.len }).setGrp s.grp.cleared

theorem opFlush_flushed {s : State} (h1 : s.grp.len ≤ 24) (h2 : s.obufFits (s.enc.wp + 1 + s.grp.len) = true) :
    opFlush s = .ok s.flushed := opFlush_spec h1 h2

theorem opFlush_refused {s : State} (h1 : s.grp.len ≤ 24) (h2 : ¬ s.obufFits (s.enc.wp + 1 + s.grp.len) = true) :
    opFlush s = .error (.refused .outputCapacity) := by
  have hfull : ¬ s.obufFits (s.enc.wp + (s.grp.ctrl :: s.grp.payload).length) = true := by
    rwa [List.length_cons, Group.payload_length h1, ← Nat.add_assoc, Nat.add_right_comm]
  have hw : s.writeOut s.enc.wp (s.grp.ctrl :: s.grp.payload) = .error (.refused .outputCapacity) := if_neg hfull
  rw [opFlush, if_pos h1, hw]
  rfl

/-! ## The fields of a flushed state -/

section
variable (s : State)
@[simp] theorem State.flushed_cfg : s.flushed.cfg = s.cfg := rfl
@[simp] theorem State.flushed_rst : s.flushed.rst = s.rst := rfl
@[simp] theorem State.flushed_cmd : s.flushed.cmd = s.cmd := rfl
@[simp] theorem State.flushed_status : s.flushed.status = s.status := rfl
@[simp] theorem State.flushed_err : s.flushed.err = s.err := rfl
@[simp] theorem State.flushed_inLen : s.flushed.inLen = s.inLen := rfl
@[simp] theorem State.flushed_outLen : s.flushed.outLen = s.outLen := rfl
@[simp] theorem State.flushed_dlenR : s.flushed.dlenR = s.dlenR := rfl
@[simp] theorem State.flushed_rsv0 : s.flushed.rsv0 = s.rsv0 := rfl
@[simp] theorem State.flushed_rsv1 : s.flushed.rsv1 = s.rsv1 := rfl
@[simp] theorem State.flushed_phase : s.flushed.phase = s.phase := rfl
@[simp] theorem State.flushed_dec : s.flushed.dec = s.dec := rfl
@[simp] theorem State.flushed_enc : s.flushed.enc = { s.enc with wp := s.enc.wp + 1 + s.grp.len } := rfl
@[simp] theorem State.flushed_grp : s.flushed.grp = s.grp.cleared := rfl
@[simp] theorem State.flushed_ibuf : s.flushed.ibuf = s.ibuf := rfl
@[simp] theorem State.flushed_obuf : s.flushed.obuf = Memory.writeList s.obuf s.enc.wp (s.grp.ctrl :: s.grp.payload) := rfl
@[simp] theorem State.flushed_ibufDraw : s.flushed.ibufDraw = s.ibufDraw := rfl
@[simp] theorem State.flushed_draws : s.flushed.draws = s.draws := rfl
@[simp] theorem State.flushed_len : s.flushed.len = s.len := rfl
@[simp] theorem State.flushed_inputAt (a : Nat) : s.flushed.inputAt a = s.inputAt a := rfl
@[simp] theorem State.flushed_obufFits (n : Nat) : s.flushed.obufFits n = s.obufFits n := rfl
@[simp] theorem State.flushed_ibufFits (n : Nat) : s.flushed.ibufFits n = s.ibufFits n := rfl
end

/-! ## The states between -/

section
variable (s : State) (b : Best) (g : Group) (d : Decision) (i : Nat)
@[simp] theorem afterToken_cfg : (afterToken s b g d i).cfg = s.cfg := rfl
@[simp] theorem afterToken_rst : (afterToken s b g d i).rst = s.rst := rfl
@[simp] theorem afterToken_cmd : (afterToken s b g d i).cmd = s.cmd := rfl
@[simp] theorem afterToken_status : (afterToken s b g d i).status = s.status := rfl
@[simp] theorem afterToken_err : (afterToken s b g d i).err = s.err := rfl
@[simp] theorem afterToken_inLen : (afterToken s b g d i).inLen = s.inLen := rfl
@[simp] theorem afterToken_len : (afterToken s b g d i).len = s.len := rfl
@[simp] theorem afterToken_outLen : (afterToken s b g d i).outLen = s.outLen := rfl
@[simp] theorem afterToken_dlenR : (afterToken s b g d i).dlenR = s.dlenR := rfl
@[simp] theorem afterToken_rsv0 : (afterToken s b g d i).rsv0 = s.rsv0 := rfl
@[simp] theorem afterToken_rsv1 : (afterToken s b g d i).rsv1 = s.rsv1 := rfl
@[simp] theorem afterToken_phase : (afterToken s b g d i).phase = s.phase := rfl
@[simp] theorem afterToken_dec : (afterToken s b g d i).dec = s.dec := rfl
@[simp] theorem afterToken_grp : (afterToken s b g d i).grp = g := rfl
@[simp] theorem afterToken_ibuf : (afterToken s b g d i).ibuf = s.ibuf := rfl
@[simp] theorem afterToken_obuf : (afterToken s b g d i).obuf = s.obuf := rfl
@[simp] theorem afterToken_ibufDraw : (afterToken s b g d i).ibufDraw = s.ibufDraw := rfl
@[simp] theorem afterToken_i : (afterToken s b g d i).enc.i = i := rfl
@[simp] theorem afterToken_wp : (afterToken s b g d i).enc.wp = s.enc.wp := rfl
@[simp] theorem afterToken_lo : (afterToken s b g d i).enc.lo = windowLo s.enc.i := rfl
@[simp] theorem afterToken_cap : (afterToken s b g d i).enc.cap = windowCap s.len s.enc.i := rfl
@[simp] theorem afterToken_bestLen : (afterToken s b g d i).enc.bestLen = b.len := rfl
@[simp] theorem afterToken_bestDist : (afterToken s b g d i).enc.bestDist = b.dist := rfl
@[simp] theorem afterToken_obufFits (n : Nat) : (afterToken s b g d i).obufFits n = s.obufFits n := rfl
end

end Sys2Proof.Machine
end

