-- ==== Sys2Proof/Laws/Fields.lean ====
section
/-! SUPPORT. The fields of Decode.lean as numbers, and that taking a value apart and putting it together again loses
nothing (spec/30_encoding.md R96 to R98; spec/20_memory.md R62). -/

namespace Sys2Proof

theorem highNibble_toNat (v : Byte) : (highNibble v).toNat = v.toNat / 16 := by
  have := v.isLt
  simp only [highNibble, BitVec.extractLsb'_toNat, Nat.shiftRight_eq_div_pow]
  omega

theorem lowNibble_toNat (v : Byte) : (lowNibble v).toNat = v.toNat % 16 := by
  simp only [lowNibble, BitVec.extractLsb'_toNat, Nat.shiftRight_eq_div_pow]
  omega

theorem distField_toNat (b0 b1 : Byte) : (distField b0 b1).toNat = (b0.toNat % 16) * 256 + b1.toNat := by
  have := b1.isLt
  unfold distField
  rw [BitVec.toNat_append, ← Nat.shiftLeft_add_eq_or_of_lt b1.isLt, Nat.shiftLeft_eq, lowNibble_toNat]

theorem codeByte0_toNat (n : BitVec 4) (D : BitVec 12) : (codeByte0 n D).toNat = n.toNat * 16 + D.toNat / 256 := by
  have := D.isLt
  unfold codeByte0
  rw [BitVec.toNat_append, ← Nat.shiftLeft_add_eq_or_of_lt (BitVec.isLt _), Nat.shiftLeft_eq, BitVec.extractLsb'_toNat,
    Nat.shiftRight_eq_div_pow]
  omega

theorem codeByte1_toNat (D : BitVec 12) : (codeByte1 D).toNat = D.toNat % 256 := by
  simp [codeByte1]

@[simp] theorem highNibble_codeByte0 (n : BitVec 4) (D : BitVec 12) : highNibble (codeByte0 n D) = n := by
  apply BitVec.eq_of_toNat_eq
  have := D.isLt
  rw [highNibble_toNat, codeByte0_toNat]
  omega

@[simp] theorem distField_codeBytes (n : BitVec 4) (D : BitVec 12) : distField (codeByte0 n D) (codeByte1 D) = D := by
  apply BitVec.eq_of_toNat_eq
  have := D.isLt
  rw [distField_toNat, codeByte0_toNat, codeByte1_toNat]
  omega

@[simp] theorem codeByte0_fields (b0 b1 : Byte) : codeByte0 (highNibble b0) (distField b0 b1) = b0 := by
  apply BitVec.eq_of_toNat_eq
  have := b1.isLt
  rw [codeByte0_toNat, highNibble_toNat, distField_toNat]
  omega

@[simp] theorem codeByte1_distField (b0 b1 : Byte) : codeByte1 (distField b0 b1) = b1 := by
  apply BitVec.eq_of_toNat_eq
  have := b1.isLt
  rw [codeByte1_toNat, distField_toNat]
  omega

theorem highNibble_eq_zero_iff (v : Byte) : highNibble v = 0#4 ↔ v.toNat / 16 = 0 := by
  rw [← highNibble_toNat]
  constructor
  · intro h; rw [h]; rfl
  · intro h; exact BitVec.eq_of_toNat_eq (by rw [h]; rfl)

/-! ## Header words -/

theorem be32_toNat (b0 b1 b2 b3 : Byte) :
    (be32 b0 b1 b2 b3).toNat = b0.toNat * 2 ^ 24 + b1.toNat * 2 ^ 16 + b2.toNat * 2 ^ 8 + b3.toNat := by
  unfold be32
  rw [BitVec.toNat_append, BitVec.toNat_append, BitVec.toNat_append, ← Nat.shiftLeft_add_eq_or_of_lt b1.isLt,
    ← Nat.shiftLeft_add_eq_or_of_lt b2.isLt, ← Nat.shiftLeft_add_eq_or_of_lt b3.isLt]
  simp only [Nat.shiftLeft_eq]
  omega

/-- The bytes of a word, as numbers. -/
theorem extractByte_toNat (v : Word32) (k : Nat) : (v.extractLsb' k 8).toNat = v.toNat / 2 ^ k % 256 := by
  simp [BitVec.extractLsb'_toNat, Nat.shiftRight_eq_div_pow]

@[simp] theorem be32_bytes (v : Word32) :
    be32 (v.extractLsb' 24 8) (v.extractLsb' 16 8) (v.extractLsb' 8 8) (v.extractLsb' 0 8) = v := by
  apply BitVec.eq_of_toNat_eq
  have := v.isLt
  rw [be32_toNat, extractByte_toNat, extractByte_toNat, extractByte_toNat, extractByte_toNat]
  omega

@[simp] theorem bytesBe32_be32 (b0 b1 b2 b3 : Byte) : bytesBe32 (be32 b0 b1 b2 b3) = [b0, b1, b2, b3] := by
  have h0 := b0.isLt
  have h1 := b1.isLt
  have h2 := b2.isLt
  have h3 := b3.isLt
  simp only [bytesBe32, List.cons.injEq, and_true]
  refine ⟨?_, ?_, ?_, ?_⟩ <;> apply BitVec.eq_of_toNat_eq <;> rw [extractByte_toNat, be32_toNat] <;> omega

end Sys2Proof
end

