-- ==== Sys2Proof/Laws/Fetch.lean ====
section
/-! SUPPORT. What the fetch of each object gives: the instruction, or Truncated where a byte is beyond the input
(spec/40_frame_header.md R121, spec/41_decoder.md R141 to R145). -/

namespace Sys2Proof.Machine

theorem State.inputAt_of_ge {s : State} {a : Nat} (h : s.len ≤ a) : s.inputAt a = none := by
  simp [State.inputAt, Nat.not_lt.2 h]

theorem State.fetch_of_ok {s : State} {k : FetchKind} {a : Nat} {i : Instr} {rest : List Byte}
    (h : decode s.cfg.magic k (s.inputPrefix a 16) = .ok (i, rest)) : s.fetch k a = .run i := by
  simp only [State.fetch, Config.hdrSize, h]

theorem State.fetch_of_badMagic {s : State} {k : FetchKind} {a : Nat}
    (h : decode s.cfg.magic k (s.inputPrefix a 16) = .error .badMagic) : s.fetch k a = .run (.raise .badMagic) := by
  simp only [State.fetch, Config.hdrSize, h]

theorem State.fetch_of_short {s : State} {k : FetchKind} {a need : Nat}
    (h : decode s.cfg.magic k (s.inputPrefix a 16) = .error (.short need)) :
    s.fetch k a = if s.len < a + need then .run (.raise .truncated) else .noByte := by
  simp only [State.fetch, Config.hdrSize, h]

/-! ## Single bytes -/

theorem State.fetch_control {s : State} {a : Nat} {c : Byte} (h : s.inputAt a = some c) :
    s.fetch .control a = .run (.ctrl c) :=
  State.fetch_of_ok (by rw [State.inputPrefix_succ_some h]; rfl)

theorem State.fetch_literal {s : State} {a : Nat} {v : Byte} (h : s.inputAt a = some v) :
    s.fetch (.token true) a = .run (.lit v) :=
  State.fetch_of_ok (by rw [State.inputPrefix_succ_some h]; rfl)

theorem State.fetch_control_none {s : State} {a : Nat} (h : s.inputAt a = none) :
    s.fetch .control a = if s.len < a + 1 then .run (.raise .truncated) else .noByte :=
  State.fetch_of_short (by rw [State.inputPrefix_succ_none h]; rfl)

theorem State.fetch_literal_none {s : State} {a : Nat} (h : s.inputAt a = none) :
    s.fetch (.token true) a = if s.len < a + 1 then .run (.raise .truncated) else .noByte :=
  State.fetch_of_short (by rw [State.inputPrefix_succ_none h]; rfl)

/-! ## Back-references -/

theorem State.fetch_short {s : State} {a : Nat} {b0 b1 : Byte} (h0 : s.inputAt a = some b0)
    (h1 : s.inputAt (a + 1) = some b1) (hn : highNibble b0 ≠ 0#4) :
    s.fetch (.token false) a = .run (.brefS (highNibble b0) (distField b0 b1)) :=
  State.fetch_of_ok (rest := s.inputPrefix (a + 2) 14) (by
    rw [State.inputPrefix_succ_some h0, State.inputPrefix_succ_some h1]
    exact if_neg hn)

theorem State.fetch_extended {s : State} {a : Nat} {b0 b1 e : Byte} (h0 : s.inputAt a = some b0)
    (h1 : s.inputAt (a + 1) = some b1) (h2 : s.inputAt (a + 2) = some e) (hn : highNibble b0 = 0#4) :
    s.fetch (.token false) a = .run (.brefX (distField b0 b1) e) :=
  State.fetch_of_ok (rest := s.inputPrefix (a + 3) 13) (by
    rw [State.inputPrefix_succ_some h0, State.inputPrefix_succ_some h1, State.inputPrefix_succ_some h2]
    exact if_pos hn)

theorem State.fetch_code_none {s : State} {a : Nat} (h : s.inputAt a = none ∨ s.inputAt (a + 1) = none) :
    s.fetch (.token false) a = if s.len < a + 2 then .run (.raise .truncated) else .noByte :=
  State.fetch_of_short (by
    cases h0 : s.inputAt a with
    | none => rw [State.inputPrefix_succ_none h0]; rfl
    | some b0 =>
      rw [State.inputPrefix_succ_some h0, State.inputPrefix_succ_none (h.resolve_left (by rw [h0]; exact nofun))]
      rfl)

theorem State.fetch_extra_none {s : State} {a : Nat} {b0 b1 : Byte} (h0 : s.inputAt a = some b0)
    (h1 : s.inputAt (a + 1) = some b1) (h2 : s.inputAt (a + 2) = none) (hn : highNibble b0 = 0#4) :
    s.fetch (.token false) a = if s.len < a + 3 then .run (.raise .truncated) else .noByte :=
  State.fetch_of_short (by
    rw [State.inputPrefix_succ_some h0, State.inputPrefix_succ_some h1, State.inputPrefix_succ_none h2]
    exact if_pos hn)

/-! ## Headers -/

/-- The fetched bytes end where a byte cannot be read. -/
theorem State.inputAt_after_prefix (s : State) (n : Nat) : ∀ a, (s.inputPrefix a n).length < n →
    s.inputAt (a + (s.inputPrefix a n).length) = none := by
  induction n with
  | zero => intro a h; exact absurd h (Nat.not_lt_zero _)
  | succ n ih =>
    intro a h
    cases hv : s.inputAt a with
    | none =>
      rw [State.inputPrefix_succ_none hv]
      exact hv
    | some v =>
      rw [State.inputPrefix_succ_some hv, List.length_cons] at h ⊢
      have := ih (a + 1) (by omega)
      rwa [show a + 1 + (s.inputPrefix (a + 1) n).length = a + ((s.inputPrefix (a + 1) n).length + 1) by omega] at this

theorem decodeHeader_ok {m : Magic} {bs rest : List Byte} {i : Instr} (h : decode m .header bs = .ok (i, rest)) :
    ∃ d r0 r1, i = .hdr d r0 r1 ∧ 16 ≤ bs.length ∧
      ∃ l0 l1 l2 l3, d = be32 l0 l1 l2 l3 ∧ bs[4]? = some l0 ∧ bs[5]? = some l1 ∧ bs[6]? = some l2 ∧ bs[7]? = some l3 := by
  simp only [decode] at h
  unfold decodeHeader at h
  split at h
  · split at h
    · unfold decodeHeaderWords at h
      split at h
      · simp only [Except.ok.injEq, Prod.mk.injEq] at h
        exact ⟨_, _, _, h.1.symm, by simp, _, _, _, _, rfl, rfl, rfl, rfl, rfl⟩
      · cases h
    · cases h
  · cases h

/-- The length a fetched header declares is the one its bytes 4 to 7 spell. -/
theorem State.declares_of_header {s : State} {m : Magic} {d r0 r1 : Word32} {rest : List Byte}
    (h : decode m .header (s.inputPrefix 0 16) = .ok (.hdr d r0 r1, rest)) : s.Declares d.toNat := by
  obtain ⟨_, _, _, hi, _, l0, l1, l2, l3, hd, h4, h5, h6, h7⟩ := decodeHeader_ok h
  cases hi
  subst hd
  have h4 := State.inputAt_of_prefix 16 h4
  have h5 := State.inputAt_of_prefix 16 h5
  have h6 := State.inputAt_of_prefix 16 h6
  have h7 := State.inputAt_of_prefix 16 h7
  simp only [Nat.zero_add] at h4 h5 h6 h7
  exact ⟨l0, l1, l2, l3, h4, h5, h6, h7, be32_toNat ..⟩

theorem decodeHeaderWords_short : ∀ {bs : List Byte} {r : Reject}, decodeHeaderWords bs = .error r →
    bs.length < 12 ∧ r = .short 16
  | _ :: _ :: _ :: _ :: _ :: _ :: _ :: _ :: _ :: _ :: _ :: _ :: _, _, h => by cases h
  | [], _, h | [_], _, h | [_, _], _, h | [_, _, _], _, h | [_, _, _, _], _, h | [_, _, _, _, _], _, h
  | [_, _, _, _, _, _], _, h | [_, _, _, _, _, _, _], _, h | [_, _, _, _, _, _, _, _], _, h
  | [_, _, _, _, _, _, _, _, _], _, h | [_, _, _, _, _, _, _, _, _, _], _, h
  | [_, _, _, _, _, _, _, _, _, _, _], _, h => by cases h; simp

theorem decodeHeader_short {m : Magic} : ∀ {bs : List Byte} {need : Nat}, decode m .header bs = .error (.short need) →
    bs.length < need ∧ need ≤ 16
  | b0 :: b1 :: b2 :: b3 :: rest, need, h => by
    simp only [decode, decodeHeader] at h
    split at h
    · obtain ⟨h1, h2⟩ := decodeHeaderWords_short h
      cases h2
      simp only [List.length_cons]
      omega
    · cases h
  | [], _, h | [_], _, h | [_, _], _, h | [_, _, _], _, h => by cases h; simp

/-! ## The step of a phase -/

theorem State.nextOp_of_undisturbed {s : State} (h : s.Undisturbed) : s.nextOp = s.phaseOp := by
  rw [State.nextOp, h.1, h.2]
  rfl

theorem step_of_phaseOp {s : State} (h : s.Undisturbed) {i : Instr} (hp : s.phaseOp = .run i) : step s = exec i s := by
  rw [step, State.nextOp_of_undisturbed h, hp]

theorem step_of_noByte {s : State} (h : s.Undisturbed) (hp : s.phaseOp = .noByte) : step s = .fault .noInputByte := by
  rw [step, State.nextOp_of_undisturbed h, hp]

theorem step_of_wait {s : State} (h : s.Undisturbed) (hp : s.phaseOp = .wait) : step s = .next s := by
  rw [step, State.nextOp_of_undisturbed h, hp]

end Sys2Proof.Machine
end

