-- ==== Sys2Proof/Laws/Flags.lean ====
section
/-! SUPPORT. Each condition bit of R36 as the comparison it stands for. -/

namespace Sys2Proof.Machine

variable {s : State}

theorem State.outputComplete_iff : s.outputComplete = true ↔ s.dec.dlen ≤ s.dec.pos := decide_eq_true_iff
theorem State.inputExhausted_iff : s.inputExhausted = true ↔ s.len ≤ s.dec.src := decide_eq_true_iff
theorem State.codeMissing_iff : s.codeMissing = true ↔ s.len < s.dec.src + 2 := decide_eq_true_iff
theorem State.extraMissing_iff : s.extraMissing = true ↔ s.len ≤ s.dec.src + 2 := decide_eq_true_iff
theorem State.distanceBeforeStart_iff : s.distanceBeforeStart = true ↔ s.dec.pos < s.dec.distance := decide_eq_true_iff
theorem State.lengthPastEnd_iff : s.lengthPastEnd = true ↔ s.dec.dlen < s.dec.pos + s.dec.length := decide_eq_true_iff
theorem State.matchAccepted_iff : s.matchAccepted = true ↔ 3 ≤ s.enc.bestLen := decide_eq_true_iff
theorem State.groupFull_iff : s.groupFull = true ↔ s.grp.cnt = 8 := decide_eq_true_iff
theorem State.scanDone_iff : s.scanDone = true ↔ s.len ≤ s.enc.i := decide_eq_true_iff
theorem State.inputEncodable_iff : s.inputEncodable = true ↔ s.len < 2 ^ 32 := decide_eq_true_iff

end Sys2Proof.Machine
end

