-- ==== Sys2Proof/Laws/HostPort.lean ====
section
/-! SUPPORT. What HOST's accesses do, said once (spec/10_state.md R21 to R25; spec/70_reset_and_hazards.md R262, R263): when
CORE is BUSY for HOST, and what a CMD write changes. -/

namespace Sys2Proof.Machine

variable {s : State}

theorem State.starting_iff : s.starting = true ↔ s.cmd = some 1#2 ∨ s.cmd = some 2#2 := by
  unfold State.starting
  cases s.cmd with
  | none => simp
  | some c => revert c; decide

theorem State.hostBusy_iff : s.hostBusy = true ↔ s.status = .busy ∨ s.cmd = some 1#2 ∨ s.cmd = some 2#2 := by
  rw [State.hostBusy, Bool.or_eq_true, decide_eq_true_eq, State.starting_iff]

theorem State.hostBusy_of_free (h : s.status ≠ .busy) (hc : s.cmd = none) : s.hostBusy = false := by
  simp [State.hostBusy, State.starting, h, hc]

theorem State.unlessBusy_of_busy {α : Type} {x : Except Refusal α} (h : s.hostBusy = true) :
    s.unlessBusy x = .error .hostWhileBusy := if_pos h

theorem State.unlessBusy_of_free {α : Type} {x : Except Refusal α} (h : s.hostBusy = false) : s.unlessBusy x = x :=
  if_neg (by rw [h]; exact nofun)

/-- A CMD write while BUSY has no effect; that includes every write after the one that started a command. -/
theorem State.hostWriteCmd_of_busy (h : s.hostBusy = true) (c : BitVec 2) : s.hostWriteCmd c = s := if_pos h

/-- A CMD write of 0 or 3 has no effect. -/
theorem State.hostWriteCmd_of_none {c : BitVec 2} (h : decodeCmd c = none) : s.hostWriteCmd c = s := by
  simp [State.hostWriteCmd, h]

/-- A CMD write that starts a command leaves the request, and nothing else. -/
theorem State.hostWriteCmd_of_some {c : BitVec 2} {i : Instr} (h : s.hostBusy = false) (hc : decodeCmd c = some i) :
    s.hostWriteCmd c = { s with cmd := some c } := by
  simp [State.hostWriteCmd, h, hc]

theorem State.ibufByte_of_read {a : Nat} {v : Byte} (h : Memory.read s.ibuf a = some v) : s.ibufByte a = v := by
  simp [State.ibufByte, h]

end Sys2Proof.Machine
end

