-- ==== Sys2Proof/Laws/PerInstr.lean ====
section
/-! SUPPORT. Facts about each instruction as syntax, one lemma for each constructor. -/

namespace Sys2Proof.Laws.EncodedLength

/-- The byte length of an encoded object by where it stands (spec/30_encoding.md R90): a header 16, a control byte 1, a
literal 1, a back-reference 2 or 3; an operation has no encoding (R109). -/
def Statement (i : Instr) : Prop :=
  ∀ (m : Magic) (e : List Byte), encode m i = some e →
    match i.kind with
    | some .header => e.length = 16
    | some .control => e.length = 1
    | some (.token true) => e.length = 1
    | some (.token false) => e.length = 2 ∨ e.length = 3
    | none => False

theorem hdr (d r0 r1 : Word32) : Statement (.hdr d r0 r1) := by
  intro m x h
  cases h
  rfl
theorem ctrl (c : Byte) : Statement (.ctrl c) := by
  intro m x h
  cases h
  rfl
theorem lit (v : Byte) : Statement (.lit v) := by
  intro m x h
  cases h
  rfl
theorem brefS (n : BitVec 4) (D : BitVec 12) : Statement (.brefS n D) := by
  intro m x h
  cases h
  exact .inl rfl
theorem brefX (D : BitVec 12) (e : Byte) : Statement (.brefX D e) := by
  intro m x h
  cases h
  exact .inr rfl
theorem hdrParse : Statement .hdrParse := fun _ _ h => nomatch h
theorem hdrEmit : Statement .hdrEmit := fun _ _ h => nomatch h
theorem dispatch : Statement .dispatch := fun _ _ h => nomatch h
theorem brefCheck : Statement .brefCheck := fun _ _ h => nomatch h
theorem replay : Statement .replay := fun _ _ h => nomatch h
theorem dDone : Statement .dDone := fun _ _ h => nomatch h
theorem window : Statement .window := fun _ _ h => nomatch h
theorem matchlen : Statement .matchlen := fun _ _ h => nomatch h
theorem select : Statement .select := fun _ _ h => nomatch h
theorem accept : Statement .accept := fun _ _ h => nomatch h
theorem eStep : Statement .eStep := fun _ _ h => nomatch h
theorem emitLit (v : Byte) : Statement (.emitLit v) := fun _ _ h => nomatch h
theorem emitBref (d l : Nat) : Statement (.emitBref d l) := fun _ _ h => nomatch h
theorem emitBrefS (D : BitVec 12) (l : Nat) : Statement (.emitBrefS D l) := fun _ _ h => nomatch h
theorem emitBrefX (D : BitVec 12) (l : Nat) : Statement (.emitBrefX D l) := fun _ _ h => nomatch h
theorem pack (c : Bool) : Statement (.pack c) := fun _ _ h => nomatch h
theorem flush : Statement .flush := fun _ _ h => nomatch h
theorem final : Statement .final := fun _ _ h => nomatch h
theorem eDone : Statement .eDone := fun _ _ h => nomatch h
theorem decode : Statement .decode := fun _ _ h => nomatch h
theorem encode : Statement .encode := fun _ _ h => nomatch h
theorem raise (f : FaultKind) : Statement (.raise f) := fun _ _ h => nomatch h
theorem reset : Statement .reset := fun _ _ h => nomatch h

end Sys2Proof.Laws.EncodedLength
end

