-- ==== Sys2Proof/Laws/StepCases.lean ====
section
/-! SUPPORT. Everything one step can do, said once: a next state of `step` is one of the effects below (R35's table, R210,
R239, R260). Statements about all steps go by cases on it. -/

namespace Sys2Proof.Machine

/-- The effects of one step that ends in a next state. -/
inductive Effect (s : State) : State → Prop
  | reset : s.rst = true → Effect s s.afterReset
  | dropped : s.rst = false → s.cmd ≠ none → Effect s s.cmdTaken
  | startDecode : s.rst = false → s.cmd ≠ none → s.status ≠ .busy → s.ibufFits s.len = true →
      Effect s (s.startCommand .dHdr)
  | startEncode : s.rst = false → s.cmd ≠ none → s.status ≠ .busy → s.ibufFits s.len = true → s.len < 2 ^ 32 →
      Effect s (s.startCommand .eHdr)
  | wait : s.Undisturbed → s.phase = .idle → Effect s s
  | fault (f : FaultKind) : s.Undisturbed → s.phase = .dHdr ∨ s.phase.decoding = true → f ≠ .encInternal →
      Effect s (s.takeFault f)
  | header (d r0 r1 : Word32) : s.Undisturbed → s.phase = .dHdr → 16 ≤ s.len → s.obufFits d.toNat = true →
      Effect s (s.withHeader d r0 r1)
  | decoded : s.Undisturbed → s.phase = .dGroup ∨ s.phase = .dToken → s.dec.dlen ≤ s.dec.pos → Effect s s.completeDecode
  | control (c : Byte) : s.Undisturbed → s.phase = .dGroup → s.dec.pos < s.dec.dlen → s.inputAt s.dec.src = some c →
      Effect s ((s.setDec { s.dec with ctrl := c, bitsLeft := 8, src := s.dec.src + 1 }).setPhase .dToken)
  | nextGroup : s.Undisturbed → s.phase = .dToken → s.dec.pos < s.dec.dlen → s.dec.bitsLeft = 0 →
      Effect s (s.setPhase .dGroup)
  | dispatch : s.Undisturbed → s.phase = .dToken → s.dec.pos < s.dec.dlen → s.dec.bitsLeft ≠ 0 →
      Effect s ((s.setDec { s.dec with
        cbit := topBit s.dec.ctrl
        ctrl := s.dec.ctrl <<< 1
        bitsLeft := s.dec.bitsLeft - 1 }).setPhase (tokenPhase (topBit s.dec.ctrl)))
  | literal (v : Byte) : s.Undisturbed → s.phase = .dLit → s.inputAt s.dec.src = some v →
      s.obufFits (s.dec.pos + 1) = true →
      Effect s (((s.setObuf (Memory.writeList s.obuf s.dec.pos [v])).setDec
        { s.dec with src := s.dec.src + 1, pos := s.dec.pos + 1 }).setPhase .dToken)
  | startCopy (d : DecRegs) : s.Undisturbed → s.phase = .dBref → d.dlen = s.dec.dlen → d.pos = s.dec.pos →
      d.bitsLeft = s.dec.bitsLeft → s.dec.src + 2 ≤ d.src → d.src ≤ s.dec.src + 3 → d.src ≤ s.len → 1 ≤ d.distance →
      d.distance ≤ d.pos → d.pos + d.cnt ≤ d.dlen → d.cnt ≤ 273 → Effect s ((s.setDec d).setPhase .dCopy)
  | copyByte (v : Byte) : s.Undisturbed → s.phase = .dCopy → s.dec.cnt ≠ 0 → s.dec.distance ≤ s.dec.pos →
      s.obufFits (s.dec.pos + 1) = true → Memory.read s.obuf (s.dec.pos - s.dec.distance) = some v →
      Effect s ((s.setObuf (Memory.writeList s.obuf s.dec.pos [v])).setDec
        { s.dec with pos := s.dec.pos + 1, cnt := s.dec.cnt - 1 })
  | endCopy : s.Undisturbed → s.phase = .dCopy → s.dec.cnt = 0 → Effect s (s.setPhase .dToken)
  | emitHeader : s.Undisturbed → s.phase = .eHdr → s.len < 2 ^ 32 → s.obufFits 16 = true →
      Effect s ((((s.setObuf (Memory.writeList s.obuf 0 (headerBytes s.cfg.magic s.len))).setEnc
        { s.enc with wp := 16, i := 0 }).setGrp s.grp.cleared).setPhase .eScan)
  | scanned : s.Undisturbed → s.phase = .eScan → s.len ≤ s.enc.i → Effect s (s.setPhase .eFinal)
  | token (b : Best) (g : Group) (d : Decision) (i' : Nat) (bytes : List Byte) : s.Undisturbed → s.phase = .eScan →
      s.enc.i < s.len → TokenOf s b g i' bytes → g.cnt ≠ 8 → Effect s (afterToken s b g d i')
  | fullGroup (b : Best) (g : Group) (d : Decision) (i' : Nat) (bytes : List Byte) : s.Undisturbed → s.phase = .eScan →
      s.enc.i < s.len → TokenOf s b g i' bytes → g.cnt = 8 → s.obufFits (s.enc.wp + 1 + g.len) = true →
      Effect s (afterToken s b g d i').flushed
  | encoded : s.Undisturbed → s.phase = .eFinal → s.len < 2 ^ 32 → s.grp.cnt = 0 → Effect s s.completeEncode
  | lastGroup : s.Undisturbed → s.phase = .eFinal → s.len < 2 ^ 32 → s.grp.cnt ≠ 0 → s.grp.len ≤ 24 →
      s.obufFits (s.enc.wp + 1 + s.grp.len) = true → Effect s s.flushed.completeEncode

/-- The step of this phase needs an address of OBUF that does not exist: the declared length, the byte of a literal or of a
copy, the header, a full group, the last group. -/
inductive OutputExceeds (s : State) : Prop
  | declared (d : Nat) : s.phase = .dHdr → s.Declares d → s.obufFits d = false → OutputExceeds s
  | literal : s.phase = .dLit → s.obufFits (s.dec.pos + 1) = false → OutputExceeds s
  | copyByte : s.phase = .dCopy → s.dec.cnt ≠ 0 → s.obufFits (s.dec.pos + 1) = false → OutputExceeds s
  | header : s.phase = .eHdr → s.obufFits 16 = false → OutputExceeds s
  | fullGroup (b : Best) (g : Group) (i' : Nat) (bytes : List Byte) : s.phase = .eScan → s.enc.i < s.len →
      TokenOf s b g i' bytes → g.cnt = 8 → s.obufFits (s.enc.wp + 1 + g.len) = false → OutputExceeds s
  | lastGroup : s.phase = .eFinal → s.grp.cnt ≠ 0 → s.obufFits (s.enc.wp + 1 + s.grp.len) = false → OutputExceeds s

/-- What a step can end in. -/
inductive Ends (s : State) : Host.Outcome State Fault Refusal → Prop
  | next {t : State} : Effect s t → Ends s (.next t)
  | unread : (∃ a, a < s.len ∧ s.inputAt a = none) → Ends s (.fault .noInputByte)
  | noSource : s.Undisturbed → s.phase = .dCopy → s.dec.cnt ≠ 0 → s.dec.pos < s.dec.distance →
      Ends s (.fault .noOutputAddress)
  | unwritten : s.Undisturbed → s.phase = .dCopy → s.dec.cnt ≠ 0 →
      Memory.read s.obuf (s.dec.pos - s.dec.distance) = none → Ends s (.fault .noOutputByte)
  | inputCapacity : s.rst = false → s.cmd = some 1#2 ∨ s.cmd = some 2#2 → s.status ≠ .busy → s.ibufFits s.len = false →
      Ends s (.refused .inputCapacity)
  | startTooLong : s.rst = false → s.cmd = some 2#2 → s.status ≠ .busy → 2 ^ 32 ≤ s.len → Ends s (.refused .inputTooLong)
  | inputTooLong : s.Undisturbed → s.phase = .eHdr ∨ s.phase = .eFinal → 2 ^ 32 ≤ s.len → Ends s (.refused .inputTooLong)
  | outputCapacity : s.Undisturbed → OutputExceeds s → Ends s (.refused .outputCapacity)

/-! ## The phases -/

theorem ends_header {s : State} (hu : s.Undisturbed) (hp : s.phase = .dHdr) : Ends s (step s) := by
  have hph : s.phaseOp = s.fetch .header 0 := by rw [State.phaseOp, hp]
  have hlen := (State.inputPrefix_length s 16 0).1
  have hnone : (s.inputPrefix 0 16).length < 16 → (s.inputPrefix 0 16).length < s.len →
      ∃ a, a < s.len ∧ s.inputAt a = none := fun h1 h2 =>
    ⟨_, h2, by simpa using State.inputAt_after_prefix s 16 0 h1⟩
  cases hd : decode s.cfg.magic .header (s.inputPrefix 0 16) with
  | error r =>
    cases r with
    | badMagic =>
      rw [step_of_phaseOp hu (hph.trans (State.fetch_of_badMagic hd))]
      exact .next (.fault .badMagic hu (.inl hp) nofun)
    | short need =>
      have hf := hph.trans (State.fetch_of_short hd)
      by_cases hl : s.len < 0 + need
      · rw [if_pos hl] at hf
        rw [step_of_phaseOp hu hf]
        exact .next (.fault .truncated hu (.inl hp) nofun)
      · rw [if_neg hl] at hf
        rw [step_of_noByte hu hf]
        have := decodeHeader_short hd
        exact .unread (hnone (by omega) (by omega))
  | ok p =>
    obtain ⟨i, rest⟩ := p
    rw [step_of_phaseOp hu (hph.trans (State.fetch_of_ok hd))]
    obtain ⟨d, r0, r1, rfl, h16, _⟩ := decodeHeader_ok hd
    have hl : 16 ≤ s.len := by
      have := (State.inputPrefix_length s 16 0).2 (by intro h; rw [h] at h16; exact absurd h16 (by simp))
      omega
    by_cases hf : s.obufFits d.toNat = true
    · have ho : opHdr d r0 r1 s = .ok (s.withHeader d r0 r1) := by
        rw [opHdr, if_neg (Nat.not_lt.2 hl), headerParsed, if_pos hf]
      show Ends s (settle s (opHdr d r0 r1 s))
      rw [ho]
      exact .next (.header d r0 r1 hu hp hl hf)
    · have ho : opHdr d r0 r1 s = .error (.refused .outputCapacity) := by
        rw [opHdr, if_neg (Nat.not_lt.2 hl), headerParsed, if_neg hf]
      show Ends s (settle s (opHdr d r0 r1 s))
      rw [ho]
      exact .outputCapacity hu (.declared _ hp (State.declares_of_header hd) (by simpa using hf))

theorem ends_group {s : State} (hu : s.Undisturbed) (hp : s.phase = .dGroup) : Ends s (step s) := by
  have hdec : s.phase = .dHdr ∨ s.phase.decoding = true := .inr (by rw [hp]; rfl)
  by_cases hc : s.dec.dlen ≤ s.dec.pos
  · have hph : s.phaseOp = .run .dDone := by
      rw [State.phaseOp, hp]
      exact if_pos (State.outputComplete_iff.2 hc)
    rw [step_of_phaseOp hu hph]
    exact .next (.decoded hu (.inl hp) hc)
  · have hph : s.phaseOp = s.fetch .control s.dec.src := by
      rw [State.phaseOp, hp]
      exact if_neg (mt State.outputComplete_iff.1 hc)
    cases hi : s.inputAt s.dec.src with
    | none =>
      have hf := hph.trans (State.fetch_control_none hi)
      by_cases hl : s.len < s.dec.src + 1
      · rw [if_pos hl] at hf
        rw [step_of_phaseOp hu hf]
        exact .next (.fault .truncated hu hdec nofun)
      · rw [if_neg hl] at hf
        rw [step_of_noByte hu hf]
        exact .unread ⟨_, by omega, hi⟩
    | some c =>
      rw [step_of_phaseOp hu (hph.trans (State.fetch_control hi))]
      have hl := State.inputAt_lt hi
      have ho : opCtrl c s =
          .ok ((s.setDec { s.dec with ctrl := c, bitsLeft := 8, src := s.dec.src + 1 }).setPhase .dToken) := by
        rw [opCtrl, if_neg (mt State.outputComplete_iff.1 hc),
          if_neg (mt State.inputExhausted_iff.1 (Nat.not_le.2 hl))]
      show Ends s (settle s (opCtrl c s))
      rw [ho]
      exact .next (.control c hu hp (by omega) hi)

theorem ends_token {s : State} (hu : s.Undisturbed) (hp : s.phase = .dToken) : Ends s (step s) := by
  rw [step_of_phaseOp (i := .dispatch) hu (by rw [State.phaseOp, hp])]
  show Ends s (settle s (opDispatch s))
  by_cases hc : s.dec.dlen ≤ s.dec.pos
  · have ho : opDispatch s = .ok s.completeDecode := if_pos (State.outputComplete_iff.2 hc)
    rw [ho]
    exact .next (.decoded hu (.inr hp) hc)
  · have hc' : ¬ s.outputComplete = true := mt State.outputComplete_iff.1 hc
    rw [opDispatch, if_neg hc']
    by_cases hb : s.dec.bitsLeft = 0
    · rw [if_pos hb]
      exact .next (.nextGroup hu hp (by omega) hb)
    · rw [if_neg hb]
      exact .next (.dispatch hu hp (by omega) hb)

theorem ends_literal {s : State} (hu : s.Undisturbed) (hp : s.phase = .dLit) : Ends s (step s) := by
  have hdec : s.phase = .dHdr ∨ s.phase.decoding = true := .inr (by rw [hp]; rfl)
  have hph : s.phaseOp = s.fetch (.token true) s.dec.src := by rw [State.phaseOp, hp]
  cases hi : s.inputAt s.dec.src with
  | none =>
    have hf := hph.trans (State.fetch_literal_none hi)
    by_cases hl : s.len < s.dec.src + 1
    · rw [if_pos hl] at hf
      rw [step_of_phaseOp hu hf]
      exact .next (.fault .truncated hu hdec nofun)
    · rw [if_neg hl] at hf
      rw [step_of_noByte hu hf]
      exact .unread ⟨_, by omega, hi⟩
  | some v =>
    rw [step_of_phaseOp hu (hph.trans (State.fetch_literal hi))]
    have hl := State.inputAt_lt hi
    show Ends s (settle s (opLit v s))
    rw [opLit, if_neg (mt State.inputExhausted_iff.1 (Nat.not_le.2 hl))]
    by_cases hf : s.obufFits (s.dec.pos + 1) = true
    · rw [State.writeOut_of_fits (vs := [v]) hf]
      exact .next (.literal v hu hp hi hf)
    · have hw : s.writeOut s.dec.pos [v] = .error (.refused .outputCapacity) := if_neg hf
      rw [hw]
      exact .outputCapacity hu (.literal hp (by simpa using hf))

/-- BREF.CHECK on latched operands: a fault, or the copy starts inside the output. -/
theorem ends_brefCheck {s : State} {d : DecRegs} (hu : s.Undisturbed) (hp : s.phase = .dBref) (h1 : d.dlen = s.dec.dlen)
    (h2 : d.pos = s.dec.pos) (h3 : d.bitsLeft = s.dec.bitsLeft) (h4 : s.dec.src + 2 ≤ d.src) (h5 : d.src ≤ s.dec.src + 3)
    (h6 : d.src ≤ s.len) (h7 : 1 ≤ d.distance) (h8 : d.length ≤ 273) :
    Ends s (settle s (opBrefCheck (s.setDec d))) := by
  have hdec : s.phase = .dHdr ∨ s.phase.decoding = true := .inr (by rw [hp]; rfl)
  unfold opBrefCheck
  by_cases hd : d.pos < d.distance
  · rw [if_pos (State.distanceBeforeStart_iff.2 hd)]
    exact .next (.fault .invalidDistance hu hdec nofun)
  · rw [if_neg (mt State.distanceBeforeStart_iff.1 hd)]
    by_cases hl : d.dlen < d.pos + d.length
    · rw [if_pos (State.lengthPastEnd_iff.2 hl)]
      exact .next (.fault .lengthOverrun hu hdec nofun)
    · rw [if_neg (mt State.lengthPastEnd_iff.1 hl)]
      exact .next (.startCopy { d with cnt := d.length } hu hp h1 h2 h3 h4 h5 h6 h7 (by simpa using hd) (by simpa using hl) h8)

theorem ends_backRef {s : State} (hu : s.Undisturbed) (hp : s.phase = .dBref) : Ends s (step s) := by
  have hdec : s.phase = .dHdr ∨ s.phase.decoding = true := .inr (by rw [hp]; rfl)
  have hph : s.phaseOp = s.fetch (.token false) s.dec.src := by rw [State.phaseOp, hp]
  have hcode : s.inputAt s.dec.src = none ∨ s.inputAt (s.dec.src + 1) = none → Ends s (step s) := fun hn => by
    have hf := hph.trans (State.fetch_code_none hn)
    by_cases hl : s.len < s.dec.src + 2
    · rw [if_pos hl] at hf
      rw [step_of_phaseOp hu hf]
      exact .next (.fault .truncated hu hdec nofun)
    · rw [if_neg hl] at hf
      rw [step_of_noByte hu hf]
      exact .unread (hn.elim (fun h => ⟨_, by omega, h⟩) fun h => ⟨_, by omega, h⟩)
  cases h0 : s.inputAt s.dec.src with
  | none => exact hcode (.inl h0)
  | some b0 =>
    cases h1 : s.inputAt (s.dec.src + 1) with
    | none => exact hcode (.inr h1)
    | some b1 =>
      have l1 := State.inputAt_lt h1
      by_cases hn : highNibble b0 = 0#4
      · cases h2 : s.inputAt (s.dec.src + 2) with
        | none =>
          have hf := hph.trans (State.fetch_extra_none h0 h1 h2 hn)
          by_cases hl : s.len < s.dec.src + 3
          · rw [if_pos hl] at hf
            rw [step_of_phaseOp hu hf]
            exact .next (.fault .truncated hu hdec nofun)
          · rw [if_neg hl] at hf
            rw [step_of_noByte hu hf]
            exact .unread ⟨_, by omega, h2⟩
        | some e =>
          have l2 := State.inputAt_lt h2
          rw [step_of_phaseOp hu (hph.trans (State.fetch_extended h0 h1 h2 hn))]
          show Ends s (settle s (opBrefX (distField b0 b1) e s))
          rw [opBrefX, if_neg (mt State.codeMissing_iff.1 (by omega)), if_neg (mt State.extraMissing_iff.1 (by omega))]
          have he := e.isLt
          exact ends_brefCheck hu hp rfl rfl rfl (by simp) le_rfl l2 (Nat.le_add_left ..)
            (by show e.toNat + 18 ≤ 273; omega)
      · rw [step_of_phaseOp hu (hph.trans (State.fetch_short h0 h1 hn))]
        show Ends s (settle s (opBrefS (highNibble b0) (distField b0 b1) s))
        rw [opBrefS, if_neg hn, if_neg (mt State.codeMissing_iff.1 (by omega))]
        have hN := (highNibble b0).isLt
        exact ends_brefCheck hu hp rfl rfl rfl le_rfl (by simp) l1 (Nat.le_add_left ..)
          (by show (highNibble b0).toNat + 2 ≤ 273; omega)

theorem ends_copy {s : State} (hu : s.Undisturbed) (hp : s.phase = .dCopy) : Ends s (step s) := by
  rw [step_of_phaseOp (i := .replay) hu (by rw [State.phaseOp, hp])]
  show Ends s (settle s (opReplay s))
  unfold opReplay
  by_cases hc : s.dec.cnt = 0
  · rw [if_pos hc]
    exact .next (.endCopy hu hp hc)
  · rw [if_neg hc]
    by_cases hd : s.dec.pos < s.dec.distance
    · rw [if_pos (State.distanceBeforeStart_iff.2 hd)]
      exact .noSource hu hp hc hd
    · rw [if_neg (mt State.distanceBeforeStart_iff.1 hd)]
      cases hr : Memory.read s.obuf (s.dec.pos - s.dec.distance) with
      | none =>
        have ho : s.outputByte (s.dec.pos - s.dec.distance) = .error (.fault .noOutputByte) := by
          rw [State.outputByte, hr]
        rw [ho]
        exact .unwritten hu hp hc hr
      | some v =>
        rw [State.outputByte_of_some hr, ok_bind]
        by_cases hf : s.obufFits (s.dec.pos + 1) = true
        · rw [State.writeOut_of_fits (vs := [v]) hf]
          exact .next (.copyByte v hu hp hc (by omega) hf hr)
        · have hw : s.writeOut s.dec.pos [v] = .error (.refused .outputCapacity) := if_neg hf
          rw [hw]
          exact .outputCapacity hu (.copyByte hp hc (by simpa using hf))

theorem ends_emitHeader {s : State} (hu : s.Undisturbed) (hp : s.phase = .eHdr) : Ends s (step s) := by
  rw [step_of_phaseOp (i := .hdrEmit) hu (by rw [State.phaseOp, hp])]
  show Ends s (settle s (opHdrEmit s))
  by_cases hl : s.len < 2 ^ 32
  · by_cases hf : s.obufFits 16 = true
    · rw [opHdrEmit_spec hl hf]
      exact .next (.emitHeader hu hp hl hf)
    · have hw : s.writeOut 0 (headerBytes s.cfg.magic s.len) = .error (.refused .outputCapacity) := if_neg hf
      rw [opHdrEmit, if_pos (State.inputEncodable_iff.2 hl), hw]
      exact .outputCapacity hu (.header hp (by simpa using hf))
  · rw [opHdrEmit, if_neg (mt State.inputEncodable_iff.1 hl)]
    exact .inputTooLong hu (.inl hp) (by omega)

theorem ends_scan {s : State} (hu : s.Undisturbed) (hp : s.phase = .eScan) (hr : s.grp.HasRoom) : Ends s (step s) := by
  rw [step_of_phaseOp (i := .eStep) hu (by rw [State.phaseOp, hp])]
  show Ends s (settle s (opEStep s))
  by_cases hi : s.len ≤ s.enc.i
  · rw [opEStep, if_pos (State.scanDone_iff.2 hi)]
    exact .next (.scanned hu hp hi)
  · have hi : s.enc.i < s.len := by omega
    cases hb : findBest s.inputAt (windowLo s.enc.i) (windowCap s.len s.enc.i) s.enc.i with
    | none =>
      rw [opEStep_unread hi (.inl hb)]
      refine .unread ?_
      by_contra hn
      have hl : ∀ a, a < s.len → (s.inputAt a).isSome = true := fun a ha => by
        cases h : s.inputAt a with
        | none => exact absurd ⟨a, ha, h⟩ hn
        | some v => rfl
      obtain ⟨b, hb'⟩ := findBest_total (lo := windowLo s.enc.i) hl (windowCap_inside hi.le)
      rw [hb] at hb'
      cases hb'
    | some b =>
      cases hv : s.inputAt s.enc.i with
      | none =>
        rw [opEStep_unread hi (.inr hv)]
        exact .unread ⟨_, hi, hv⟩
      | some v =>
        obtain ⟨g, d, i', bytes, ho, htok⟩ := opEStep_token hi hr hb hv
        have hbd := htok.bounds hi
        have hg1 := htok.cnt
        have hg2 := htok.len
        obtain ⟨r1, r2⟩ := hr
        rw [ho, opFlushIfFull]
        by_cases hc : g.cnt = 8
        · rw [if_pos (State.groupFull_iff.2 hc)]
          by_cases hf : s.obufFits (s.enc.wp + 1 + g.len) = true
          · rw [opFlush_flushed (s := afterToken s b g d i') (show g.len ≤ 24 by omega) hf]
            exact .next (.fullGroup b g d i' bytes hu hp hi htok hc hf)
          · rw [opFlush_refused (s := afterToken s b g d i') (show g.len ≤ 24 by omega) hf]
            exact .outputCapacity hu (.fullGroup b g i' bytes hp hi htok hc (by simpa using hf))
        · rw [if_neg (mt State.groupFull_iff.1 hc)]
          exact .next (.token b g d i' bytes hu hp hi htok hc)

theorem ends_final {s : State} (hu : s.Undisturbed) (hp : s.phase = .eFinal) (hr : s.grp.HasRoom) : Ends s (step s) := by
  rw [step_of_phaseOp (i := .final) hu (by rw [State.phaseOp, hp])]
  show Ends s (settle s (opFinal s))
  obtain ⟨r1, r2⟩ := hr
  have hlen : s.grp.len ≤ 24 := by omega
  by_cases hl : s.len < 2 ^ 32
  · by_cases hc : s.grp.cnt = 0
    · have ho : opFinal s = .ok s.completeEncode := by
        rw [opFinal, if_pos hc, opEDone, if_pos (State.inputEncodable_iff.2 hl)]
      rw [ho]
      exact .next (.encoded hu hp hl hc)
    · by_cases hf : s.obufFits (s.enc.wp + 1 + s.grp.len) = true
      · have ho : opFinal s = .ok s.flushed.completeEncode := by
          rw [opFinal, if_neg hc, opFlush_flushed hlen hf, ok_bind, opEDone]
          exact if_pos (State.inputEncodable_iff.2 hl)
        rw [ho]
        exact .next (.lastGroup hu hp hl hc hlen hf)
      · have ho : opFinal s = .error (.refused .outputCapacity) := by
          rw [opFinal, if_neg hc, opFlush_refused hlen hf]
          rfl
        rw [ho]
        exact .outputCapacity hu (.lastGroup hp hc (by simpa using hf))
  · have hd : ∀ t : State, t.len = s.len → opEDone t = .error (.refused .inputTooLong) := fun t ht =>
      if_neg (mt State.inputEncodable_iff.1 (by rwa [ht]))
    by_cases hc : s.grp.cnt = 0
    · have ho : opFinal s = .error (.refused .inputTooLong) := by rw [opFinal, if_pos hc, hd s rfl]
      rw [ho]
      exact .inputTooLong hu (.inr hp) (by omega)
    · by_cases hf : s.obufFits (s.enc.wp + 1 + s.grp.len) = true
      · have ho : opFinal s = .error (.refused .inputTooLong) := by
          rw [opFinal, if_neg hc, opFlush_flushed hlen hf, ok_bind, hd _ (State.flushed_len s)]
        rw [ho]
        exact .inputTooLong hu (.inr hp) (by omega)
      · have ho : opFinal s = .error (.refused .outputCapacity) := by
          rw [opFinal, if_neg hc, opFlush_refused hlen hf]
          rfl
        rw [ho]
        exact .outputCapacity hu (.lastGroup hp hc (by simpa using hf))

/-! ## Inputs -/

theorem ends_reset {s : State} (h : s.rst = true) : Ends s (step s) := by
  have hn : s.nextOp = .run .reset := if_pos h
  rw [step, hn]
  exact .next (.reset h)

theorem ends_command {s : State} {c : BitVec 2} (h : s.rst = false) (hc : s.cmd = some c) : Ends s (step s) := by
  have hne : s.cmd ≠ none := by rw [hc]; exact nofun
  have hn : s.nextOp = match decodeCmd c with
      | some i => .run i
      | none => .dropCmd := by
    rw [State.nextOp, h, hc]
    rfl
  rw [step, hn]
  by_cases h1 : c = 1#2
  · subst h1
    show Ends s (settle s (opDecode s))
    unfold opDecode
    by_cases hb : s.status = .busy
    · rw [if_pos hb]
      exact .next (.dropped h hne)
    · rw [if_neg hb]
      by_cases hf : s.ibufFits s.len = true
      · rw [if_pos hf]
        exact .next (.startDecode h hne hb hf)
      · rw [if_neg hf]
        exact .inputCapacity h (.inl hc) hb (by simpa using hf)
  · by_cases h2 : c = 2#2
    · subst h2
      show Ends s (settle s (opEncode s))
      unfold opEncode
      by_cases hb : s.status = .busy
      · rw [if_pos hb]
        exact .next (.dropped h hne)
      · rw [if_neg hb]
        by_cases hf : s.ibufFits s.len = true
        · rw [if_pos hf]
          by_cases hl : s.len < 2 ^ 32
          · rw [if_pos (State.inputEncodable_iff.2 hl)]
            exact .next (.startEncode h hne hb hf hl)
          · rw [if_neg (mt State.inputEncodable_iff.1 hl)]
            exact .startTooLong h hc hb (by omega)
        · rw [if_neg hf]
          exact .inputCapacity h (.inr hc) hb (by simpa using hf)
    · have hd : decodeCmd c = none := by rw [decodeCmd, if_neg h1, if_neg h2]
      rw [hd]
      exact .next (.dropped h hne)

/-- Every step ends as Ends says, where the staged group has room while the encode path runs. -/
theorem step_ends {s : State} (hr : s.phase.scanning = true → s.grp.HasRoom) : Ends s (step s) := by
  cases h : s.rst with
  | true => exact ends_reset h
  | false =>
    cases hc : s.cmd with
    | some c => exact ends_command h hc
    | none =>
      have hu : s.Undisturbed := ⟨h, hc⟩
      cases hp : s.phase with
      | idle =>
        rw [step_of_wait hu (by rw [State.phaseOp, hp])]
        exact .next (.wait hu hp)
      | dHdr => exact ends_header hu hp
      | dGroup => exact ends_group hu hp
      | dToken => exact ends_token hu hp
      | dLit => exact ends_literal hu hp
      | dBref => exact ends_backRef hu hp
      | dCopy => exact ends_copy hu hp
      | eHdr => exact ends_emitHeader hu hp
      | eScan => exact ends_scan hu hp (hr (by rw [hp]; rfl))
      | eFinal => exact ends_final hu hp (hr (by rw [hp]; rfl))

theorem step_effect {s t : State} (hr : s.phase.scanning = true → s.grp.HasRoom) (h : step s = .next t) : Effect s t := by
  have he := step_ends hr
  rw [h] at he
  cases he
  assumption

end Sys2Proof.Machine
end

