-- ==== Sys2Proof/Tests/Slice0.lean ====
section
/-! SUPPORT. Tests: WellFormed's refusals, words written out from the encodings, one step of each instruction, and for each
obligation with hypotheses a state that meets them. Expected results come from spec/95_test_vectors.md and from the rules'
own examples; the vector's id stands beside each. -/

namespace Sys2Proof.Tests

open Sys2Proof Sys2Proof.Machine

/-! ## States -/

/-- After reset, with an input loaded. -/
def loaded (inp : List Byte) : State :=
  { State.reset with inLen := BitVec.ofNat 64 inp.length, ibuf := Memory.writeList [] 0 inp }

/-- A phase of the decode path: the input from address `src` on, `out` already written. -/
def decodingAt (p : Phase) (src dlen : Nat) (stream out : List Byte) : State :=
  { State.reset with
    status := .busy
    phase := p
    inLen := BitVec.ofNat 64 (src + stream.length)
    ibuf := Memory.writeList [] src stream
    obuf := Memory.writeList [] 0 out
    dlenR := BitVec.ofNat 32 dlen
    dec := { State.reset.dec with src := src, pos := out.length, dlen := dlen } }

/-- A phase of the encode path at scan position `i`, nothing staged. -/
def encodingAt (p : Phase) (inp : List Byte) (i : Nat) : State :=
  { loaded inp with
    status := .busy
    phase := p
    enc := { State.reset.enc with i := i, wp := 16 } }

/-- The state an outcome goes on in. -/
def after : Host.Outcome State Fault Refusal → Option State
  | .next t => some t
  | .fault _ => none
  | .refused _ => none

/-- The OBUF bytes from `a` on. -/
def outBytes (t : State) (a n : Nat) : List (Option Byte) := (List.range n).map fun x => Memory.read t.obuf (a + x)

/-- The header `H(n)` of the vectors, for `n < 256`. -/
def hdrBytes (n : Byte) : List Byte := [0x59, 0x61, 0x7A, 0x30, 0, 0, 0, n, 0, 0, 0, 0, 0, 0, 0, 0]

/-- ASCII `abcXabcYabc`. -/
def abcXabcYabc : List Byte := [0x61, 0x62, 0x63, 0x58, 0x61, 0x62, 0x63, 0x59, 0x61, 0x62, 0x63]

/-! ## WellFormed refuses -/

theorem test_wf_brefS_zero : (Instr.brefS 0#4 0x123#12).wf = false := by decide
theorem test_wf_brefS_one : (Instr.brefS 1#4 0x123#12).wf = true := by decide
theorem test_wf_emitBrefS_low : (Instr.emitBrefS 0#12 2).wf = false := by decide
theorem test_wf_emitBrefS_high : (Instr.emitBrefS 0#12 18).wf = false := by decide
theorem test_wf_emitBrefX_low : (Instr.emitBrefX 0#12 17).wf = false := by decide
theorem test_wf_emitBrefX_high : (Instr.emitBrefX 0#12 274).wf = false := by decide

/-! ## Words written out from the encodings (R91, R92, R95 to R97) -/

/-- H1: tag, length 1, reserved words DEADBEEF and 20. -/
theorem test_decode_hdr :
    decode Config.defaultMagic .header
      [0x59, 0x61, 0x7A, 0x30, 0, 0, 0, 1, 0xDE, 0xAD, 0xBE, 0xEF, 0, 0, 0, 0x20] =
      .ok (.hdr 1 0xDEADBEEF 0x20, []) := by decide
/-- F-M2: Yay0. -/
theorem test_decode_hdr_badMagic :
    decode Config.defaultMagic .header [0x59, 0x61, 0x79, 0x30, 0, 0, 0, 1] = .error .badMagic := by decide
/-- F-T1. -/
theorem test_decode_hdr_short : decode Config.defaultMagic .header [0x59, 0x61, 0x7A] = .error (.short 4) := by decide
/-- F-T2. -/
theorem test_decode_hdr_short_rest :
    decode Config.defaultMagic .header [0x59, 0x61, 0x7A, 0x30, 0, 0, 0, 5, 0, 0] = .error (.short 16) := by decide
/-- C1's control byte 1110 0000. -/
theorem test_decode_ctrl : decode Config.defaultMagic .control [0b11100000] = .ok (.ctrl 0xE0, []) := by decide
/-- L3: a literal that looks like a code. -/
theorem test_decode_lit : decode Config.defaultMagic (.token true) [0x10, 0x00] = .ok (.lit 0x10, [0x00]) := by decide
/-- Section 2.4, `90 05`: n = 9 is 1001, D = 005 is 0000 0000 0101. -/
theorem test_decode_brefS :
    decode Config.defaultMagic (.token false) [0b10010000, 0b00000101] = .ok (.brefS 9 0x005, []) := by decide
/-- Section 2.4, `12 34`. -/
theorem test_decode_brefS_field :
    decode Config.defaultMagic (.token false) [0x12, 0x34] = .ok (.brefS 1 0x234, []) := by decide
/-- Section 2.4, `0A BC 0A`: 0000, D = ABC, e = 0A. -/
theorem test_decode_brefX :
    decode Config.defaultMagic (.token false) [0b00001010, 0b10111100, 0b00001010, 0xFF] =
      .ok (.brefX 0xABC 0x0A, [0xFF]) := by decide
/-- F-T6. -/
theorem test_decode_brefX_short : decode Config.defaultMagic (.token false) [0, 0] = .error (.short 3) := by decide
theorem test_decode_cmd : [0#2, 1#2, 2#2, 3#2].map decodeCmd = [none, some .decode, some .encode, none] := by decide

theorem test_encode_hdr : encode Config.defaultMagic (.hdr 600 0 0) =
    some [0x59, 0x61, 0x7A, 0x30, 0, 0, 2, 0x58, 0, 0, 0, 0, 0, 0, 0, 0] := by decide
theorem test_encode_brefS : encode Config.defaultMagic (.brefS 1 0xFFF) = some [0x1F, 0xFF] := by decide
theorem test_encode_brefX : encode Config.defaultMagic (.brefX 0xFFF 0xFF) = some [0x0F, 0xFF, 0xFF] := by decide
theorem test_encode_operation : encode Config.defaultMagic .window = none := by decide

/-- A row of the opcode table is one number with byte 0 the most significant (log 14). -/
theorem test_table_hdr :
    decodeTableWord 128 0x59617A30000000090000000000000000 = some (.hdr 9 0 0) := by decide
theorem test_table_ctrl : decodeTableWord 8 0xF4 = some (.ctrl 0xF4) := by decide
theorem test_table_brefS : decodeTableWord 16 0x6001 = some (.brefS 6 0x001) := by decide
theorem test_table_brefX : decodeTableWord 24 0x000023 = some (.brefX 0 0x23) := by decide

/-- The placed word is the first thing that runs after reset. -/
theorem test_fetchWord_ctrl :
    (after (step (State.reset.withFetchWord 8 0xE0))).map (fun t => (t.dec.ctrl, t.dec.bitsLeft, t.phase)) =
      some (0xE0, 8, .dToken) := by decide
/-- F-D1: a back-reference at `pos = 0`. -/
theorem test_fetchWord_brefS :
    (after (step (State.reset.withFetchWord 16 0x1000))).map (fun t => (t.status, t.err)) =
      some (.fault, .invalidDistance) := by decide
theorem test_fetchWord_hdr :
    (after (step (State.reset.withFetchWord 128 0x59617A30000001120000000000000000))).map
      (fun t => (t.dlenR, t.dec.src, t.phase)) = some (274, 16, .dGroup) := by decide

/-! ## One step of each instruction -/

/-- H1. -/
theorem test_hdr : (after (exec (.hdr 1 0xDEADBEEF 0x20) (loaded (hdrBytes 1)))).map
    (fun t => (t.dlenR, t.rsv0, t.rsv1, t.dec.dlen)) = some (1, 0xDEADBEEF, 0x20, 1) := by decide
/-- R120, H4: `00 00 01 12` is 274. -/
theorem test_hdrParse : (after (exec .hdrParse
    (loaded [0x59, 0x61, 0x7A, 0x30, 0, 0, 1, 0x12, 0, 0, 0, 0, 0, 0, 0, 0]))).map
    (fun t => (t.dec.dlen, t.dec.src, t.dec.pos, t.phase)) = some (274, 16, 0, .dGroup) := by decide
/-- F-M5: the tag is compared before the 16-byte check. -/
theorem test_hdrParse_order : (after (exec .hdrParse (loaded [0x59, 0x61, 0x79, 0x30, 0, 0, 0, 1]))).map
    (fun t => (t.status, t.err)) = some (.fault, .badMagic) := by decide
/-- H6. -/
theorem test_hdrEmit : (after (exec .hdrEmit { State.reset with inLen := 600 })).map
    (fun t => (outBytes t 0 8, t.enc.wp, t.enc.i, t.phase)) =
      some ([0x59, 0x61, 0x7A, 0x30, 0, 0, 2, 0x58].map some, 16, 0, .eScan) := by decide
/-- R141's example. -/
theorem test_ctrl : (after (exec (.ctrl 0xE0) (decodingAt .dGroup 16 3 [0xE0] []))).map
    (fun t => (t.dec.ctrl, t.dec.bitsLeft, t.dec.src)) = some (0xE0, 8, 17) := by decide
/-- H3: with nothing owed no control byte is used. -/
theorem test_ctrl_done : (after (exec (.ctrl 0xFF) (decodingAt .dGroup 16 0 [0xFF] []))).map
    (fun t => (t.status, t.outLen, t.dec.src)) = some (.done, 0, 16) := by decide
/-- R142's example: A0 gives a literal and leaves 40. -/
theorem test_dispatch :
    (after (exec .dispatch (let s := decodingAt .dToken 17 5 [] []
      s.setDec { s.dec with ctrl := 0xA0, bitsLeft := 8 }))).map
    (fun t => (t.dec.cbit, t.dec.ctrl, t.dec.bitsLeft, t.phase)) = some (true, 0x40, 7, .dLit) := by decide
/-- R142: the next bit of A0, which is 0. -/
theorem test_dispatch_zero :
    (after (exec .dispatch (let s := decodingAt .dToken 17 5 [] []
      s.setDec { s.dec with ctrl := 0x40, bitsLeft := 7 }))).map
    (fun t => (t.dec.cbit, t.dec.ctrl, t.phase)) = some (false, 0x80, .dBref) := by decide
/-- R143's example. -/
theorem test_lit : (after (exec (.lit 0x41) (decodingAt .dLit 17 1 [0x41] []))).map
    (fun t => (outBytes t 0 1, t.dec.pos, t.dec.src)) = some ([some 0x41], 1, 18) := by decide
/-- P1, token 4. -/
theorem test_brefS : (after (exec (.brefS 1 0x003) (decodingAt .dBref 21 11 [0x10, 0x03] [0x61, 0x62, 0x63, 0x58]))).map
    (fun t => (t.dec.n, t.dec.distance, t.dec.length, t.dec.src)) = some (1, 4, 3, 23) := by decide
/-- F-P2: the distance is tested before the length. -/
theorem test_brefS_order : (after (exec (.brefS 1 0x005) (decodingAt .dBref 17 2 [0x10, 0x05] []))).map
    (fun t => (t.err, t.dec.src)) = some (.invalidDistance, 17) := by decide
/-- P2, token 1. -/
theorem test_brefX : (after (exec (.brefX 0 0xFF) (decodingAt .dBref 18 600 [0, 0, 0xFF] [0x41]))).map
    (fun t => (t.dec.distance, t.dec.length, t.dec.cnt, t.dec.src)) = some (1, 273, 273, 21) := by decide
/-- F-P1: a missing third byte comes before the bad distance. -/
theorem test_brefX_order : (after (step (decodingAt .dBref 17 30 [0x00, 0x05] []))).map (fun t => t.err) =
    some .truncated := by decide
/-- R146's example. -/
theorem test_brefCheck :
    (after (exec .brefCheck (let s := decodingAt .dBref 20 3 [] [0x41]
      s.setDec { s.dec with distance := 1, length := 3 }))).map (fun t => t.err) = some .lengthOverrun := by decide
/-- D-EQ: both bounds are met exactly. -/
theorem test_brefCheck_equal :
    (after (exec .brefCheck (let s := decodingAt .dBref 20 4 [] [0x41]
      s.setDec { s.dec with distance := 1, length := 3 }))).map (fun t => (t.err, t.dec.cnt, t.phase)) =
      some (.none, 3, .dCopy) := by decide
/-- D-O1, the first byte of the overlapping copy. -/
theorem test_replay :
    (after (exec .replay (let s := decodingAt .dCopy 20 6 [] [0x41]
      s.setDec { s.dec with distance := 1, cnt := 5 }))).map
    (fun t => (outBytes t 0 3, t.dec.pos, t.dec.cnt)) = some ([some 0x41, some 0x41, none], 2, 4) := by decide
/-- D-EQ at its end. -/
theorem test_dDone : (after (exec .dDone (decodingAt .dToken 20 4 [] [0x41, 0x41, 0x41, 0x41]))).map
    (fun t => (t.status, t.outLen, t.dlenR, t.phase)) = some (.done, 4, 4, .idle) := by decide
/-- R171's example. -/
theorem test_window : (after (exec .window
    { State.reset with inLen := 5100, enc := { State.reset.enc with i := 5000 } })).map
    (fun t => (t.enc.lo, t.enc.cap)) = some (904, 100) := by decide
/-- R171: at 4096 address 0 is still a candidate. -/
theorem test_window_edge : (after (exec .window
    { State.reset with inLen := 9000, enc := { State.reset.enc with i := 4096 } })).map
    (fun t => (t.enc.lo, t.enc.cap)) = some (0, 273) := by decide
/-- R172's first example: the candidate overlaps. -/
theorem test_matchlen : (after (exec .matchlen
    { loaded [0x41, 0x41, 0x41, 0x41] with enc := { State.reset.enc with i := 1, j := 0, cap := 3 } })).map
    (fun t => t.enc.k) = some 3 := by decide
/-- R172's second example, `abcdbcdebcdef`. -/
theorem test_matchlen_stops : (after (exec .matchlen
    { loaded [0x61, 0x62, 0x63, 0x64, 0x62, 0x63, 0x64, 0x65, 0x62, 0x63, 0x64, 0x65, 0x66] with
      enc := { State.reset.enc with i := 8, j := 4, cap := 5 } })).map (fun t => t.enc.k) = some 4 := by decide
/-- M5: a tie, the nearer wins. -/
theorem test_select_tie : (after (exec .select
    { loaded abcXabcYabc with enc := { State.reset.enc with i := 8, lo := 0, cap := 3 } })).map
    (fun t => (t.enc.bestLen, t.enc.bestDist)) = some (3, 4) := by decide
/-- M6: the longer beats the nearer, `abcdXabcYabcd`. -/
theorem test_select_longer : (after (exec .select
    { loaded [0x61, 0x62, 0x63, 0x64, 0x58, 0x61, 0x62, 0x63, 0x59, 0x61, 0x62, 0x63, 0x64] with
      enc := { State.reset.enc with i := 9, lo := 0, cap := 4 } })).map
    (fun t => (t.enc.bestLen, t.enc.bestDist)) = some (4, 9) := by decide
/-- M3: length 2 is below the threshold. -/
theorem test_accept_literal : (after (exec .accept
    { loaded [0x41, 0x41, 0x41] with enc := { State.reset.enc with i := 1, bestLen := 2, bestDist := 1 } })).map
    (fun t => t.enc.decision) = some (.literal 0x41) := by decide
/-- M2. -/
theorem test_accept_backRef : (after (exec .accept
    { loaded [0x41, 0x41, 0x41, 0x41] with enc := { State.reset.enc with i := 1, bestLen := 3, bestDist := 1 } })).map
    (fun t => t.enc.decision) = some (.backRef 1 3) := by decide
/-- R192's example, the second step of `AAAA`. -/
theorem test_eStep : (after (exec .eStep (encodingAt .eScan [0x41, 0x41, 0x41, 0x41] 1))).map
    (fun t => (t.enc.i, t.grp.payload, t.grp.cnt, t.grp.ctrl)) = some (4, [0x10, 0x00], 1, 0) := by decide
/-- M7: `abcab` at 3 is a literal. -/
theorem test_eStep_literal : (after (exec .eStep (encodingAt .eScan [0x61, 0x62, 0x63, 0x61, 0x62] 3))).map
    (fun t => (t.enc.i, t.grp.payload, t.grp.ctrl)) = some (4, [0x61], 0x80) := by decide
/-- R193's example. -/
theorem test_emitLit : (after (exec (.emitLit 0x41) State.reset)).map
    (fun t => (t.grp.ctrl, t.grp.cnt, t.grp.payload, t.grp.len)) = some (0x80, 1, [0x41], 1) := by decide
/-- R195's example: `d = 6`, `l = 11` is `90 05`. -/
theorem test_emitBref : (after (exec (.emitBref 6 11) State.reset)).map
    (fun t => (t.grp.ctrl, t.grp.cnt, t.grp.payload)) = some (0, 1, [0x90, 0x05]) := by decide
/-- R194: a distance above 4096. -/
theorem test_emitBref_internal : (after (exec (.emitBref 4097 3) State.reset)).map (fun t => (t.status, t.err)) =
    some (.fault, .encInternal) := by decide
/-- R195's example: `d = 4096`, `l = 3` is `1F FF`. -/
theorem test_emitBrefS : (after (exec (.emitBrefS 0xFFF 3) State.reset)).map (fun t => (t.grp.payload, t.grp.cnt)) =
    some ([0x1F, 0xFF], 0) := by decide
/-- R196's example: `d = 1`, `l = 273` is `00 00 FF`. -/
theorem test_emitBrefX : (after (exec (.emitBrefX 0 273) State.reset)).map (fun t => t.grp.payload) =
    some [0x00, 0x00, 0xFF] := by decide
/-- P5: the second literal turns 80 into C0. -/
theorem test_pack : (after (exec (.pack true)
    { State.reset with grp := { State.reset.grp with ctrl := 0x80, cnt := 1 } })).map (fun t => (t.grp.ctrl, t.grp.cnt)) =
    some (0xC0, 2) := by decide
/-- R197: a back-reference leaves its bit 0. -/
theorem test_pack_zero : (after (exec (.pack false)
    { State.reset with grp := { State.reset.grp with ctrl := 0x80, cnt := 1 } })).map (fun t => (t.grp.ctrl, t.grp.cnt)) =
    some (0x80, 2) := by decide
/-- P5's last group: `80 49` at 25. -/
theorem test_flush : (after (exec .flush
    { State.reset with
      grp := { ctrl := 0x80, cnt := 1, buf := State.reset.grp.buf.set 0 0x49, len := 1 }
      enc := { State.reset.enc with wp := 25 } })).map
    (fun t => (outBytes t 24 4, t.enc.wp, t.grp.cnt)) = some ([none, some 0x80, some 0x49, none], 27, 0) := by decide
/-- P5's end. -/
theorem test_final : (after (exec .final
    { State.reset with
      inLen := 9
      grp := { ctrl := 0x80, cnt := 1, buf := State.reset.grp.buf.set 0 0x49, len := 1 }
      enc := { State.reset.enc with i := 9, wp := 25 } })).map
    (fun t => (outBytes t 25 2, t.outLen, t.dlenR, t.status)) =
      some ([some 0x80, some 0x49], 27, 9, .done) := by decide
/-- E-L8: no token pending, nothing written. -/
theorem test_final_empty : (after (exec .final
    { State.reset with inLen := 8, enc := { State.reset.enc with i := 8, wp := 25 } })).map
    (fun t => (t.obuf, t.outLen, t.status)) = some ([], 25, .done) := by decide
/-- I4. -/
theorem test_eDone : (after (exec .eDone { State.reset with enc := { State.reset.enc with wp := 16 } })).map
    (fun t => (t.outLen, t.dlenR, t.status, t.phase)) = some (16, 0, .done, .idle) := by decide
/-- I5: command start clears ERR. -/
theorem test_decode : (after (exec .decode { State.reset with status := .fault, err := .badMagic })).map
    (fun t => (t.status, t.err, t.phase)) = some (.busy, .none, .dHdr) := by decide
/-- I6: ENCODE's start clears the reserved words. -/
theorem test_encode : (after (exec .encode { State.reset with status := .done, rsv0 := 5, rsv1 := 6 })).map
    (fun t => (t.status, t.rsv0, t.rsv1, t.phase)) = some (.busy, 0, 0, .eHdr) := by decide
/-- R24's codes. -/
theorem test_raise :
    [FaultKind.badMagic, .truncated, .invalidDistance, .lengthOverrun, .encInternal].map
      (fun f => (after (exec (.raise f) State.reset)).map (fun t => t.err.code)) =
      [some 1, some 2, some 3, some 4, some 5] := by decide
/-- I1. -/
theorem test_reset : (after (exec .reset (decodingAt .dToken 20 4 [] [0x41]))).map
    (fun t => (t.status, t.err, t.inLen, t.outLen, t.dlenR)) = some (.idle, .none, 0, 0, 0) := by decide
/-- I2. -/
theorem test_cmd_zero : (after (step { State.reset with cmd := some 0 })).map (fun t => (t.status, t.cmd)) =
    some (.idle, none) := by decide
/-- I3, the first step. -/
theorem test_cmd_decode : (after (step { State.reset with cmd := some 1 })).map (fun t => (t.status, t.phase)) =
    some (.busy, .dHdr) := by decide

/-! ## Witnesses: states and operands that meet each obligation's hypotheses, every clause at a boundary -/

/-- A state of the decode path with other datapath registers. -/
def withDec (s : State) (f : DecRegs → DecRegs) : State := s.setDec (f s.dec)

/-- A limit on OBUF. -/
def capOut (s : State) (n : Nat) : State := { s with cfg := { s.cfg with obufCap := some n } }

/-- A limit on IBUF. -/
def capIn (s : State) (n : Nat) : State := { s with cfg := { s.cfg with ibufCap := some n } }

/-- A staged group of `cnt` tokens and `len` bytes. -/
def staged (cnt len : Nat) : State := { State.reset with grp := { State.reset.grp with cnt := cnt, len := len } }

theorem witness_DecodeOfEncodeIsTheInstruction :
    (Instr.brefS 15#4 0xFFF#12).wf = true ∧ (Instr.brefS 15#4 0xFFF#12).kind = some (.token false) ∧
      encode Config.defaultMagic (.brefS 15#4 0xFFF#12) = some [0xFF, 0xFF] := by decide

theorem witness_EncodeOfDecodeIsTheBytesRead :
    decode Config.defaultMagic (.token false) [0x0F, 0xFF, 0xFF, 0x01] = .ok (.brefX 0xFFF 0xFF, [0x01]) := by decide

theorem witness_DecodeTreeIsComplete :
    1 ≤ (0x10#8).toNat / 16 ∧ 1 ≤ (0xFF#8).toNat / 16 ∧ (0x0F#8).toNat / 16 = 0 ∧ (0x00#8).toNat / 16 = 0 := by decide

theorem witness_TokenEncodingIsABijection :
    (1 ≤ 4096 ∧ 4096 ≤ 4096 ∧ 3 ≤ 17 ∧ 17 ≤ 273 ∧
      ∃ i, decode Config.defaultMagic (.token false) [0xFF, 0xFF] = .ok (i, []) ∧ backRefOperands i = some (4096, 17)) ∧
    (∃ i, decode Config.defaultMagic (.token false) [0x00, 0x00, 0x00] = .ok (i, []) ∧ backRefOperands i = some (1, 18)) ∧
    1 ≤ (0x10#8).toNat / 16 ∧ (0x0F#8).toNat / 16 = 0 :=
  ⟨⟨by decide, by decide, by decide, by decide, .brefS 15 0xFFF, by decide, by decide⟩, ⟨.brefX 0 0, by decide, by decide⟩,
    by decide, by decide⟩

theorem witness_BackReferenceOperandsAreAssembled :
    (∃ s : State, s.Undisturbed ∧ s.phase = .dBref ∧ s.inputAt s.dec.src = some 0x10 ∧
      s.inputAt (s.dec.src + 1) = some 0x00 ∧ 0 * 256 + 0 + 1 ≤ s.dec.pos ∧ s.dec.pos + (1 + 2) ≤ s.dec.dlen) ∧
    (∃ s : State, s.Undisturbed ∧ s.phase = .dBref ∧ s.inputAt s.dec.src = some 0x00 ∧
      s.inputAt (s.dec.src + 1) = some 0x00 ∧ s.inputAt (s.dec.src + 2) = some 0xFF ∧ 0 * 256 + 0 + 1 ≤ s.dec.pos ∧
      s.dec.pos + (255 + 18) ≤ s.dec.dlen) :=
  ⟨⟨decodingAt .dBref 18 4 [0x10, 0x00] [0x41], by decide⟩, ⟨decodingAt .dBref 18 274 [0, 0, 0xFF] [0x41], by decide⟩⟩

theorem witness_HdrParseChecksThenReads :
    (loaded [0x59, 0x61, 0x7A]).len < 4 ∧
    ((loaded [0x58, 0x58, 0x58, 0x58]).inputAt 3 = some 0x58 ∧ (loaded [0x58, 0x58, 0x58, 0x58]).inputAt 0 = some 0x58 ∧
      (⟨0x58, 0x58, 0x58, 0x58⟩ : Magic) ≠ (loaded [0x58, 0x58, 0x58, 0x58]).cfg.magic) ∧
    ((⟨0x59, 0x61, 0x7A, 0x30⟩ : Magic) = (loaded ((hdrBytes 1).take 15)).cfg.magic ∧
      (loaded ((hdrBytes 1).take 15)).len < 16 ∧ (loaded ((hdrBytes 1).take 15)).inputAt 3 = some 0x30) ∧
    (16 ≤ (capOut (loaded (hdrBytes 5)) 5).len ∧
      (∀ a, a < 16 → Memory.read (capOut (loaded (hdrBytes 5)) 5).ibuf a = some ((hdrBytes 5).getD a 0)) ∧
      (capOut (loaded (hdrBytes 5)) 5).cfg.magic = ⟨0x59, 0x61, 0x7A, 0x30⟩ ∧
      (capOut (loaded (hdrBytes 5)) 5).obufFits 5 = true) := by decide

theorem witness_HeaderObjectExecutes :
    (16 ≤ (capOut (loaded (hdrBytes 5)) 5).len ∧ (capOut (loaded (hdrBytes 5)) 5).obufFits (5#32).toNat = true) ∧
    (loaded ((hdrBytes 5).take 15)).len < 16 ∧
    (16 ≤ (capOut (loaded (hdrBytes 5)) 4).len ∧ (capOut (loaded (hdrBytes 5)) 4).obufFits (5#32).toNat = false) := by
  decide

theorem witness_HdrEmitWritesTheHeader :
    (capOut { State.reset with inLen := 0xFFFFFFFF } 16).len < 2 ^ 32 ∧
      (capOut { State.reset with inLen := 0xFFFFFFFF } 16).obufFits 16 = true := by decide

theorem witness_CtrlLoadsTheControlByte :
    (∃ s : State, s.dec.dlen ≤ s.dec.pos) ∧ (∃ s : State, s.dec.pos < s.dec.dlen ∧ s.len ≤ s.dec.src) ∧
    (∃ s : State, s.dec.pos < s.dec.dlen ∧ s.dec.src < s.len) :=
  ⟨⟨decodingAt .dGroup 16 1 [] [0x41], by decide⟩, ⟨decodingAt .dGroup 16 1 [] [], by decide⟩,
    ⟨decodingAt .dGroup 16 1 [0x80] [], by decide⟩⟩

theorem witness_DispatchTakesTheTopBit :
    (∃ s : State, s.dec.dlen ≤ s.dec.pos) ∧ (∃ s : State, s.dec.pos < s.dec.dlen ∧ s.dec.bitsLeft = 0) ∧
    (∃ s : State, s.dec.pos < s.dec.dlen ∧ s.dec.bitsLeft ≠ 0 ∧ 128 ≤ s.dec.ctrl.toNat) ∧
    (∃ s : State, s.dec.pos < s.dec.dlen ∧ s.dec.bitsLeft ≠ 0 ∧ s.dec.ctrl.toNat < 128) :=
  ⟨⟨decodingAt .dToken 17 1 [] [0x41], by decide⟩, ⟨decodingAt .dToken 17 1 [] [], by decide⟩,
    ⟨withDec (decodingAt .dToken 17 1 [] []) fun d => { d with ctrl := 0x80, bitsLeft := 1 }, by decide⟩,
    ⟨withDec (decodingAt .dToken 17 1 [] []) fun d => { d with ctrl := 0x7F, bitsLeft := 1 }, by decide⟩⟩

theorem witness_LitCopiesOneByte :
    (∃ s : State, s.len ≤ s.dec.src) ∧ (∃ s : State, s.dec.src < s.len ∧ s.obufFits (s.dec.pos + 1) = true) :=
  ⟨⟨decodingAt .dLit 17 1 [] [], by decide⟩, ⟨capOut (decodingAt .dLit 17 1 [0x41] []) 1, by decide⟩⟩

theorem witness_ShortBackReferenceStartsTheCopy :
    1#4 ≠ 0 ∧ (∃ s : State, s.len < s.dec.src + 2) ∧
    (∃ s : State, s.dec.src + 2 ≤ s.len ∧ s.dec.pos < (0xFFF#12).toNat + 1) ∧
    (∃ s : State, s.dec.src + 2 ≤ s.len ∧ (0#12).toNat + 1 ≤ s.dec.pos ∧ s.dec.dlen < s.dec.pos + ((1#4).toNat + 2)) ∧
    (∃ s : State, s.dec.src + 2 ≤ s.len ∧ (0#12).toNat + 1 ≤ s.dec.pos ∧ s.dec.pos + ((15#4).toNat + 2) ≤ s.dec.dlen) :=
  ⟨by decide, ⟨decodingAt .dBref 18 4 [0x10] [0x41], by decide⟩,
    ⟨withDec (decodingAt .dBref 18 5000 [0x1F, 0xFF] []) fun d => { d with pos := 4095 }, by decide⟩,
    ⟨decodingAt .dBref 18 3 [0x10, 0x00] [0x41], by decide⟩, ⟨decodingAt .dBref 18 18 [0xF0, 0x00] [0x41], by decide⟩⟩

theorem witness_ExtendedBackReferenceStartsTheCopy :
    (∃ s : State, s.len < s.dec.src + 3) ∧
    (∃ s : State, s.dec.src + 3 ≤ s.len ∧ s.dec.pos < (0#12).toNat + 1) ∧
    (∃ s : State, s.dec.src + 3 ≤ s.len ∧ (0#12).toNat + 1 ≤ s.dec.pos ∧ s.dec.dlen < s.dec.pos + ((255#8).toNat + 18)) ∧
    (∃ s : State, s.dec.src + 3 ≤ s.len ∧ (0#12).toNat + 1 ≤ s.dec.pos ∧ s.dec.pos + ((255#8).toNat + 18) ≤ s.dec.dlen) :=
  ⟨⟨decodingAt .dBref 18 4 [0, 0] [0x41], by decide⟩, ⟨decodingAt .dBref 17 30 [0, 0, 0] [], by decide⟩,
    ⟨decodingAt .dBref 18 273 [0, 0, 0xFF] [0x41], by decide⟩, ⟨decodingAt .dBref 18 274 [0, 0, 0xFF] [0x41], by decide⟩⟩

theorem witness_BrefCheckTestsDistanceThenLength :
    (∃ s : State, s.dec.pos < s.dec.distance) ∧
    (∃ s : State, s.dec.distance ≤ s.dec.pos ∧ s.dec.dlen < s.dec.pos + s.dec.length) ∧
    (∃ s : State, s.dec.distance ≤ s.dec.pos ∧ s.dec.pos + s.dec.length ≤ s.dec.dlen) :=
  ⟨⟨withDec (decodingAt .dBref 20 4 [] [0x41]) fun d => { d with distance := 2, length := 3 }, by decide⟩,
    ⟨withDec (decodingAt .dBref 20 3 [] [0x41]) fun d => { d with distance := 1, length := 3 }, by decide⟩,
    ⟨withDec (decodingAt .dBref 20 4 [] [0x41]) fun d => { d with distance := 1, length := 3 }, by decide⟩⟩

theorem witness_MissingBytesRaiseTruncated :
    (∃ s : State, s.Undisturbed ∧ s.phase = .dGroup ∧ s.dec.pos < s.dec.dlen ∧ s.len ≤ s.dec.src) ∧
    (∃ s : State, s.Undisturbed ∧ s.phase = .dLit ∧ s.len ≤ s.dec.src) ∧
    (∃ s : State, s.Undisturbed ∧ s.phase = .dBref ∧ s.len < s.dec.src + 2) ∧
    (∃ s : State, s.Undisturbed ∧ s.phase = .dBref ∧ s.len = s.dec.src + 2 ∧ s.inputAt s.dec.src = some 0x0F ∧
      s.inputAt (s.dec.src + 1) = some 0xFF ∧ (0x0F#8).toNat < 16) :=
  ⟨⟨decodingAt .dGroup 16 1 [] [], by decide⟩, ⟨decodingAt .dLit 17 1 [] [], by decide⟩,
    ⟨decodingAt .dBref 18 5 [0x10] [0x41], by decide⟩, ⟨decodingAt .dBref 18 30 [0x0F, 0xFF] [0x41], by decide⟩⟩

theorem witness_ReplayCopiesOneByte :
    (∃ s : State, s.dec.cnt = 0) ∧
    (∃ s : State, s.dec.cnt ≠ 0 ∧ s.dec.distance ≤ s.dec.pos ∧ s.obufFits (s.dec.pos + 1) = true ∧
      Memory.read s.obuf (s.dec.pos - s.dec.distance) = some 0x41) :=
  ⟨⟨decodingAt .dCopy 20 4 [] [0x41], by decide⟩,
    ⟨capOut (withDec (decodingAt .dCopy 20 2 [] [0x41]) fun d => { d with distance := 1, cnt := 1 }) 2, by decide⟩⟩

theorem witness_ReplayRepeatsTheLastBytes :
    ∃ s : State, s.Undisturbed ∧ s.phase = .dCopy ∧ 1 ≤ s.dec.distance ∧ s.dec.distance ≤ s.dec.pos ∧
      s.obufFits (s.dec.pos + s.dec.cnt) = true ∧ ∀ a, a < s.dec.pos → (Memory.read s.obuf a).isSome = true :=
  ⟨capOut (withDec (decodingAt .dCopy 21 9 [] [0x41, 0x42]) fun d => { d with distance := 2, cnt := 7 }) 9, by decide⟩

theorem witness_DecodeCompletes : (decodingAt .dToken 20 (2 ^ 32 - 1) [] []).dec.dlen < 2 ^ 32 := by decide

theorem witness_WindowIsThePrecedingBytes :
    (encodingAt .eScan abcXabcYabc 0).enc.i < (encodingAt .eScan abcXabcYabc 0).len ∧
      (encodingAt .eScan abcXabcYabc 10).enc.i < (encodingAt .eScan abcXabcYabc 10).len := by decide

theorem witness_MatchlenIsTheLongestEqualRun :
    ∃ s : State, s.InputLoaded ∧ s.enc.j < s.enc.i ∧ s.enc.i + s.enc.cap ≤ s.len :=
  ⟨let s := encodingAt .eScan abcXabcYabc 8
   s.setEnc { s.enc with j := 7, cap := 3 }, by decide⟩

theorem witness_SelectIsLongestThenNearest :
    (∃ s : State, s.InputLoaded ∧ s.enc.lo ≤ s.enc.i ∧ s.enc.i + s.enc.cap ≤ s.len) ∧
    (∃ s : State, s.InputLoaded ∧ s.enc.lo ≤ s.enc.i ∧ s.enc.i + s.enc.cap ≤ s.len ∧
      matchLen s.inputAt s.enc.cap 4 s.enc.i = some 3) :=
  ⟨⟨encodingAt .eScan abcXabcYabc 0, by decide⟩,
    ⟨let s := encodingAt .eScan abcXabcYabc 8
     s.setEnc { s.enc with cap := 3 }, by decide⟩⟩

theorem witness_AcceptAppliesTheThreshold :
    (∃ s : State, 3 ≤ s.enc.bestLen) ∧ (∃ s : State, s.enc.bestLen < 3 ∧ s.inputAt s.enc.i = some 0x59) :=
  ⟨⟨let s := encodingAt .eScan abcXabcYabc 8
    s.setEnc { s.enc with bestLen := 3, bestDist := 4 }, by decide⟩,
    ⟨let s := encodingAt .eScan abcXabcYabc 7
     s.setEnc { s.enc with bestLen := 2 }, by decide⟩⟩

theorem witness_AcceptedMatchIsLegal :
    8 < abcXabcYabc.length ∧ 3 ≤ (findIn abcXabcYabc 8).len := by decide

theorem witness_PackSetsItsOwnBit : (staged 7 0).grp.cnt < 8 := by decide

theorem witness_EmitLitStagesTheByte : (staged 7 21).grp.HasRoom := by decide

theorem witness_EmitBrefChecksThenStages :
    (2 < 3 ∨ 273 < 2 ∨ 1 < 1 ∨ 4096 < 1) ∧ (274 < 3 ∨ 273 < 274 ∨ 1 < 1 ∨ 4096 < 1) ∧ (3 < 3 ∨ 273 < 3 ∨ 0 < 1 ∨ 4096 < 0) ∧
    (3 < 3 ∨ 273 < 3 ∨ 4097 < 1 ∨ 4096 < 4097) ∧
    (3 ≤ 17 ∧ 17 ≤ 273 ∧ 1 ≤ 4096 ∧ 4096 ≤ 4096 ∧ 17 ≤ 17 ∧ 17 < 18 ∧ 18 ≤ 273 ∧ (staged 7 21).grp.HasRoom) := by decide

theorem witness_EmitShortFormStagesTwoBytes : 3 ≤ 17 ∧ 17 ≤ 17 ∧ (staged 7 22).grp.len + 2 ≤ 24 := by decide

theorem witness_EmitExtendedFormStagesThreeBytes : 18 ≤ 18 ∧ 18 ≤ 273 ∧ (staged 7 21).grp.len + 3 ≤ 24 := by decide

theorem witness_FlushWritesTheGroup :
    (capOut (staged 8 24) 25).grp.len ≤ 24 ∧
      (capOut (staged 8 24) 25).obufFits ((capOut (staged 8 24) 25).enc.wp + 1 + (capOut (staged 8 24) 25).grp.len) = true := by
  decide

theorem witness_EncodeCompletes :
    ({ State.reset with inLen := 0xFFFFFFFF } : State).len < 2 ^ 32 ∧
      ({ State.reset with inLen := 0xFFFFFFFF } : State).enc.wp < 2 ^ 64 := by decide

theorem witness_FinalFlushesThenCompletes :
    (∃ s : State, s.len < 2 ^ 32 ∧ s.enc.wp + 1 + s.grp.len < 2 ^ 64 ∧ s.grp.cnt = 0) ∧
    (∃ s : State, s.len < 2 ^ 32 ∧ s.enc.wp + 1 + s.grp.len < 2 ^ 64 ∧ s.grp.cnt ≠ 0 ∧ s.grp.len ≤ 24 ∧
      s.obufFits (s.enc.wp + 1 + s.grp.len) = true) :=
  ⟨⟨staged 0 0, by decide⟩, ⟨capOut (staged 7 21) 22, by decide⟩⟩

theorem witness_EncodeStepEmitsOneToken :
    (∃ s : State, s.len ≤ s.enc.i) ∧
    (∃ s : State, s.enc.i < s.len ∧ s.InputLoaded ∧ s.grp.HasRoom ∧ s.grp.cnt < 7) ∧
    (∃ s : State, s.enc.i < s.len ∧ s.InputLoaded ∧ s.grp.HasRoom ∧ s.grp.cnt = 7 ∧ s.obufFits (s.enc.wp + 25) = true) :=
  ⟨⟨encodingAt .eScan abcXabcYabc 11, by decide⟩, ⟨encodingAt .eScan abcXabcYabc 8, by decide⟩,
    ⟨(capOut (encodingAt .eScan abcXabcYabc 10) 41).setGrp (staged 7 21).grp, by decide⟩⟩

theorem witness_CommandStartClearsTheResults :
    ∃ s : State, s.status ≠ .busy ∧ s.ibufFits s.len = true ∧ s.len < 2 ^ 32 :=
  ⟨capIn { loaded (hdrBytes 1) with status := .fault, err := .truncated } 16, by decide⟩

theorem witness_HostInputsAreTaken :
    (∃ s : State, s.rst = true) ∧ (∃ s : State, s.rst = false ∧ s.status ≠ .busy ∧ s.cmd = none) ∧
    (∃ s : State, s.status = .busy ∧ s.hostWriteCmd 1#2 = s) ∧
    (∃ s : State, s.rst = false ∧ s.status ≠ .busy ∧ s.cmd = some 1#2) ∧
    (∃ s : State, s.rst = false ∧ s.status ≠ .busy ∧ s.cmd = some 2#2) ∧
    (∃ s : State, s.rst = false ∧ s.status = .busy ∧ s.cmd = some 2#2) ∧
    (∃ s : State, s.rst = false ∧ s.cmd = some 0#2 ∧ (after (step s)).isSome = true) ∧
    (∃ s : State, s.rst = false ∧ s.cmd = some 3#2) :=
  ⟨⟨{ State.reset with rst := true }, by decide⟩, ⟨State.reset, by decide⟩,
    ⟨{ State.reset with status := .busy }, by decide⟩, ⟨{ State.reset with cmd := some 1 }, by decide⟩,
    ⟨{ State.reset with cmd := some 2 }, by decide⟩, ⟨{ State.reset with status := .busy, cmd := some 2 }, by decide⟩,
    ⟨{ State.reset with cmd := some 0 }, by decide⟩, ⟨{ State.reset with cmd := some 3 }, by decide⟩⟩

theorem witness_RefusedCommandStarts :
    (∃ s : State, s.status ≠ .busy ∧ s.ibufFits s.len = false ∧ exec .decode s = .refused .inputCapacity ∧
      exec .encode s = .refused .inputCapacity) ∧
    (∃ s : State, s.status ≠ .busy ∧ s.ibufFits s.len = true ∧ 2 ^ 32 ≤ s.len) :=
  ⟨⟨capIn (loaded (hdrBytes 1)) 15, by decide, by decide, rfl, rfl⟩,
    ⟨{ State.reset with inLen := 0x100000000 }, by decide⟩⟩

theorem witness_HostAccessRules :
    (∃ s : State, s.status = .busy ∧ s.err = .none) ∧ (∃ s : State, s.status = .fault ∧ s.cmd = some 1#2) ∧
    (∃ s : State, s.status = .done ∧ s.cmd = none ∧ 0 < s.outLen.toNat ∧ Memory.read s.obuf 0 = some 0x41 ∧
      s.hostReadReg .dlen = .ok 1) ∧
    (∃ s : State, s.status = .fault ∧ s.cmd = none ∧ s.hostReadReg .err = .ok 2) ∧
    (∃ s : State, s.status ≠ .busy ∧ s.cmd = none ∧ s.ibufFits (0 + 1) = true ∧ 0 < (1#64).toNat) :=
  ⟨⟨decodingAt .dToken 18 1 [] [], by decide⟩, ⟨(State.reset.takeFault .truncated).hostWriteCmd 1, by decide⟩,
    ⟨{ decodingAt .idle 18 1 [] [0x41] with status := .done, outLen := 1 }, by decide, by decide, by decide, by decide, rfl⟩,
    ⟨State.reset.takeFault .truncated, by decide⟩,
    ⟨capIn State.reset 1, by decide⟩⟩

/-- R22: once DECODE is requested, a write of 0 does not cancel it and a write of 2 does not replace it. -/
theorem test_cmd_first_write_counts :
    [0#2, 1#2, 2#2, 3#2].map (fun c => (((State.reset.hostWriteCmd 1#2).hostWriteCmd c).cmd)) =
      [some 1#2, some 1#2, some 1#2, some 1#2] := by decide

/-- R78: from the CMD write on, IBUF and IN_LEN take no write. -/
theorem test_cmd_write_closes_the_input :
    (State.reset.hostWriteCmd 1#2).hostWriteInLen 5 = .error .hostWhileBusy ∧
      (State.reset.hostWriteCmd 1#2).hostWriteIbuf 0 5 = .error .hostWhileBusy := by decide

theorem witness_StepRunsTheDecodedInstruction :
    (∃ s : State, s.Undisturbed ∧ s.phase = fetchPhase (.token false) ∧
      decode s.cfg.magic (.token false) (s.inputPrefix (s.fetchAddr (.token false)) 16) = .ok (.brefS 1 0x003, [])) ∧
    (∃ s : State, s.Undisturbed ∧ s.phase = fetchPhase .control ∧ s.dec.pos < s.dec.dlen ∧
      decode s.cfg.magic .control (s.inputPrefix (s.fetchAddr .control) 16) = .ok (.ctrl 0xE0, [])) :=
  ⟨⟨decodingAt .dBref 21 11 [0x10, 0x03] [0x61, 0x62, 0x63, 0x58], by decide⟩,
    ⟨decodingAt .dGroup 16 3 [0xE0] [], by decide⟩⟩

theorem witness_StepRunsThePhasesOperation :
    (∃ s : State, s.Undisturbed ∧ s.phase = .dGroup ∧ s.inputAt s.dec.src = some 0xE0) ∧
    (∃ s : State, s.Undisturbed ∧ s.phase = .dLit ∧ s.inputAt s.dec.src = some 0x41) ∧
    (∃ s : State, s.Undisturbed ∧ s.phase = .dBref ∧ s.inputAt s.dec.src = some 0x10 ∧
      s.inputAt (s.dec.src + 1) = some 0x03 ∧ 1 ≤ (0x10#8).toNat / 16) ∧
    (∃ s : State, s.Undisturbed ∧ s.phase = .dBref ∧ s.inputAt s.dec.src = some 0x0F ∧
      s.inputAt (s.dec.src + 1) = some 0x03 ∧ (0x0F#8).toNat / 16 = 0 ∧ s.inputAt (s.dec.src + 2) = some 0x00) ∧
    (∀ p : Phase, p = .idle ∨ p = .dHdr ∨ p = .dToken ∨ p = .dCopy ∨ p = .eHdr ∨ p = .eScan ∨ p = .eFinal →
      ∃ s : State, s.Undisturbed ∧ s.phase = p) :=
  ⟨⟨decodingAt .dGroup 16 3 [0xE0] [], by decide⟩, ⟨decodingAt .dLit 17 3 [0x41] [], by decide⟩,
    ⟨decodingAt .dBref 17 3 [0x10, 0x03] [], by decide⟩, ⟨decodingAt .dBref 17 3 [0x0F, 0x03, 0x00] [], by decide⟩,
    fun p _ => ⟨{ State.reset with phase := p }, ⟨rfl, rfl⟩, rfl⟩⟩

/-! ### States with the invariant -/

/-- A state in FAULT. -/
def faulted : State := { loaded (hdrBytes 1) with status := .fault, err := .badMagic }

theorem faulted_inv : faulted.Inv := by
  constructor
  all_goals first
    | decide
    | exact nofun

/-- A decode path in the middle of H1, about to take its literal. -/
def midLiteral : State := { loaded (hdrBytes 1 ++ [0x80, 0x41]) with
  status := .busy, phase := .dLit, dlenR := 1
  dec := { State.reset.dec with src := 17, dlen := 1, bitsLeft := 7 } }

theorem midLiteral_inv : midLiteral.Inv := by
  constructor
  case decoding => intro _; constructor <;> decide
  all_goals first
    | decide
    | exact nofun

/-- The same with the literal missing (L4). -/
def cutLiteral : State := { loaded (hdrBytes 1 ++ [0x80]) with
  status := .busy, phase := .dLit, dlenR := 1
  dec := { State.reset.dec with src := 17, dlen := 1, bitsLeft := 7 } }

theorem cutLiteral_inv : cutLiteral.Inv := by
  constructor
  case decoding => intro _; constructor <;> decide
  all_goals first
    | decide
    | exact nofun

/-- A copy in progress (D-O1). -/
def midCopy : State := { loaded (hdrBytes 6 ++ [0x80, 0x41, 0x30, 0x00]) with
  status := .busy, phase := .dCopy, dlenR := 6, obuf := [(0, 0x41)]
  dec := { State.reset.dec with src := 20, pos := 1, dlen := 6, bitsLeft := 6, distance := 1, length := 5, cnt := 5 } }

theorem midCopy_inv : midCopy.Inv := by
  constructor
  case decoding => intro _; constructor <;> decide
  all_goals first
    | decide
    | exact nofun

/-- A scan in progress (E-TIE at position 8), with six tokens staged. -/
def midScan : State := (encodingAt .eScan abcXabcYabc 8).setGrp
  { State.reset.grp with ctrl := 0xF4, cnt := 6, len := 7 }

theorem midScan_inv : midScan.Inv := by
  constructor
  case scanning => intro _; constructor <;> decide
  all_goals first
    | decide
    | exact nofun

/-- A command whose header is to be parsed, and one whose header OBUF cannot hold. -/
def atHeader : State := { loaded (hdrBytes 1 ++ [0x80, 0x41]) with status := .busy, phase := .dHdr }

theorem atHeader_inv : (capOut atHeader 0).Inv := by
  constructor
  all_goals first
    | decide
    | exact nofun

theorem witness_FaultIsTerminal : faulted.Inv ∧ faulted.Undisturbed ∧ faulted.status = .fault :=
  ⟨faulted_inv, by decide, rfl⟩

theorem witness_StepKeepsTheInvariant :
    (midLiteral.Inv ∧ ∃ t, step midLiteral = .next t) ∧ (midScan.Inv ∧ ∃ t, step midScan = .next t) :=
  ⟨⟨midLiteral_inv, _, rfl⟩, midScan_inv, _, rfl⟩

theorem witness_CoreNeverWritesItsInput : (∃ t, exec .eStep midScan = .next t) ∧ Instr.eStep ≠ .reset :=
  ⟨⟨_, rfl⟩, nofun⟩

theorem witness_PathsShareNoDatapathRegister :
    (midLiteral.Undisturbed ∧ (∃ t, step midLiteral = .next t) ∧ midLiteral.phase.decoding = true) ∧
    (midScan.Undisturbed ∧ (∃ t, step midScan = .next t) ∧ midScan.phase.scanning = true) ∧
    (atHeader.Undisturbed ∧ (∃ t, step atHeader = .next t) ∧ atHeader.phase = .dHdr) :=
  ⟨⟨by decide, ⟨_, rfl⟩, rfl⟩, ⟨by decide, ⟨_, rfl⟩, rfl⟩, by decide, ⟨_, rfl⟩, rfl⟩

theorem witness_DecoderStepsAreBounded :
    midCopy.Inv ∧ midCopy.Undisturbed ∧ midCopy.phase.decoding = true ∧ ∃ t, step midCopy = .next t :=
  ⟨midCopy_inv, by decide, rfl, _, rfl⟩

theorem witness_CommandsFaultAsSpecified :
    (cutLiteral.Inv ∧ cutLiteral.Undisturbed ∧ cutLiteral.phase ≠ .idle ∧ cutLiteral.phase.decoding = true ∧
      ∃ t, step cutLiteral = .next t ∧ t.status = .fault) ∧
    (midScan.Inv ∧ midScan.Undisturbed ∧ midScan.phase ≠ .idle ∧ midScan.phase.scanning = true ∧
      ∃ t, step midScan = .next t) :=
  ⟨⟨cutLiteral_inv, by decide, by decide, rfl, _, rfl, rfl⟩, midScan_inv, by decide, by decide, rfl, _, rfl⟩

theorem witness_EveryStepCompletes :
    (midCopy.Inv ∧ midCopy.InputLoaded) ∧
    ((capIn (faulted.hostWriteCmd 2#2) 16).Inv ∧ (faulted.hostWriteCmd 2#2).cmd = some 2#2 ∧
      (faulted.hostWriteCmd 2#2).status ≠ .busy ∧ (capIn faulted 16).ibufFits faulted.len = true ∧ faulted.len < 2 ^ 32) ∧
    ((capOut atHeader 1).Inv ∧ (capOut atHeader 1).InputLoaded ∧ (∀ d, (capOut atHeader 1).Declares d →
      (capOut atHeader 1).obufFits d = true)) ∧
    (midScan.Inv ∧ midScan.InputLoaded ∧ midScan.phase.scanning = true ∧
      (capOut midScan 29).obufFits (16 + midScan.len + (midScan.len + 7) / 8) = true) := by
  refine ⟨⟨midCopy_inv, by decide⟩, ⟨?_, by decide⟩, ⟨?_, by decide, fun d h => ?_⟩, midScan_inv, by decide⟩
  · constructor
    all_goals first
      | decide
      | exact nofun
  · constructor
    all_goals first
      | decide
      | exact nofun
  · obtain ⟨l0, l1, l2, l3, h0, h1, h2, h3, rfl⟩ := h
    cases h0; cases h1; cases h2; cases h3
    decide

/-- A declared length and a full group that OBUF does not hold (the group would end at address 27), a request whose input IBUF
does not hold, and an ENCODE request of 2^32 bytes. -/
theorem witness_StepsAreRefusedForCapacityOnly :
    (∃ s : State, s.Inv ∧ step s = .refused .outputCapacity ∧ s.phase = .dHdr) ∧
    (∃ s : State, s.Inv ∧ step s = .refused .inputCapacity) ∧
    (∃ s : State, s.Inv ∧ step s = .refused .inputTooLong) ∧
    (∃ s : State, s.Inv ∧ step s = .refused .outputCapacity ∧ s.phase = .eScan) := by
  refine ⟨⟨capOut atHeader 0, atHeader_inv, rfl, rfl⟩, ⟨capIn (faulted.hostWriteCmd 1#2) 15, ?_, rfl⟩,
    ⟨{ State.reset with inLen := 0x100000000, cmd := some 2 }, ?_, rfl⟩,
    ⟨capOut (midScan.setGrp { State.reset.grp with ctrl := 0xF4, cnt := 7, len := 8 }) 24, ?_, rfl, rfl⟩⟩
  · constructor
    all_goals first
      | decide
      | exact nofun
  · constructor
    all_goals first
      | decide
      | exact nofun
  · constructor
    case scanning => intro _; constructor <;> decide
    all_goals first
      | decide
      | exact nofun

theorem witness_IllFormedTermsAreRefused :
    (Instr.brefS 0#4 0#12).wf = false ∧ (Instr.emitBrefS 0#12 2).wf = false ∧ (Instr.emitBrefX 0#12 274).wf = false := by
  decide

theorem witness_DecodeCommandComputesDecode :
    ∃ s0, (loaded (hdrBytes 1 ++ [0x80, 0x41])).Undisturbed ∧ (loaded (hdrBytes 1 ++ [0x80, 0x41])).status ≠ .busy ∧
      (loaded (hdrBytes 1 ++ [0x80, 0x41])).HasInput (hdrBytes 1 ++ [0x80, 0x41]) ∧
      (loaded (hdrBytes 1 ++ [0x80, 0x41])).cfg.obufCap = none ∧
      exec .decode (loaded (hdrBytes 1 ++ [0x80, 0x41])) = .next s0 :=
  ⟨_, by decide, by decide, by decide, rfl, rfl⟩

theorem witness_EncodeCommandComputesEncode :
    ∃ s0, (loaded abcXabcYabc).Undisturbed ∧ (loaded abcXabcYabc).status ≠ .busy ∧
      (loaded abcXabcYabc).HasInput abcXabcYabc ∧ (loaded abcXabcYabc).cfg.obufCap = none ∧
      exec .encode (loaded abcXabcYabc) = .next s0 :=
  ⟨_, by decide, by decide, by decide, rfl, rfl⟩

theorem witness_DecodeOfEncodeIsTheInput : abcXabcYabc.length < 2 ^ 32 := by decide

/-- H3's trailing bytes. -/
theorem witness_TrailingBytesAreIgnored : decodeFn Config.defaultMagic (hdrBytes 0) = .ok ⟨[], 0, 0, 0⟩ := by decide

/-- C1 and C2: E0 and FF agree on the first three bits. -/
theorem witness_UnusedControlBitsAreIgnored :
    3 ≤ 8 ∧ decodeTokens 3 (0xE0#8 >>> (8 - 3)) 3 [0x41, 0x42, 0x43] [] = .ok ([], [0x41, 0x42, 0x43]) ∧
      3 ≤ [0x41#8, 0x42#8, 0x43#8].length ∧
      ∀ b, b < 8 → 8 - 3 ≤ b → (0xE0#8).getLsbD b = (0xFF#8).getLsbD b := by decide

/-! ## The big-step functions on the vectors -/

/-- D-EQ. -/
theorem test_decodeFn : decodeFn Config.defaultMagic (hdrBytes 4 ++ [0x80, 0x41, 0x10, 0x00]) =
    .ok ⟨[0x41, 0x41, 0x41, 0x41], 4, 0, 0⟩ := by decide +kernel
/-- F-O1. -/
theorem test_decodeFn_overrun : decodeFn Config.defaultMagic (hdrBytes 3 ++ [0x80, 0x41, 0x10, 0x00]) =
    .error .lengthOverrun := by decide
/-- E-A4. -/
theorem test_encodeFn : encodeFn Config.defaultMagic [0x41, 0x41, 0x41, 0x41] = hdrBytes 4 ++ [0x80, 0x41, 0x10, 0x00] := by
  rfl

end Sys2Proof.Tests
end

section
/-! PROOF. The decode tree of R94 branch by branch, and the operands of R98 as numbers of the bytes read. -/

namespace Sys2Proof.Machine

theorem decode_short (m : Magic) {b0 : Byte} (b1 : Byte) (rest : List Byte) (hn : highNibble b0 ≠ 0#4) :
    decode m (.token false) (b0 :: b1 :: rest) = .ok (.brefS (highNibble b0) (distField b0 b1), rest) :=
  if_neg hn

theorem decode_extended (m : Magic) {b0 : Byte} (b1 e : Byte) (rest : List Byte) (hn : highNibble b0 = 0#4) :
    decode m (.token false) (b0 :: b1 :: e :: rest) = .ok (.brefX (distField b0 b1) e, rest) :=
  if_pos hn

theorem distanceOf_distField (b0 b1 : Byte) : distanceOf (distField b0 b1) = (b0.toNat % 16) * 256 + b1.toNat + 1 := by
  rw [distanceOf, distField_toNat]

theorem shortLength_highNibble (b0 : Byte) : shortLength (highNibble b0) = b0.toNat / 16 + 2 := by
  rw [shortLength, highNibble_toNat]

/-- R98, the 2-byte form. -/
theorem backRefOperands_short (b0 b1 : Byte) :
    backRefOperands (.brefS (highNibble b0) (distField b0 b1)) =
      some ((b0.toNat % 16) * 256 + b1.toNat + 1, b0.toNat / 16 + 2) := by
  rw [backRefOperands, distanceOf_distField, shortLength_highNibble]

/-- R98, the 3-byte form. -/
theorem backRefOperands_extended (b0 b1 e : Byte) :
    backRefOperands (.brefX (distField b0 b1) e) = some ((b0.toNat % 16) * 256 + b1.toNat + 1, e.toNat + 18) := by
  rw [backRefOperands, distanceOf_distField, extLength]

/-- Settles O4: control bytes and literals are read as they are, and with control bit 0 the high nibble, which
`highNibble_eq_zero_iff` reads as `b0 / 16`, selects the form. -/
theorem decodeTreeIsComplete : Obligations.DecodeTreeIsComplete := by
  intro m b0 b1 e rest
  refine ⟨rfl, rfl, fun hShort => ?_, fun hExtended => ?_⟩
  · have hn : highNibble b0 ≠ 0#4 := fun h0 => by
      have := (highNibble_eq_zero_iff b0).1 h0
      omega
    exact ⟨_, _, decode_short m b1 rest hn, highNibble_toNat b0, distField_toNat b0 b1, backRefOperands_short b0 b1⟩
  · have hn : highNibble b0 = 0#4 := (highNibble_eq_zero_iff b0).2 hExtended
    exact ⟨_, decode_extended m b1 e rest hn, distField_toNat b0 b1, backRefOperands_extended b0 b1 e⟩

end Sys2Proof.Machine
end

section
/-! PROOF. The header unit (spec/40_frame_header.md): what HDR.PARSE ends in at each point of R121's order of checks, and
the state HDR.EMIT leaves. -/

namespace Sys2Proof.Machine

/-- The first four input bytes can be read, and they are `m`. -/
abbrev State.TagReads (s : State) (m : Magic) : Prop :=
  s.inputAt 0 = some m.m0 ∧ s.inputAt 1 = some m.m1 ∧ s.inputAt 2 = some m.m2 ∧ s.inputAt 3 = some m.m3

theorem Magic.bytes_inj {m m' : Magic} : m.bytes = m'.bytes ↔ m = m' := by
  cases m
  cases m'
  simp [Magic.bytes]

theorem State.TagReads.four_le_len {s : State} {m : Magic} (h : s.TagReads m) : 4 ≤ s.len :=
  State.inputAt_lt h.2.2.2

theorem State.TagReads.inputTag {s : State} {m : Magic} (h : s.TagReads m) : s.inputTag = .ok m.bytes := by
  obtain ⟨h0, h1, h2, h3⟩ := h
  rw [State.inputTag, State.inputByte_of_some h0, ok_bind, State.inputByte_of_some h1, ok_bind,
    State.inputByte_of_some h2, ok_bind, State.inputByte_of_some h3, ok_bind]
  rfl

theorem State.inputWord_of_some {s : State} {a : Nat} {b0 b1 b2 b3 : Byte} (h0 : s.inputAt a = some b0)
    (h1 : s.inputAt (a + 1) = some b1) (h2 : s.inputAt (a + 2) = some b2) (h3 : s.inputAt (a + 3) = some b3) :
    s.inputWord a = .ok (be32 b0 b1 b2 b3) := by
  rw [State.inputWord, State.inputByte_of_some h0, ok_bind, State.inputByte_of_some h1, ok_bind,
    State.inputByte_of_some h2, ok_bind, State.inputByte_of_some h3, ok_bind]
  rfl

theorem headerParsed_of_fits {s : State} {d : Word32} (r0 r1 : Word32) (h : s.obufFits d.toNat = true) :
    headerParsed d r0 r1 s = .ok (s.withHeader d r0 r1) :=
  if_pos h

/-- R120's frame. -/
theorem State.withHeader_keeps (s : State) (d r0 r1 : Word32) :
    KeepsInputs s (s.withHeader d r0 r1) ∧ KeepsEncoder s (s.withHeader d r0 r1) ∧ KeepsOutput s (s.withHeader d r0 r1) := by
  simp [KeepsInputs, KeepsEncoder, KeepsOutput]

/-! ## HDR.PARSE, check by check -/

theorem exec_hdrParse (s : State) : exec .hdrParse s = settle s (opHdrParse s) := rfl

/-- R121, the first check: nothing is compared. -/
theorem opHdrParse_of_len_lt_four {s : State} (h : s.len < 4) : opHdrParse s = .error (.raise .truncated) :=
  if_pos h

/-- R121, the second check: the length of what follows the tag does not matter. -/
theorem opHdrParse_of_tag_ne {s : State} {m : Magic} (ht : s.TagReads m) (hm : m ≠ s.cfg.magic) :
    opHdrParse s = .error (.raise .badMagic) := by
  rw [opHdrParse, if_neg (Nat.not_lt.2 ht.four_le_len), ht.inputTag, ok_bind, if_pos (mt Magic.bytes_inj.1 hm)]

/-- R121, the third check: the tag is there, and the header is not whole. -/
theorem opHdrParse_of_len_lt_header {s : State} (ht : s.TagReads s.cfg.magic) (h : s.len < 16) :
    opHdrParse s = .error (.raise .truncated) := by
  rw [opHdrParse, if_neg (Nat.not_lt.2 ht.four_le_len), ht.inputTag, ok_bind, if_neg (not_not.2 rfl), if_pos h]

/-- R120: the checks passed, the three words make the parsed header. -/
theorem opHdrParse_of_words {s : State} {d r0 r1 : Word32} (ht : s.TagReads s.cfg.magic) (hl : 16 ≤ s.len)
    (hd : s.inputWord 4 = .ok d) (h0 : s.inputWord 8 = .ok r0) (h1 : s.inputWord 12 = .ok r1)
    (hf : s.obufFits d.toNat = true) : opHdrParse s = .ok (s.withHeader d r0 r1) := by
  rw [opHdrParse, if_neg (Nat.not_lt.2 ht.four_le_len), ht.inputTag, ok_bind, if_neg (not_not.2 rfl),
    if_neg (Nat.not_lt.2 hl), hd, ok_bind, h0, ok_bind, h1, ok_bind, headerParsed_of_fits r0 r1 hf]

/-- Settles O7: one lemma for each point of R121's order at which HDR.PARSE can end. -/
theorem hdrParseChecksThenReads : Obligations.HdrParseChecksThenReads := by
  intro s
  refine ⟨fun hl => ?_, fun m0 m1 m2 m3 h0 h1 h2 h3 => ⟨fun hm => ?_, fun hm hl => ?_⟩, fun b hl hb hm hf => ?_⟩
  · rw [exec_hdrParse, opHdrParse_of_len_lt_four hl, settle_raise]
  · have ht : s.TagReads ⟨m0, m1, m2, m3⟩ := ⟨h0, h1, h2, h3⟩
    rw [exec_hdrParse, opHdrParse_of_tag_ne ht hm, settle_raise]
  · have ht : s.TagReads s.cfg.magic := hm ▸ ⟨h0, h1, h2, h3⟩
    rw [exec_hdrParse, opHdrParse_of_len_lt_header ht hl, settle_raise]
  · have hin (a : Nat) (ha : a < 16) : s.inputAt a = some (b a) :=
      (State.inputAt_of_lt (Nat.lt_of_lt_of_le ha hl)).trans (hb a ha)
    have hword (a : Nat) (ha : a + 3 < 16) : s.inputWord a = .ok (be32 (b a) (b (a + 1)) (b (a + 2)) (b (a + 3))) :=
      State.inputWord_of_some (hin _ (by omega)) (hin _ (by omega)) (hin _ (by omega)) (hin _ ha)
    have ht : s.TagReads s.cfg.magic :=
      hm ▸ ⟨hin 0 (by omega), hin 1 (by omega), hin 2 (by omega), hin 3 (by omega)⟩
    rw [← be32_toNat] at hf
    have hop := opHdrParse_of_words ht hl (hword 4 (by omega)) (hword 8 (by omega)) (hword 12 (by omega)) hf
    exact ⟨_, settle_of_ok hop, be32_toNat .., be32_toNat .., be32_toNat .., rfl, rfl, rfl, rfl, rfl,
      State.withHeader_keeps ..⟩

/-! ## HDR.EMIT -/

/-- Settles O9: the state of `opHdrEmit_spec`, its OBUF read back through the header's 16 bytes. -/
theorem hdrEmitWritesTheHeader : Obligations.HdrEmitWritesTheHeader := by
  intro s hlen hfits
  refine ⟨_, settle_of_ok (opHdrEmit_spec hlen hfits), outputHas_of_writeList ?_, ?_⟩
  · simp [headerBytes_eq]
  · simp [Group.cleared, KeepsInputs, KeepsResult]

end Sys2Proof.Machine
end

section
/-! PROOF. The decode path (spec/41_decoder.md): what each operation ends in at each point of its order of checks, and the
frame of its own effect. -/

namespace Sys2Proof.Machine

variable {s : State}

/-! ## Faults -/

theorem settle_of_raise {o : Op} {f : FaultKind} (h : o = .error (.raise f)) : settle s o = .next (s.takeFault f) := by
  rw [h, settle_raise]

/-- R239: what a raised fault leaves is what the statements ask of one. -/
theorem takesFault_of_raise {o : Op} {f : FaultKind} (h : o = .error (.raise f)) : TakesFault s f (settle s o) :=
  ⟨_, settle_of_raise h, by simp [KeepsInputs, KeepsEncoder, KeepsOutput]⟩

/-! ## The frame -/

/-- The datapath registers and the phase are all that such a state changes. -/
theorem State.setDec_setPhase_keeps (s : State) (d : DecRegs) (p : Phase) :
    KeepsInputs s ((s.setDec d).setPhase p) ∧ KeepsResult s ((s.setDec d).setPhase p) ∧
      KeepsEncoder s ((s.setDec d).setPhase p) ∧ KeepsOutput s ((s.setDec d).setPhase p) := by
  simp [KeepsInputs, KeepsResult, KeepsEncoder, KeepsOutput]

/-! ## BREF.CHECK -/

/-- R146, the first check: the length does not matter. -/
theorem opBrefCheck_of_distance (h : s.dec.pos < s.dec.distance) : opBrefCheck s = .error (.raise .invalidDistance) :=
  if_pos (State.distanceBeforeStart_iff.2 h)

/-- R146, the second check. -/
theorem opBrefCheck_of_length (hd : s.dec.distance ≤ s.dec.pos) (hl : s.dec.dlen < s.dec.pos + s.dec.length) :
    opBrefCheck s = .error (.raise .lengthOverrun) := by
  rw [opBrefCheck, if_neg (mt State.distanceBeforeStart_iff.1 (Nat.not_lt.2 hd)), if_pos (State.lengthPastEnd_iff.2 hl)]

/-- R146: a legal reference starts the copy. -/
theorem opBrefCheck_of_legal (hd : s.dec.distance ≤ s.dec.pos) (hl : s.dec.pos + s.dec.length ≤ s.dec.dlen) :
    opBrefCheck s = .ok ((s.setDec { s.dec with cnt := s.dec.length }).setPhase .dCopy) := by
  rw [opBrefCheck, if_neg (mt State.distanceBeforeStart_iff.1 (Nat.not_lt.2 hd)),
    if_neg (mt State.lengthPastEnd_iff.1 (Nat.not_lt.2 hl))]

/-- Settles O15: one lemma for each way through R146's checks. -/
theorem brefCheckTestsDistanceThenLength : Obligations.BrefCheckTestsDistanceThenLength := by
  intro s
  refine ⟨fun hd => ?_, fun hd hl => ?_, fun hd hl => ?_⟩
  · exact settle_of_raise (opBrefCheck_of_distance hd)
  · exact settle_of_raise (opBrefCheck_of_length hd hl)
  · exact ⟨_, settle_of_ok (opBrefCheck_of_legal hd hl), rfl, rfl, State.setDec_setPhase_keeps ..⟩

/-! ## BREF.S and BREF.X -/

/-- The operands of a BREF.S in their latches, its two bytes consumed (R144). -/
def State.latchShort (s : State) (n : BitVec 4) (D : BitVec 12) : State :=
  s.setDec { s.dec with
    b0 := codeByte0 n D
    b1 := codeByte1 D
    n := n
    distance := distanceOf D
    length := shortLength n
    src := s.dec.src + 2 }

/-- The operands of a BREF.X in their latches, its three bytes consumed (R145). -/
def State.latchExtended (s : State) (D : BitVec 12) (e : Byte) : State :=
  s.setDec { s.dec with
    b0 := codeByte0 0#4 D
    b1 := codeByte1 D
    n := 0#4
    extra := e
    distance := distanceOf D
    length := extLength e
    src := s.dec.src + 3 }

theorem opBrefS_of_missing {n : BitVec 4} (D : BitVec 12) (hn : n ≠ 0#4) (hl : s.len < s.dec.src + 2) :
    opBrefS n D s = .error (.raise .truncated) := by
  rw [opBrefS, if_neg hn, if_pos (State.codeMissing_iff.2 hl)]

/-- R144 goes on to R146 once both bytes are there. -/
theorem opBrefS_of_present {n : BitVec 4} (D : BitVec 12) (hn : n ≠ 0#4) (hl : s.dec.src + 2 ≤ s.len) :
    opBrefS n D s = opBrefCheck (s.latchShort n D) := by
  rw [opBrefS, if_neg hn, if_neg (mt State.codeMissing_iff.1 (Nat.not_lt.2 hl)), State.latchShort]

/-- R145, R238: a code byte or the third byte is missing; the fault is the same. -/
theorem opBrefX_of_missing (D : BitVec 12) (e : Byte) (hl : s.len < s.dec.src + 3) :
    opBrefX D e s = .error (.raise .truncated) := by
  rw [opBrefX]
  by_cases hcode : s.len < s.dec.src + 2
  · rw [if_pos (State.codeMissing_iff.2 hcode)]
  · rw [if_neg (mt State.codeMissing_iff.1 hcode), if_pos (State.extraMissing_iff.2 (Nat.le_of_lt_succ hl))]

/-- R145 goes on to R146 once all three bytes are there. -/
theorem opBrefX_of_present (D : BitVec 12) (e : Byte) (hl : s.dec.src + 3 ≤ s.len) :
    opBrefX D e s = opBrefCheck (s.latchExtended D e) := by
  rw [opBrefX, if_neg (mt State.codeMissing_iff.1 (by omega)), if_neg (mt State.extraMissing_iff.1 (by omega)),
    State.latchExtended]

/-- Settles O13: Truncated before the latch, and after it BREF.CHECK's three ways. -/
theorem shortBackReferenceStartsTheCopy : Obligations.ShortBackReferenceStartsTheCopy := by
  intro s n D hn
  refine ⟨fun hl => ?_, fun hl hd => ?_, fun hl hd ho => ?_, fun hl hd ho => ?_⟩
  · exact takesFault_of_raise (opBrefS_of_missing D hn hl)
  · exact takesFault_of_raise ((opBrefS_of_present D hn hl).trans (opBrefCheck_of_distance hd))
  · exact takesFault_of_raise ((opBrefS_of_present D hn hl).trans (opBrefCheck_of_length hd ho))
  · exact ⟨_, settle_of_ok ((opBrefS_of_present D hn hl).trans (opBrefCheck_of_legal hd ho)), rfl, rfl,
      codeByte0_toNat n D, codeByte1_toNat D, State.setDec_setPhase_keeps s ..⟩

theorem codeByte0_zero_toNat (D : BitVec 12) : (codeByte0 0#4 D).toNat = D.toNat / 256 := by
  simp [codeByte0_toNat]

/-- Settles O14: Truncated before the latch, whatever the distance, and after it BREF.CHECK's three ways. -/
theorem extendedBackReferenceStartsTheCopy : Obligations.ExtendedBackReferenceStartsTheCopy := by
  intro s D e
  refine ⟨fun hl => ?_, fun hl hd => ?_, fun hl hd ho => ?_, fun hl hd ho => ?_⟩
  · exact takesFault_of_raise (opBrefX_of_missing D e hl)
  · exact takesFault_of_raise ((opBrefX_of_present D e hl).trans (opBrefCheck_of_distance hd))
  · exact takesFault_of_raise ((opBrefX_of_present D e hl).trans (opBrefCheck_of_length hd ho))
  · exact ⟨_, settle_of_ok ((opBrefX_of_present D e hl).trans (opBrefCheck_of_legal hd ho)), rfl, rfl,
      codeByte0_zero_toNat D, codeByte1_toNat D, State.setDec_setPhase_keeps s ..⟩

/-! ## CTRL -/

/-- R141: nothing is owed, so no control byte is fetched. -/
theorem opCtrl_of_complete (c : Byte) (h : s.dec.dlen ≤ s.dec.pos) : opCtrl c s = .ok s.completeDecode :=
  if_pos (State.outputComplete_iff.2 h)

theorem opCtrl_of_exhausted (c : Byte) (hp : s.dec.pos < s.dec.dlen) (hl : s.len ≤ s.dec.src) :
    opCtrl c s = .error (.raise .truncated) := by
  rw [opCtrl, if_neg (mt State.outputComplete_iff.1 (Nat.not_le.2 hp)), if_pos (State.inputExhausted_iff.2 hl)]

/-- R141: the control byte and its eight bits. -/
theorem opCtrl_of_owed (c : Byte) (hp : s.dec.pos < s.dec.dlen) (hl : s.dec.src < s.len) :
    opCtrl c s = .ok ((s.setDec { s.dec with ctrl := c, bitsLeft := 8, src := s.dec.src + 1 }).setPhase .dToken) := by
  rw [opCtrl, if_neg (mt State.outputComplete_iff.1 (Nat.not_le.2 hp)),
    if_neg (mt State.inputExhausted_iff.1 (Nat.not_le.2 hl))]

/-- Settles O10: one lemma for each way through R141's tests. -/
theorem ctrlLoadsTheControlByte : Obligations.CtrlLoadsTheControlByte := by
  intro s c
  refine ⟨fun hp => ?_, fun hp hl => ?_, fun hp hl => ?_⟩
  · exact settle_of_ok (opCtrl_of_complete c hp)
  · exact settle_of_raise (opCtrl_of_exhausted c hp hl)
  · exact ⟨_, settle_of_ok (opCtrl_of_owed c hp hl), rfl, rfl, State.setDec_setPhase_keeps ..⟩

/-! ## DISPATCH -/

/-- R142: nothing is owed, whatever bits are unused. -/
theorem opDispatch_of_complete (h : s.dec.dlen ≤ s.dec.pos) : opDispatch s = .ok s.completeDecode :=
  if_pos (State.outputComplete_iff.2 h)

theorem opDispatch_of_no_bits (hp : s.dec.pos < s.dec.dlen) (hb : s.dec.bitsLeft = 0) :
    opDispatch s = .ok (s.setPhase .dGroup) := by
  rw [opDispatch, if_neg (mt State.outputComplete_iff.1 (Nat.not_le.2 hp)), if_pos hb]

/-- R142: a bit is taken. -/
theorem opDispatch_of_bits (hp : s.dec.pos < s.dec.dlen) (hb : s.dec.bitsLeft ≠ 0) :
    opDispatch s = .ok ((s.setDec { s.dec with
      cbit := topBit s.dec.ctrl
      ctrl := s.dec.ctrl <<< 1
      bitsLeft := s.dec.bitsLeft - 1 }).setPhase (tokenPhase (topBit s.dec.ctrl))) := by
  rw [opDispatch, if_neg (mt State.outputComplete_iff.1 (Nat.not_le.2 hp)), if_neg hb]

/-- The control bit of R31 as a number: bit 7 weighs 128. -/
theorem topBit_eq_decide (c : Byte) : topBit c = decide (128 ≤ c.toNat) :=
  c.msb_eq_getLsbD_last.symm.trans c.msb_eq_decide

theorem shiftLeft_one_toNat (c : Byte) : (c <<< 1).toNat = (2 * c.toNat) % 256 := by
  rw [BitVec.toNat_shiftLeft, Nat.shiftLeft_eq, Nat.mul_comm]

/-- Settles O11: one lemma for each way through R142's tests, and the bit taken read as a number. -/
theorem dispatchTakesTheTopBit : Obligations.DispatchTakesTheTopBit := by
  intro s
  refine ⟨fun hp => ?_, fun hp hb => ?_, fun hp hb => ?_⟩
  · exact settle_of_ok (opDispatch_of_complete hp)
  · exact settle_of_ok (opDispatch_of_no_bits hp hb)
  · refine ⟨_, settle_of_ok (opDispatch_of_bits hp hb), fun hc => ?_, fun hc => ?_, shiftLeft_one_toNat _, rfl,
      State.setDec_setPhase_keeps ..⟩
    · have hbit : topBit s.dec.ctrl = true := by rw [topBit_eq_decide, decide_eq_true hc]
      simp [hbit, tokenPhase]
    · have hbit : topBit s.dec.ctrl = false := by rw [topBit_eq_decide, decide_eq_false (Nat.not_le.2 hc)]
      simp [hbit, tokenPhase]

/-! ## LIT -/

theorem opLit_of_exhausted (v : Byte) (h : s.len ≤ s.dec.src) : opLit v s = .error (.raise .truncated) :=
  if_pos (State.inputExhausted_iff.2 h)

/-- R143: the byte is stored. -/
theorem opLit_of_fits (v : Byte) (hl : s.dec.src < s.len) (hf : s.obufFits (s.dec.pos + 1) = true) :
    opLit v s = .ok (((s.setObuf (Memory.writeList s.obuf s.dec.pos [v])).setDec
      { s.dec with src := s.dec.src + 1, pos := s.dec.pos + 1 }).setPhase .dToken) := by
  rw [opLit, if_neg (mt State.inputExhausted_iff.1 (Nat.not_le.2 hl)), State.writeOut_of_fits (vs := [v]) hf, ok_bind]

/-- Settles O12: one lemma for each way through R143, and OBUF read back around the stored byte. -/
theorem litCopiesOneByte : Obligations.LitCopiesOneByte := by
  intro s v
  refine ⟨fun hl => ?_, fun hl hf => ?_⟩
  · exact settle_of_raise (opLit_of_exhausted v hl)
  · exact ⟨_, settle_of_ok (opLit_of_fits v hl hf), outputHas_of_writeList rfl, rfl, rfl,
      by simp [KeepsInputs, KeepsResult, KeepsEncoder]⟩

/-! ## REPLAY -/

theorem opReplay_of_cnt_zero (h : s.dec.cnt = 0) : opReplay s = .ok (s.setPhase .dToken) :=
  if_pos h

/-- R147: one byte of the copy. -/
theorem opReplay_of_read {v : Byte} (hc : s.dec.cnt ≠ 0) (hd : s.dec.distance ≤ s.dec.pos)
    (hf : s.obufFits (s.dec.pos + 1) = true) (hr : Memory.read s.obuf (s.dec.pos - s.dec.distance) = some v) :
    opReplay s = .ok ((s.setObuf (Memory.writeList s.obuf s.dec.pos [v])).setDec
      { s.dec with pos := s.dec.pos + 1, cnt := s.dec.cnt - 1 }) := by
  rw [opReplay, if_neg hc, if_neg (mt State.distanceBeforeStart_iff.1 (Nat.not_lt.2 hd)), State.outputByte_of_some hr,
    ok_bind, State.writeOut_of_fits (vs := [v]) hf, ok_bind]

/-- Settles O17: one lemma for each way through R147, and OBUF read back around the copied byte. -/
theorem replayCopiesOneByte : Obligations.ReplayCopiesOneByte := by
  intro s
  refine ⟨fun hc => ?_, fun v hc hd hf hr => ?_⟩
  · exact settle_of_ok (opReplay_of_cnt_zero hc)
  · exact ⟨_, settle_of_ok (opReplay_of_read hc hd hf hr), outputHas_of_writeList rfl, rfl, rfl,
      by simp [KeepsInputs, KeepsResult, KeepsEncoder]⟩

end Sys2Proof.Machine
end

section
/-! PROOF. The match finder (spec/42_match_finder.md): what WINDOW, MATCHLEN and SELECT answer for a loaded input, and the
frame of each. -/

namespace Sys2Proof.Machine

variable {s : State}

/-- The encoder's registers are all that such a state changes. -/
theorem State.setEnc_keeps (s : State) (e : EncRegs) :
    (s.setEnc e).phase = s.phase ∧ (s.setEnc e).dec = s.dec ∧ (s.setEnc e).grp = s.grp ∧ (s.setEnc e).draws = s.draws ∧
      KeepsInputs s (s.setEnc e) ∧ KeepsResult s (s.setEnc e) ∧ KeepsOutput s (s.setEnc e) := by
  simp [KeepsInputs, KeepsResult, KeepsOutput]

/-! ## WINDOW -/

theorem windowLo_of_lt {i : Nat} (h : i < 4096) : windowLo i = 0 := if_pos h

theorem windowLo_of_ge {i : Nat} (h : 4096 ≤ i) : windowLo i = i - 4096 := if_neg (Nat.not_lt.2 h)

/-- At a position inside the input at least its own byte may match. -/
theorem windowCap_pos {n i : Nat} (h : i < n) : 1 ≤ windowCap n i := by
  rcases windowCap_cases h.le with hc | hc <;> omega

/-- R171: the candidates are the starts at most 4096 bytes before `i`. -/
theorem candidate_iff (i x : Nat) : windowLo i ≤ x ∧ x < i ↔ x < i ∧ i ≤ x + 4096 := by
  rw [windowLo_le_iff, and_comm]

/-- Settles O20: the state of `opWindow_of_le`, by the bounds of `windowLo` and `windowCap`. -/
theorem windowIsThePrecedingBytes : Obligations.WindowIsThePrecedingBytes := by
  intro s hi
  exact ⟨_, settle_of_ok (opWindow_of_le hi.le), windowLo_of_lt, windowLo_of_ge, candidate_iff s.enc.i, windowCap_pos hi,
    windowCap_le .., windowCap_inside hi.le, windowCap_cases hi.le, rfl, State.setEnc_keeps ..⟩

/-! ## MATCHLEN -/

theorem State.read_of_inputAt {a : Nat} {v : Byte} (h : s.inputAt a = some v) : Memory.read s.ibuf a = some v :=
  (State.inputAt_of_lt (State.inputAt_lt h)).symm.trans h

theorem opMatchlen_of_count {k : Nat} (h : matchLen s.inputAt s.enc.cap s.enc.j s.enc.i = some k) :
    opMatchlen s = .ok (s.setEnc { s.enc with k := k }) := by
  simp only [opMatchlen, h]

/-- R172 in terms of IBUF: `k` equal bytes, and a difference where the limit is not reached. -/
theorem State.matchLen_ibuf {cap j i k : Nat} (h : matchLen s.inputAt cap j i = some k) :
    k ≤ cap ∧ (∀ x, x < k → Memory.read s.ibuf (j + x) = Memory.read s.ibuf (i + x)) ∧
      (k < cap → Memory.read s.ibuf (j + k) ≠ Memory.read s.ibuf (i + k)) := by
  obtain ⟨hcap, hequal, hdiffers⟩ := matchLen_spec h
  refine ⟨hcap, fun x hx => ?_, fun hk => ?_⟩
  · obtain ⟨v, hj, hi⟩ := hequal x hx
    rw [State.read_of_inputAt hj, State.read_of_inputAt hi]
  · obtain ⟨a, b, hj, hi, hab⟩ := hdiffers hk
    rw [State.read_of_inputAt hj, State.read_of_inputAt hi]
    exact mt Option.some.inj hab

/-- Settles O21: on a loaded input the comparison completes, and `State.matchLen_ibuf` says what it counted. -/
theorem matchlenIsTheLongestEqualRun : Obligations.MatchlenIsTheLongestEqualRun := by
  intro s hloaded hji hcap
  obtain ⟨k, hk⟩ := matchLen_total hloaded.inputAt hji.le hcap
  obtain ⟨hle, hequal, hdiffers⟩ := State.matchLen_ibuf hk
  exact ⟨_, settle_of_ok (opMatchlen_of_count hk), hle, hequal, hdiffers, rfl, State.setEnc_keeps ..⟩

/-! ## SELECT -/

/-- R173's maximum and nearest tie for a candidate named by its start `j`, which is at distance `i - j`. -/
theorem BestOf.longest_start {rd : Nat → Option Byte} {lo cap i j k : Nat} {b : Best} (h : BestOf rd cap i (i - lo) b)
    (hlo : lo ≤ j) (hji : j < i) (hk : matchLen rd cap j i = some k) :
    k ≤ b.len ∧ (k = b.len → 0 < k → b.dist ≤ i - j) :=
  h.longest (i - j) k (by omega) (by omega) (by rwa [Nat.sub_sub_self hji.le])

/-- Settles O22: on a loaded input the search completes, and its answer is R173's by `findBest_spec`. -/
theorem selectIsLongestThenNearest : Obligations.SelectIsLongestThenNearest := by
  intro s hloaded _ hcap
  obtain ⟨b, hb⟩ := findBest_total (lo := s.enc.lo) hloaded.inputAt hcap
  have hbest : BestOf s.inputAt s.enc.cap s.enc.i (s.enc.i - s.enc.lo) b := findBest_spec hb
  exact ⟨_, settle_of_ok (opSelect_of_find hb), fun _ _ => hbest.longest_start, hbest.attained, hbest.none, rfl,
    by simp [KeepsInputs, KeepsResult, KeepsOutput]⟩

end Sys2Proof.Machine
end

section
/-! PROOF. The emitter and packer (spec/43_emitter.md): the group each emitter operation leaves and its frame, the flushed
group in OBUF, and E.STEP with and without the flush. -/

namespace Sys2Proof.Machine

variable {s : State}

/-- The group is all that such a state changes. -/
theorem State.setGrp_keeps (s : State) (g : Group) :
    (s.setGrp g).enc = s.enc ∧ (s.setGrp g).dec = s.dec ∧ (s.setGrp g).phase = s.phase ∧ (s.setGrp g).draws = s.draws ∧
      KeepsInputs s (s.setGrp g) ∧ KeepsResult s (s.setGrp g) ∧ KeepsOutput s (s.setGrp g) := by
  simp [KeepsInputs, KeepsResult, KeepsOutput]

/-! ## PACK -/

/-- R197 bit by bit. -/
theorem Group.pack_ctrl_getLsbD {g : Group} (c : Bool) (hn : g.cnt < 8) (b : Nat) :
    (g.pack c).ctrl.getLsbD b = (g.ctrl.getLsbD b || (c && decide (b = 7 - g.cnt))) := by
  cases c with
  | false => simp
  | true => rw [Group.pack_true_ctrl, BitVec.getLsbD_or, packMask_getLsbD hn, Bool.true_and]

/-- Settles O25: the packed group, its control byte read bit by bit. -/
theorem packSetsItsOwnBit : Obligations.PackSetsItsOwnBit := by
  intro s c hn
  exact ⟨s.setGrp (s.grp.pack c), rfl, fun b _ => Group.pack_ctrl_getLsbD c hn b, rfl, State.setGrp_keeps ..⟩

/-! ## EMIT.LIT -/

/-- Settles O26: the group of `opEmitLit_spec`. -/
theorem emitLitStagesTheByte : Obligations.EmitLitStagesTheByte := by
  intro s v hroom
  obtain ⟨g, hop, hctrl, hcnt, hlen, hpayload⟩ := opEmitLit_spec v hroom
  rw [packMask_eq hroom.1] at hctrl
  exact ⟨_, settle_of_ok hop, hpayload, hlen, hcnt, hctrl, State.setGrp_keeps ..⟩

/-! ## EMIT.BREF.S and EMIT.BREF.X -/

theorem opEmitBrefS_of_range (D : BitVec 12) {l : Nat} (h1 : 3 ≤ l) (h2 : l ≤ 17) :
    opEmitBrefS D l s = s.stage (shortPayload D l) :=
  if_pos ⟨h1, h2⟩

theorem opEmitBrefX_of_range (D : BitVec 12) {l : Nat} (h1 : 18 ≤ l) (h2 : l ≤ 273) :
    opEmitBrefX D l s = s.stage (extPayload D l) :=
  if_pos ⟨h1, h2⟩

/-- Settles O28: the short form's payload staged. -/
theorem emitShortFormStagesTwoBytes : Obligations.EmitShortFormStagesTwoBytes := by
  intro s D l h1 h2 hfree
  obtain ⟨g, hop, hctrl, hcnt, hlen, hpayload⟩ := State.stage_spec (vs := shortPayload D l) hfree
  rw [shortPayload_eq D h1 h2] at hpayload
  exact ⟨_, settle_of_ok ((opEmitBrefS_of_range D h1 h2).trans hop), hpayload, hlen, hcnt, hctrl, State.setGrp_keeps ..⟩

/-- Settles O29: the extended form's payload staged. -/
theorem emitExtendedFormStagesThreeBytes : Obligations.EmitExtendedFormStagesThreeBytes := by
  intro s D l h1 h2 hfree
  obtain ⟨g, hop, hctrl, hcnt, hlen, hpayload⟩ := State.stage_spec (vs := extPayload D l) hfree
  rw [extPayload_eq] at hpayload
  exact ⟨_, settle_of_ok ((opEmitBrefX_of_range D h1 h2).trans hop), hpayload, hlen, hcnt, hctrl, State.setGrp_keeps ..⟩

/-! ## EMIT.BREF -/

theorem brefEncodable_iff {d l : Nat} : brefEncodable d l = true ↔ 3 ≤ l ∧ l ≤ 273 ∧ 1 ≤ d ∧ d ≤ 4096 :=
  decide_eq_true_iff

/-- R194: a pair outside the format's bounds is an internal error. -/
theorem opEmitBref_of_out_of_bounds {d l : Nat} (h : l < 3 ∨ 273 < l ∨ d < 1 ∨ 4096 < d) :
    opEmitBref d l s = .error (.raise .encInternal) :=
  if_neg (mt brefEncodable_iff.1 (by omega))

/-- R195 in R203's bytes. -/
theorem payloadOf_short {d l : Nat} (h1 : 3 ≤ l) (h2 : l ≤ 17) (hd : d ≤ 4096) :
    payloadOf d l = [BitVec.ofNat 8 ((l - 2) * 16 + (d - 1) / 256), BitVec.ofNat 8 ((d - 1) % 256)] := by
  rw [payloadOf_eq h1 hd, if_pos h2]

/-- R196 in R203's bytes. -/
theorem payloadOf_extended {d l : Nat} (h : 17 < l) (hd : d ≤ 4096) :
    payloadOf d l = [BitVec.ofNat 8 ((d - 1) / 256), BitVec.ofNat 8 ((d - 1) % 256), BitVec.ofNat 8 (l - 18)] := by
  rw [payloadOf_eq (by omega) hd, if_neg (Nat.not_le.2 h)]

/-- Settles O27: the check of R194, and inside it the group of `opEmitBref_spec` with either form's bytes. -/
theorem emitBrefChecksThenStages : Obligations.EmitBrefChecksThenStages := by
  intro s d l
  refine ⟨fun hout => ?_, fun hl1 hl2 hd1 hd2 hroom => ?_⟩
  · exact settle_of_raise (opEmitBref_of_out_of_bounds hout)
  · obtain ⟨g, hop, hctrl, hcnt, hlen, hpayload⟩ := opEmitBref_spec hl1 hl2 hd1 hd2 hroom
    rw [payloadOf_length] at hlen
    refine ⟨_, settle_of_ok hop, fun hs => ?_, fun hx => ?_, hlen, hcnt, hctrl, State.setGrp_keeps ..⟩
    · rw [← payloadOf_short hl1 hs hd2]
      exact hpayload
    · rw [← payloadOf_extended hx hd2]
      exact hpayload

/-! ## FLUSH -/

/-- Settles O30: the state of `State.flushed`, its OBUF read back around the group. -/
theorem flushWritesTheGroup : Obligations.FlushWritesTheGroup := by
  intro s hlen hfits
  exact ⟨_, settle_of_ok (opFlush_flushed hlen hfits), outputHas_of_writeList rfl, Group.payload_length hlen, rfl, rfl, rfl,
    rfl, by simp [KeepsInputs, KeepsResult]⟩

/-! ## E.STEP -/

theorem opEStep_of_scanned (h : s.len ≤ s.enc.i) : opEStep s = .ok (s.setPhase .eFinal) :=
  if_pos (State.scanDone_iff.2 h)

/-- R192: a group that is not full is not flushed. -/
theorem opFlushIfFull_of_not_full (h : s.grp.cnt ≠ 8) : opFlushIfFull s = .ok s :=
  if_neg (mt State.groupFull_iff.1 h)

/-- R192: the eighth token flushes the group. -/
theorem opFlushIfFull_of_full (h : s.grp.cnt = 8) (hlen : s.grp.len ≤ 24)
    (hf : s.obufFits (s.enc.wp + 1 + s.grp.len) = true) : opFlushIfFull s = .ok s.flushed :=
  (if_pos (State.groupFull_iff.2 h)).trans (opFlush_flushed hlen hf)

/-- On a loaded input E.STEP finds its token. -/
theorem opEStep_token_of_loaded (hi : s.enc.i < s.len) (hloaded : s.InputLoaded) (hroom : s.grp.HasRoom) :
    ∃ b g d i' bytes, opEStep s = opFlushIfFull (afterToken s b g d i') ∧ TokenOf s b g i' bytes := by
  obtain ⟨b, hb⟩ := findBest_total (lo := windowLo s.enc.i) hloaded.inputAt (windowCap_inside hi.le)
  obtain ⟨v, hv⟩ := State.inputAt_loaded hloaded hi
  exact ⟨b, opEStep_token hi hroom hb hv⟩

section
variable {b : Best} {g : Group} {i' : Nat} {bytes : List Byte}

/-- Where the token moves the scan, and the bytes it is (R192). -/
theorem TokenOf.advance (h : TokenOf s b g i' bytes) :
    (3 ≤ b.len → i' = s.enc.i + b.len ∧ bytes = payloadOf b.dist b.len) ∧
      (b.len < 3 → i' = s.enc.i + 1 ∧ ∃ v, s.inputAt s.enc.i = some v ∧ bytes = [v]) := by
  refine ⟨fun hl => ?_, fun hl => ?_⟩
  · obtain ⟨hi, hbytes, _⟩ := h.backRef hl
    exact ⟨hi, hbytes⟩
  · obtain ⟨hi, hbyte, _⟩ := h.literal hl
    exact ⟨hi, hbyte⟩

/-- R197 with the literal's bit as a power of two. -/
theorem TokenOf.ctrl_literal (h : TokenOf s b g i' bytes) (hn : s.grp.cnt < 8) (hl : b.len < 3) :
    g.ctrl = s.grp.ctrl ||| BitVec.ofNat 8 (2 ^ (7 - s.grp.cnt)) := by
  obtain ⟨_, _, hctrl⟩ := h.literal hl
  rwa [packMask_eq hn] at hctrl

theorem TokenOf.ctrl_backRef (h : TokenOf s b g i' bytes) (hl : 3 ≤ b.len) : g.ctrl = s.grp.ctrl := by
  obtain ⟨_, _, hctrl⟩ := h.backRef hl
  exact hctrl

/-- The control byte of a group that the eighth token fills: its own bit is bit 0. -/
theorem TokenOf.ctrl_eighth (h : TokenOf s b g i' bytes) (hn : s.grp.cnt = 7) :
    g.ctrl = if 3 ≤ b.len then s.grp.ctrl else s.grp.ctrl ||| 1#8 := by
  split
  · exact h.ctrl_backRef ‹_›
  · have hctrl := h.ctrl_literal (by omega) (by omega)
    rwa [hn] at hctrl

/-- A group of up to 8 tokens fits the staging buffer (R34). -/
theorem TokenOf.len_le (h : TokenOf s b g i' bytes) (hi : s.enc.i < s.len) (hroom : s.grp.HasRoom) : g.len ≤ 24 := by
  obtain ⟨_, hbytes, _, _⟩ := h.bounds hi
  obtain ⟨hcnt, hlen⟩ := hroom
  have := h.len
  omega

end

/-- Settles O33: the token of `opEStep_token_of_loaded`; the group is flushed exactly when that token is its eighth. -/
theorem encodeStepEmitsOneToken : Obligations.EncodeStepEmitsOneToken := by
  intro s
  refine ⟨fun hend => ?_, fun hi hloaded hroom hfits => ?_⟩
  · exact settle_of_ok (opEStep_of_scanned hend)
  · obtain ⟨b, g, d, i', bytes, hop, htok⟩ := opEStep_token_of_loaded hi hloaded hroom
    obtain ⟨hbackRef, hliteral⟩ := htok.advance
    have hcnt : g.cnt = s.grp.cnt + 1 := htok.cnt
    by_cases hseven : s.grp.cnt = 7
    · have hlen : g.len ≤ 24 := htok.len_le hi hroom
      have hf : (afterToken s b g d i').obufFits (s.enc.wp + 1 + g.len) = true :=
        State.obufFits_mono (hfits hseven) (by omega)
      have hflush := opFlushIfFull_of_full (s := afterToken s b g d i') (show g.cnt = 8 by omega) hlen hf
      have hout : OutputHas s (afterToken s b g d i').flushed s.enc.wp (g.ctrl :: g.payload) :=
        outputHas_of_writeList rfl
      rw [htok.ctrl_eighth hseven, htok.payload] at hout
      refine ⟨(afterToken s b g d i').flushed, b, bytes, settle_of_ok (hop.trans hflush), htok.find, rfl, rfl, rfl, rfl,
        hbackRef, hliteral, fun hlt => absurd hseven hlt.ne, fun _ => ⟨rfl, rfl, rfl, ?_, hout⟩, ?_⟩
      · simp [htok.len]
      · simp [KeepsInputs, KeepsResult]
    · have hstay := opFlushIfFull_of_not_full (s := afterToken s b g d i') (show g.cnt ≠ 8 by omega)
      refine ⟨afterToken s b g d i', b, bytes, settle_of_ok (hop.trans hstay), htok.find, rfl, rfl, rfl, rfl,
        hbackRef, hliteral, fun hlt => ⟨hcnt, htok.len, htok.payload, rfl, htok.ctrl_backRef,
          htok.ctrl_literal (by omega), fun _ => rfl⟩, fun h => absurd h hseven, ?_⟩
      simp [KeepsInputs, KeepsResult]

end Sys2Proof.Machine
end

section
/-! PROOF. Faults (spec/60_exceptions.md): what fault entry leaves (R239), and which fault a step of either command can take
(R245). -/

namespace Sys2Proof.Machine

variable {s t : State} {f : FaultKind}

/-! ## Fault entry -/

theorem exec_raise (f : FaultKind) (s : State) : exec (.raise f) s = .next (s.takeFault f) := rfl

/-- R230's table. -/
theorem FaultKind.code_bits (f : FaultKind) :
    (f = .badMagic → (FaultKind.code f).code = 1#3) ∧ (f = .truncated → (FaultKind.code f).code = 2#3) ∧
      (f = .invalidDistance → (FaultKind.code f).code = 3#3) ∧ (f = .lengthOverrun → (FaultKind.code f).code = 4#3) ∧
      (f = .encInternal → (FaultKind.code f).code = 5#3) := by
  cases f <;> decide

/-- R239's frame: no cursor moves and no byte of either buffer is written. -/
theorem State.takeFault_keeps (s : State) (f : FaultKind) :
    (s.takeFault f).dec = s.dec ∧ KeepsInputs s (s.takeFault f) ∧ KeepsEncoder s (s.takeFault f) ∧
      KeepsOutput s (s.takeFault f) := by
  simp [KeepsInputs, KeepsEncoder, KeepsOutput]

/-- Settles O37: RAISE is fault entry, its codes are R230's and its frame is R239's. -/
theorem faultEntryLeavesOnlyTheCode : Obligations.FaultEntryLeavesOnlyTheCode := by
  intro s f
  obtain ⟨hBadMagic, hTruncated, hDistance, hOverrun, hInternal⟩ := FaultKind.code_bits f
  exact ⟨s.takeFault f, exec_raise f s, hBadMagic, hTruncated, hDistance, hOverrun, hInternal, rfl, rfl, rfl, rfl, rfl, rfl,
    State.takeFault_keeps s f⟩

/-! ## The faults of the commands -/

/-- R235: every fault but the encoder's internal one has one of DECODE's four codes. -/
theorem FaultKind.code_of_ne_encInternal (h : f ≠ .encInternal) :
    FaultKind.code f = .badMagic ∨ FaultKind.code f = .truncated ∨ FaultKind.code f = .invalidDistance ∨
      FaultKind.code f = .lengthOverrun := by
  cases f with
  | badMagic => exact .inl rfl
  | truncated => exact .inr (.inl rfl)
  | invalidDistance => exact .inr (.inr (.inl rfl))
  | lengthOverrun => exact .inr (.inr (.inr rfl))
  | encInternal => exact absurd rfl h

/-- No phase belongs to both paths (R35). -/
theorem Phase.not_decode_of_encode {p : Phase} (h : p.scanning = true ∨ p = .eHdr) : ¬ (p = .dHdr ∨ p.decoding = true) := by
  revert h
  cases p <;> decide

/-- CORE's own step enters a fault only on the decode path; every other one leaves ERR alone, and STATE too unless the
command completes (R35, R148, R201). -/
theorem Effect.takes_fault_or_keeps_err (h : Effect s t) (hu : s.Undisturbed) :
    ((s.phase = .dHdr ∨ s.phase.decoding = true) ∧ ∃ f, f ≠ .encInternal ∧ t = s.takeFault f) ∨
      (t.err = s.err ∧ (t.status = s.status ∨ t.status = .done)) := by
  obtain ⟨hrst, hcmd⟩ := hu
  cases h with
  | reset hreset => exact absurd (hrst.symm.trans hreset) nofun
  | dropped _ hwrite => exact absurd hcmd hwrite
  | startDecode _ hwrite => exact absurd hcmd hwrite
  | startEncode _ hwrite => exact absurd hcmd hwrite
  | fault f _ hphase hne => exact .inl ⟨hphase, f, hne, rfl⟩
  | decoded => exact .inr ⟨rfl, .inr rfl⟩
  | encoded => exact .inr ⟨rfl, .inr rfl⟩
  | lastGroup => exact .inr ⟨rfl, .inr rfl⟩
  | _ => exact .inr ⟨by simp, .inl (by simp)⟩

theorem State.EncInv.hasRoom (h : s.EncInv) : s.grp.HasRoom := ⟨h.tokens, h.staged⟩

/-- A next state from the invariant is one of the effects. -/
theorem State.Inv.effect (h : s.Inv) (hstep : step s = .next t) : Effect s t :=
  step_effect (fun hp => (h.scanning hp).hasRoom) hstep

/-- A running CORE shows no fault. -/
theorem State.Inv.no_fault_of_active (h : s.Inv) (hp : s.phase ≠ .idle) : s.err = .none ∧ s.status ≠ .fault := by
  have hne : s.status ≠ .fault := by
    rw [h.busyIff.2 hp]
    exact nofun
  exact ⟨h.errIff.2 hne, hne⟩

/-- Settles O49: by `Effect.takes_fault_or_keeps_err` the step takes a fault, on the decode path and not the encoder's, or
it keeps the ERR of a running CORE and ends in no fault. -/
theorem commandsFaultAsSpecified : Obligations.CommandsFaultAsSpecified := by
  intro s t hinv hu hactive hstep
  obtain ⟨hnone, hstatus⟩ := hinv.no_fault_of_active hactive
  rcases (hinv.effect hstep).takes_fault_or_keeps_err hu with ⟨hdecode, f, hne, rfl⟩ | ⟨herr, hkept⟩
  · exact ⟨fun hencode => absurd hdecode (Phase.not_decode_of_encode hencode), fun _ _ =>
      FaultKind.code_of_ne_encInternal hne⟩
  · have hrunning : t.status ≠ .fault := by
      rcases hkept with hk | hk <;> rw [hk]
      · exact hstatus
      · exact nofun
    exact ⟨fun _ => ⟨herr.trans hnone, hrunning⟩, fun _ hfault => absurd hfault hrunning⟩

end Sys2Proof.Machine
end

section
/-! PROOF. Reset (spec/70_reset_and_hazards.md section 1): the instruction is total and lands in `State.afterReset` (R260). -/

namespace Sys2Proof.Machine

/-- Reset is never refused and never faults, whatever CORE was doing. -/
theorem exec_reset (s : State) : exec .reset s = .next s.afterReset := rfl

/-- Settles O39: RESET lands in `State.afterReset`, which gives each of R42's specified registers its reset value. -/
theorem resetReturnsToIdle : Obligations.ResetReturnsToIdle := fun s =>
  ⟨s.afterReset, exec_reset s, s.afterReset_status, s.afterReset_err, s.afterReset_inLen, s.afterReset_outLen,
    s.afterReset_dlenR, s.afterReset_rsv0, s.afterReset_rsv1, s.afterReset_phase, s.afterReset_cmd⟩

end Sys2Proof.Machine
end

section
/-! PROOF. Decoder and encoder of the encoded objects (spec/30_encoding.md): each undoes the other. -/

namespace Sys2Proof.Machine

variable {m : Magic}

/-- Settles O1: the five words, each by evaluation. -/
theorem wordsDecodeToTheirInstructions : Obligations.WordsDecodeToTheirInstructions :=
  ⟨fun _ => rfl, fun _ => rfl, fun _ => rfl, fun _ => rfl, fun _ => rfl⟩

/-! ## Decoding what the encoder wrote -/

/-- R91: the tag matches, and each word's bytes spell the word. -/
theorem decode_headerBytes (m : Magic) (d r0 r1 : Word32) (rest : List Byte) :
    decode m .header (m.bytes ++ bytesBe32 d ++ bytesBe32 r0 ++ bytesBe32 r1 ++ rest) = .ok (.hdr d r0 r1, rest) := by
  simp [decode, decodeHeader, decodeHeaderWords, Magic.bytes, bytesBe32]

/-- R96. -/
theorem decode_shortCode (m : Magic) {n : BitVec 4} (D : BitVec 12) (rest : List Byte) (hn : n ≠ 0#4) :
    decode m (.token false) (codeByte0 n D :: codeByte1 D :: rest) = .ok (.brefS n D, rest) := by
  rw [decode_short m _ _ (by rwa [highNibble_codeByte0]), highNibble_codeByte0, distField_codeBytes]

/-- R97. -/
theorem decode_extendedCode (m : Magic) (D : BitVec 12) (e : Byte) (rest : List Byte) :
    decode m (.token false) (codeByte0 0#4 D :: codeByte1 D :: e :: rest) = .ok (.brefX D e, rest) := by
  rw [decode_extended m _ _ _ (highNibble_codeByte0 0#4 D), distField_codeBytes]

/-- Settles O2: one lemma for each encoded object; an operation has no encoding. -/
theorem decodeOfEncodeIsTheInstruction : Obligations.DecodeOfEncodeIsTheInstruction := by
  intro m i k e rest hwf hkind henc
  cases i with
  | hdr d r0 r1 => cases hkind; cases henc; exact decode_headerBytes m d r0 r1 rest
  | ctrl c => cases hkind; cases henc; rfl
  | lit v => cases hkind; cases henc; rfl
  | brefS n D => cases hkind; cases henc; exact decode_shortCode m D rest (of_decide_eq_true hwf)
  | brefX D e => cases hkind; cases henc; exact decode_extendedCode m D e rest
  | _ => cases hkind

/-! ## Encoding what the decoder read -/

/-- What O3 says of one successful decode. -/
abbrev ReadExactly (m : Magic) (k : FetchKind) (bs rest : List Byte) (i : Instr) : Prop :=
  i.wf = true ∧ i.kind = some k ∧ ∃ e, encode m i = some e ∧ bs = e ++ rest

variable {bs rest : List Byte} {i : Instr}

theorem decodeHeaderWords_reads (h : decodeHeaderWords bs = .ok (i, rest)) :
    ∃ d r0 r1, i = .hdr d r0 r1 ∧ bs = bytesBe32 d ++ bytesBe32 r0 ++ bytesBe32 r1 ++ rest := by
  unfold decodeHeaderWords at h
  split at h
  · cases h
    exact ⟨_, _, _, rfl, by simp⟩
  · cases h

theorem decodeHeader_reads (h : decodeHeader m bs = .ok (i, rest)) : ReadExactly m .header bs rest i := by
  unfold decodeHeader at h
  split at h
  · split at h
    case isTrue htag =>
      obtain ⟨d, r0, r1, rfl, rfl⟩ := decodeHeaderWords_reads h
      refine ⟨rfl, rfl, _, rfl, ?_⟩
      rw [← htag]
      simp
    case isFalse => cases h
  · cases h

theorem decodeControl_reads (h : decodeControl bs = .ok (i, rest)) : ReadExactly m .control bs rest i := by
  cases bs with
  | nil => cases h
  | cons c bs => cases h; exact ⟨rfl, rfl, [c], rfl, rfl⟩

theorem decodeLiteral_reads (h : decodeLiteral bs = .ok (i, rest)) : ReadExactly m (.token true) bs rest i := by
  cases bs with
  | nil => cases h
  | cons v bs => cases h; exact ⟨rfl, rfl, [v], rfl, rfl⟩

theorem encode_brefS_fields (m : Magic) (b0 b1 : Byte) :
    encode m (.brefS (highNibble b0) (distField b0 b1)) = some [b0, b1] := by
  rw [encode, codeByte0_fields, codeByte1_distField]

theorem encode_brefX_fields (m : Magic) {b0 : Byte} (b1 e : Byte) (hn : highNibble b0 = 0#4) :
    encode m (.brefX (distField b0 b1) e) = some [b0, b1, e] := by
  rw [encode, ← hn, codeByte0_fields, codeByte1_distField]

theorem decodeBackRef_reads (h : decodeBackRef bs = .ok (i, rest)) : ReadExactly m (.token false) bs rest i := by
  unfold decodeBackRef at h
  split at h
  · next b0 b1 bs' =>
    split at h
    case isTrue hn =>
      cases bs' with
      | nil => cases h
      | cons e bs' => cases h; exact ⟨rfl, rfl, _, encode_brefX_fields m b1 e hn, rfl⟩
    case isFalse hn => cases h; exact ⟨decide_eq_true hn, rfl, _, encode_brefS_fields m b0 b1, rfl⟩
  · cases h

/-- Settles O3: one lemma for each place the bytes can stand. -/
theorem encodeOfDecodeIsTheBytesRead : Obligations.EncodeOfDecodeIsTheBytesRead := by
  intro m k bs rest i h
  match k with
  | .header => exact decodeHeader_reads h
  | .control => exact decodeControl_reads h
  | .token true => exact decodeLiteral_reads h
  | .token false => exact decodeBackRef_reads h

/-! ## Back-references: pairs and patterns -/

/-- The code bytes as R203 writes them. -/
theorem codeBytes_eq (n : BitVec 4) (D : BitVec 12) :
    [codeByte0 n D, codeByte1 D] = [BitVec.ofNat 8 (n.toNat * 16 + D.toNat / 256), BitVec.ofNat 8 (D.toNat % 256)] := by
  rw [← codeByte0_toNat, ← codeByte1_toNat, BitVec.ofNat_toNat, BitVec.ofNat_toNat, BitVec.setWidth_eq,
    BitVec.setWidth_eq]

@[simp] theorem distanceField_distanceOf (D : BitVec 12) : distanceField (distanceOf D) = D := by
  simp [distanceField, distanceOf]

theorem shortLength_bounds {n : BitVec 4} (hn : n ≠ 0#4) : 3 ≤ shortLength n ∧ shortLength n ≤ 17 := by
  have hlt := n.isLt
  have hpos : n.toNat ≠ 0 := fun h0 => hn (BitVec.eq_of_toNat_eq h0)
  simp only [shortLength, Config.lenBias]
  omega

theorem extLength_bounds (e : Byte) : 18 ≤ extLength e ∧ extLength e ≤ 273 := by
  have hlt := e.isLt
  simp only [extLength, Config.extBase]
  omega

/-- R96 in R99's bytes. -/
theorem encode_brefS_payload (m : Magic) {n : BitVec 4} (D : BitVec 12) (hn : n ≠ 0#4) :
    encode m (.brefS n D) = some (payloadOf (distanceOf D) (shortLength n)) := by
  obtain ⟨hlow, hhigh⟩ := shortLength_bounds hn
  rw [encode, payloadOf, if_pos hhigh, distanceField_distanceOf, shortPayload_eq D hlow hhigh, codeBytes_eq]
  rfl

/-- R97 in R99's bytes. -/
theorem encode_brefX_payload (m : Magic) (D : BitVec 12) (e : Byte) :
    encode m (.brefX D e) = some (payloadOf (distanceOf D) (extLength e)) := by
  have hlong : ¬ extLength e ≤ 17 := by
    have := (extLength_bounds e).1
    omega
  have hbyte : BitVec.ofNat 8 (extLength e - 18) = e := by simp [extLength]
  have hcode := codeBytes_eq 0#4 D
  simp only [BitVec.toNat_ofNat, Nat.zero_mod, Nat.zero_mul, Nat.zero_add, List.cons.injEq, and_true] at hcode
  obtain ⟨hb0, hb1⟩ := hcode
  rw [encode, payloadOf, if_neg hlong, distanceField_distanceOf, extPayload_eq, hbyte, hb0, hb1]

/-- The bytes of a well-formed back-reference are R99's payload of its operands. -/
theorem encode_payloadOf {d l : Nat} (hwf : i.wf = true) (hops : backRefOperands i = some (d, l)) :
    encode m i = some (payloadOf d l) := by
  cases i with
  | brefS n D => cases hops; exact encode_brefS_payload m D (of_decide_eq_true hwf)
  | brefX D e => cases hops; exact encode_brefX_payload m D e
  | _ => cases hops

/-- The back-reference for a pair: the form R99 chooses by the length. -/
def backRefOf (d l : Nat) : Instr :=
  if l ≤ 17 then .brefS (BitVec.ofNat 4 (l - 2)) (distanceField d) else .brefX (distanceField d) (BitVec.ofNat 8 (l - 18))

theorem shortLength_ofNat {l : Nat} (h1 : 3 ≤ l) (h2 : l ≤ 17) : shortLength (BitVec.ofNat 4 (l - 2)) = l := by
  simp only [shortLength, Config.lenBias, BitVec.toNat_ofNat]
  omega

theorem extLength_ofNat {l : Nat} (h1 : 18 ≤ l) (h2 : l ≤ 273) : extLength (BitVec.ofNat 8 (l - 18)) = l := by
  simp only [extLength, Config.extBase, BitVec.toNat_ofNat]
  omega

theorem ofNat_length_ne_zero {l : Nat} (h1 : 3 ≤ l) (h2 : l ≤ 17) : BitVec.ofNat 4 (l - 2) ≠ 0#4 := fun h0 => by
  have hlen := shortLength_ofNat h1 h2
  rw [h0, shortLength] at hlen
  simp at hlen
  omega

/-- `backRefOf` is a back-reference with the operands it was made from. -/
theorem backRefOf_spec {d l : Nat} (hd1 : 1 ≤ d) (hd2 : d ≤ 4096) (hl1 : 3 ≤ l) (hl2 : l ≤ 273) :
    (backRefOf d l).wf = true ∧ (backRefOf d l).kind = some (.token false) ∧
      backRefOperands (backRefOf d l) = some (d, l) := by
  have hdist := distanceOf_distanceField hd1 hd2
  unfold backRefOf
  split
  case isTrue hs =>
    refine ⟨decide_eq_true (ofNat_length_ne_zero hl1 hs), rfl, ?_⟩
    rw [backRefOperands, hdist, shortLength_ofNat hl1 hs]
  case isFalse hx =>
    refine ⟨rfl, rfl, ?_⟩
    rw [backRefOperands, hdist, extLength_ofNat (by omega) hl2]

/-- R100, the pairs: only R99's payload decodes to the pair. -/
theorem decode_operands_iff (m : Magic) {d l : Nat} (bs : List Byte) (hd1 : 1 ≤ d) (hd2 : d ≤ 4096) (hl1 : 3 ≤ l)
    (hl2 : l ≤ 273) :
    (∃ i, decode m (.token false) bs = .ok (i, []) ∧ backRefOperands i = some (d, l)) ↔ bs = payloadOf d l := by
  constructor
  · rintro ⟨i, hdecode, hops⟩
    obtain ⟨hwf, _, e, henc, hbytes⟩ := encodeOfDecodeIsTheBytesRead m _ bs [] i hdecode
    rw [encode_payloadOf hwf hops, Option.some.injEq] at henc
    rw [hbytes, ← henc, List.append_nil]
  · rintro rfl
    obtain ⟨hwf, hkind, hops⟩ := backRefOf_spec hd1 hd2 hl1 hl2
    have hdecode := decodeOfEncodeIsTheInstruction m _ _ _ [] hwf hkind (encode_payloadOf hwf hops)
    rw [List.append_nil] at hdecode
    exact ⟨_, hdecode, hops⟩

/-- Settles O5: the pairs by `decode_operands_iff`, the patterns by the two branches of the decode tree. -/
theorem tokenEncodingIsABijection : Obligations.TokenEncodingIsABijection := by
  intro m
  refine ⟨fun d l bs hd1 hd2 hl1 hl2 => decode_operands_iff m bs hd1 hd2 hl1 hl2, fun b0 b1 hShort => ?_,
    fun b0 b1 e hExtended => ?_⟩
  · have hn : highNibble b0 ≠ 0#4 := mt (highNibble_eq_zero_iff b0).1 (by omega)
    have hb0 := b0.isLt
    have hb1 := b1.isLt
    exact ⟨_, _, _, decode_short m b1 [] hn, backRefOperands_short b0 b1, by omega, by omega, by omega, by omega⟩
  · have hn : highNibble b0 = 0#4 := (highNibble_eq_zero_iff b0).2 hExtended
    have he := e.isLt
    have hb1 := b1.isLt
    exact ⟨_, _, _, decode_extended m b1 e [] hn, backRefOperands_extended b0 b1 e, by omega, by omega, by omega,
      by omega⟩

end Sys2Proof.Machine
end

section
/-! PROOF. The invariant (spec/10_state.md sections 3 to 5, 41_decoder.md R150, 43_emitter.md R200): it holds after reset,
and every effect of a step keeps it. -/

namespace Sys2Proof.Machine

variable {s t : State}

/-- In P_IDLE neither path's invariant is asked for, so these clauses are all of it. -/
theorem State.Inv.of_idle (hp : s.phase = .idle) (hibuf : Memory.wf s.ibuf = true) (hobuf : Memory.wf s.obuf = true)
    (hbusy : s.status ≠ .busy) (herr : s.err = .none ↔ s.status ≠ .fault)
    (hfault : s.status = .fault → s.outLen = 0 ∧ s.dlenR = 0 ∧ s.rsv0 = 0 ∧ s.rsv1 = 0) : s.Inv where
  ibufWf := hibuf
  obufWf := hobuf
  busyIff := ⟨fun h => absurd h hbusy, fun h => absurd hp h⟩
  errIff := herr
  faulted := hfault
  running h := absurd h hbusy
  decoding h := by rw [hp] at h; cases h
  header h := by rw [hp] at h; cases h
  scanning h := by rw [hp] at h; cases h

/-- Settles O44: reset leaves empty buffers and P_IDLE. -/
theorem resetStateHasTheInvariant : Obligations.ResetStateHasTheInvariant :=
  .of_idle rfl reset_buffers_wf.1 reset_buffers_wf.2 nofun ⟨fun _ => nofun, fun _ => rfl⟩ nofun

/-! ## Effects that end or start a command -/

theorem State.Inv.afterReset (s : State) : s.afterReset.Inv :=
  .of_idle rfl rfl rfl nofun ⟨fun _ => nofun, fun _ => rfl⟩ nofun

theorem FaultKind.code_ne_none (f : FaultKind) : FaultKind.code f ≠ .none := by cases f <;> decide

theorem State.Inv.takeFault (h : s.Inv) (f : FaultKind) : (s.takeFault f).Inv :=
  .of_idle rfl h.ibufWf h.obufWf nofun ⟨fun he => absurd he (FaultKind.code_ne_none f), fun hs => absurd rfl hs⟩
    fun _ => ⟨rfl, rfl, rfl, rfl⟩

theorem State.Inv.completeDecode (h : s.Inv) (hp : s.phase ≠ .idle) : s.completeDecode.Inv :=
  .of_idle rfl h.ibufWf h.obufWf nofun ⟨fun _ => nofun, fun _ => (h.no_fault_of_active hp).1⟩ nofun

theorem State.Inv.completeEncode (h : s.Inv) (hp : s.phase ≠ .idle) : s.completeEncode.Inv :=
  .of_idle rfl h.ibufWf h.obufWf nofun ⟨fun _ => nofun, fun _ => (h.no_fault_of_active hp).1⟩ nofun

theorem State.Inv.cmdTaken (h : s.Inv) : s.cmdTaken.Inv where
  ibufWf := h.ibufWf
  obufWf := h.obufWf
  busyIff := h.busyIff
  errIff := h.errIff
  faulted := h.faulted
  running := h.running
  decoding hp := { h.decoding hp with }
  header := h.header
  scanning hp := { h.scanning hp with }

theorem State.Inv.flushed_completeEncode (h : s.Inv) (hp : s.phase ≠ .idle) : s.flushed.completeEncode.Inv :=
  .of_idle rfl h.ibufWf (Memory.wf_writeList _ h.obufWf _) nofun
    ⟨fun _ => nofun, fun _ => (h.no_fault_of_active hp).1⟩ nofun

/-- A command starts in a phase that asks nothing of the datapath registers. -/
theorem State.Inv.startCommand (h : s.Inv) {p : Phase} (hp : p = .dHdr ∨ p = .eHdr ∧ s.len < 2 ^ 32)
    (hfits : s.ibufFits s.len = true) : (s.startCommand p).Inv where
  ibufWf := h.ibufWf
  obufWf := h.obufWf
  busyIff := ⟨fun _ => by rcases hp with rfl | ⟨rfl, _⟩ <;> exact nofun, fun _ => rfl⟩
  errIff := ⟨fun _ => nofun, fun _ => rfl⟩
  faulted := nofun
  running _ := ⟨rfl, hfits⟩
  decoding hd := by rcases hp with rfl | ⟨rfl, _⟩ <;> cases hd
  header he := by
    rcases hp with rfl | ⟨_, hlen⟩
    · cases he
    · exact ⟨hlen, rfl, rfl, rfl⟩
  scanning hs := by rcases hp with rfl | ⟨rfl, _⟩ <;> cases hs

/-! ## Effects inside a command -/

/-- What a step inside a running command keeps besides its path's registers. -/
structure StaysRunning (s t : State) : Prop where
  ibuf   : t.ibuf = s.ibuf
  obufWf : Memory.wf s.obuf = true → Memory.wf t.obuf = true
  status : t.status = s.status
  err    : t.err = s.err
  outLen : t.outLen = s.outLen
  fits   : t.ibufFits t.len = s.ibufFits s.len

/-- A running command keeps the invariant when it stays inside its path, by that path's own invariant. -/
theorem State.Inv.of_running (h : s.Inv) (hs : s.phase ≠ .idle) (hk : StaysRunning s t)
    (ht : (t.phase.decoding = true ∧ t.DecInv) ∨ (t.phase.scanning = true ∧ t.EncInv)) : t.Inv := by
  have hbusy : t.status = .busy := hk.status.trans (h.busyIff.2 hs)
  have hnf : t.status ≠ .fault := by rw [hbusy]; exact nofun
  obtain ⟨hnone, _⟩ := h.no_fault_of_active hs
  exact {
    ibufWf := hk.ibuf ▸ h.ibufWf
    obufWf := hk.obufWf h.obufWf
    busyIff := ⟨fun _ hi => by rw [hi] at ht; simp [Phase.decoding, Phase.scanning] at ht, fun _ => hbusy⟩
    errIff := ⟨fun _ => hnf, fun _ => hk.err.trans hnone⟩
    faulted := fun hf => absurd hf hnf
    running := fun _ => by rw [hk.outLen, hk.fits]; exact h.running (h.busyIff.2 hs)
    decoding := fun hp => by
      rcases ht with ⟨_, hd⟩ | ⟨hsc, _⟩
      · exact hd
      · revert hp hsc; cases t.phase <;> simp [Phase.decoding, Phase.scanning]
    header := fun hp => by rw [hp] at ht; simp [Phase.decoding, Phase.scanning] at ht
    scanning := fun hp => by
      rcases ht with ⟨hd, _⟩ | ⟨_, he⟩
      · revert hp hd; cases t.phase <;> simp [Phase.decoding, Phase.scanning]
      · exact he }

/-! ## The decode path -/

/-- R120 establishes the decoder's bounds. -/
theorem State.DecInv.withHeader {d r0 r1 : Word32} (hlen : 16 ≤ s.len) (hfits : s.obufFits d.toNat = true) :
    (s.withHeader d r0 r1).DecInv where
  srcLow := le_rfl
  srcHigh := hlen
  posLe := Nat.zero_le _
  dlenEq := rfl
  fits := hfits
  bits := Nat.zero_le _
  written _ h := absurd h (Nat.not_lt_zero _)
  owed h := by rcases h with h | h <;> cases h
  copying h := by cases h

/-- What R147 needs of the copy registers. -/
abbrev DecRegs.CopyInside (d : DecRegs) : Prop :=
  1 ≤ d.distance ∧ d.distance ≤ d.pos ∧ d.pos + d.cnt ≤ d.dlen ∧ d.cnt ≤ 273

/-- An effect on the decoder's registers that stores nothing. -/
theorem State.DecInv.setDec (h : s.DecInv) {d : DecRegs} {p : Phase} (hlow : s.dec.src ≤ d.src) (hhigh : d.src ≤ s.len)
    (hpos : d.pos = s.dec.pos) (hdlen : d.dlen = s.dec.dlen) (hbits : d.bitsLeft ≤ 8)
    (howed : p = .dLit ∨ p = .dBref → s.dec.pos < s.dec.dlen) (hcopy : p = .dCopy → d.CopyInside) :
    ((s.setDec d).setPhase p).DecInv where
  srcLow := h.srcLow.trans hlow
  srcHigh := hhigh
  posLe := by simpa [hpos, hdlen] using h.posLe
  dlenEq := hdlen.trans h.dlenEq
  fits := by simpa [hdlen] using h.fits
  bits := hbits
  written := by simpa [hpos] using h.written
  owed := by simpa [hpos, hdlen] using howed
  copying := hcopy

theorem State.DecInv.setPhase (h : s.DecInv) {p : Phase} (howed : ¬ (p = .dLit ∨ p = .dBref)) (hcopy : p ≠ .dCopy) :
    (s.setPhase p).DecInv :=
  h.setDec (d := s.dec) le_rfl h.srcHigh rfl rfl h.bits (fun hp => absurd hp howed) fun hp => absurd hp hcopy

/-- A byte stored at the end of the written part extends it. -/
theorem Memory.written_store {m : Memory} {n : Nat} (h : ∀ a, a < n → (Memory.read m a).isSome = true) (v : Byte) :
    ∀ a, a < n + 1 → (Memory.read (Memory.writeList m n [v]) a).isSome = true := by
  intro a ha
  rw [Memory.writeList, Memory.writeList, Memory.read_write]
  split
  · rfl
  · exact h a (by omega)

/-- An effect that stores the next byte of output (R143, R147). -/
theorem State.DecInv.store (h : s.DecInv) {d : DecRegs} {p : Phase} (v : Byte) (howed : s.dec.pos < s.dec.dlen)
    (hlow : s.dec.src ≤ d.src) (hhigh : d.src ≤ s.len) (hpos : d.pos = s.dec.pos + 1) (hdlen : d.dlen = s.dec.dlen)
    (hbits : d.bitsLeft = s.dec.bitsLeft) (hphase : ¬ (p = .dLit ∨ p = .dBref)) (hcopy : p = .dCopy → d.CopyInside) :
    (((s.setObuf (Memory.writeList s.obuf s.dec.pos [v])).setDec d).setPhase p).DecInv where
  srcLow := h.srcLow.trans hlow
  srcHigh := hhigh
  posLe := by simp [hpos, hdlen]; omega
  dlenEq := hdlen.trans h.dlenEq
  fits := by simpa [hdlen] using h.fits
  bits := by simpa [hbits] using h.bits
  written := by simpa [hpos] using Memory.written_store h.written v
  owed hp := absurd hp hphase
  copying := hcopy

/-! ## The encode path -/

/-- R122 establishes the encoder's bounds. -/
theorem State.EncInv.emitHeader {m : Memory} (hlen : s.len < 2 ^ 32) (hfits : s.obufFits 16 = true)
    (hwords : s.dlenR = 0 ∧ s.rsv0 = 0 ∧ s.rsv1 = 0) :
    ((((s.setObuf m).setEnc { s.enc with wp := 16, i := 0 }).setGrp s.grp.cleared).setPhase .eScan).EncInv where
  encodable := hlen
  scanLe := Nat.zero_le _
  scanEnd := nofun
  wpLow := le_rfl
  fits := hfits
  tokens := by simp
  staged := le_rfl
  size := by simp
  padding := by simp
  words := hwords

/-- R192's end of the scan. -/
theorem State.EncInv.scanned (h : s.EncInv) (hend : s.len ≤ s.enc.i) : (s.setPhase .eFinal).EncInv :=
  { h with scanEnd := fun _ => le_antisymm h.scanLe hend }

section
variable {b : Best} {g : Group} {d : Decision} {i' : Nat} {bytes : List Byte}

/-- PACK leaves the bits of the tokens still to come 0 (R197). -/
theorem TokenOf.padding (ht : TokenOf s b g i' bytes) (h : s.EncInv) {t : Nat} (h8 : t < 8) (hcnt : g.cnt ≤ t) :
    g.ctrl.getLsbD (7 - t) = false := by
  have hc := ht.cnt
  have hold := h.padding t h8 (by omega)
  by_cases hl : 3 ≤ b.len
  · rw [ht.ctrl_backRef hl, hold]
  · obtain ⟨_, _, hctrl⟩ := ht.literal (by omega)
    rw [hctrl, BitVec.getLsbD_or, hold, packMask_getLsbD h.tokens, Bool.false_or, decide_eq_false_iff_not]
    omega

/-- A token that does not fill the group. -/
theorem State.EncInv.afterToken (h : s.EncInv) (hp : s.phase = .eScan) (hi : s.enc.i < s.len)
    (ht : TokenOf s b g i' bytes) (hcnt : g.cnt ≠ 8) : (afterToken s b g d i').EncInv := by
  obtain ⟨hb1, hb3, hadvance, hinside⟩ := ht.bounds hi
  have hc := ht.cnt
  have hl := ht.len
  have htokens := h.tokens
  have hstaged := h.staged
  have hsize := h.size
  exact {
    encodable := h.encodable
    scanLe := hinside
    scanEnd := fun hf => by rw [afterToken_phase, hp] at hf; cases hf
    wpLow := h.wpLow
    fits := h.fits
    tokens := by rw [afterToken_grp]; omega
    staged := by rw [afterToken_grp]; omega
    size := by rw [afterToken_grp, afterToken_wp, afterToken_i]; omega
    padding := fun t h8 => ht.padding h h8
    words := h.words }

/-- The token that fills the group, and its flush (R198). -/
theorem State.EncInv.fullGroup (h : s.EncInv) (hp : s.phase = .eScan) (hi : s.enc.i < s.len)
    (ht : TokenOf s b g i' bytes) (hcnt : g.cnt = 8) (hfits : s.obufFits (s.enc.wp + 1 + g.len) = true) :
    (Machine.afterToken s b g d i').flushed.EncInv := by
  obtain ⟨hb1, hb3, hadvance, hinside⟩ := ht.bounds hi
  have hc := ht.cnt
  have hl := ht.len
  have hlow := h.wpLow
  have hsize := h.size
  exact {
    encodable := by simpa using h.encodable
    scanLe := by simpa using hinside
    scanEnd := fun hf => by rw [State.flushed_phase, afterToken_phase, hp] at hf; cases hf
    wpLow := by simp; omega
    fits := by simpa using hfits
    tokens := by simp
    staged := by simp
    size := by simp; omega
    padding := by simp
    words := by simpa using h.words }

end

/-! ## Every effect -/

/-- An effect that leaves both buffers. -/
theorem StaysRunning.of_same_buffers (hibuf : t.ibuf = s.ibuf) (hobuf : t.obuf = s.obuf) (hstatus : t.status = s.status)
    (herr : t.err = s.err) (hout : t.outLen = s.outLen) (hfits : t.ibufFits t.len = s.ibufFits s.len) :
    StaysRunning s t :=
  ⟨hibuf, fun h => hobuf ▸ h, hstatus, herr, hout, hfits⟩

/-- An effect that writes a run of bytes to OBUF. -/
theorem StaysRunning.of_write {a : Nat} {vs : List Byte} (hibuf : t.ibuf = s.ibuf)
    (hobuf : t.obuf = Memory.writeList s.obuf a vs) (hstatus : t.status = s.status)
    (herr : t.err = s.err) (hout : t.outLen = s.outLen) (hfits : t.ibufFits t.len = s.ibufFits s.len) :
    StaysRunning s t :=
  ⟨hibuf, fun h => hobuf ▸ Memory.wf_writeList vs h a, hstatus, herr, hout, hfits⟩

theorem StaysRunning.fullGroup (s : State) (b : Best) (g : Group) (d : Decision) (i' : Nat) :
    StaysRunning s (afterToken s b g d i').flushed :=
  .of_write (a := s.enc.wp) (vs := g.ctrl :: g.payload) (by simp) (by simp) (by simp) (by simp) (by simp)
    (by rw [State.flushed_ibufFits, State.flushed_len]; rfl)

theorem StaysRunning.emitHeader (s : State) (e : EncRegs) (g : Group) (vs : List Byte) :
    StaysRunning s ((((s.setObuf (Memory.writeList s.obuf 0 vs)).setEnc e).setGrp g).setPhase .eScan) :=
  .of_write (a := 0) (vs := vs) (by simp) (by simp) (by simp) (by simp) (by simp) (by simp)

theorem tokenPhase_decoding (c : Bool) : (tokenPhase c).decoding = true := by cases c <;> rfl

theorem tokenPhase_ne_copy (c : Bool) : tokenPhase c ≠ .dCopy := by cases c <;> decide

/-- Settles O45: the effects of a step one by one. Those that end or start a command leave a state of which neither path's
invariant is asked; the others keep the invariant of the path they run in. -/
theorem stepKeepsTheInvariant : Obligations.StepKeepsTheInvariant := by
  intro s t h hstep
  have hactive {p : Phase} (hp : s.phase = p) (hne : p ≠ .idle) : s.phase ≠ .idle := hp ▸ hne
  have hdec {p : Phase} (hp : s.phase = p) (hd : p.decoding = true) : s.DecInv := h.decoding (hp ▸ hd)
  have henc {p : Phase} (hp : s.phase = p) (hd : p.scanning = true) : s.EncInv := h.scanning (hp ▸ hd)
  cases h.effect hstep with
  | reset => exact .afterReset s
  | dropped => exact h.cmdTaken
  | startDecode _ _ _ hfits => exact h.startCommand (.inl rfl) hfits
  | startEncode _ _ _ hfits hlen => exact h.startCommand (.inr ⟨rfl, hlen⟩) hfits
  | wait => exact h
  | fault f => exact h.takeFault f
  | header d r0 r1 _ hp hlen hfits =>
    exact h.of_running (hactive hp nofun) (.of_same_buffers rfl rfl rfl rfl rfl rfl)
      (.inl ⟨rfl, .withHeader hlen hfits⟩)
  | decoded _ hp => exact h.completeDecode (by rcases hp with hp | hp <;> exact hactive hp nofun)
  | control c _ hp _ hc =>
    have hlt := State.inputAt_lt hc
    exact h.of_running (hactive hp nofun) (.of_same_buffers rfl rfl rfl rfl rfl rfl)
      (.inl ⟨rfl, (hdec hp rfl).setDec (by simp) hlt rfl rfl le_rfl (by simp) nofun⟩)
  | nextGroup _ hp =>
    exact h.of_running (hactive hp nofun) (.of_same_buffers rfl rfl rfl rfl rfl rfl)
      (.inl ⟨rfl, (hdec hp rfl).setPhase (by simp) nofun⟩)
  | dispatch _ hp howed =>
    have hd := hdec hp rfl
    exact h.of_running (hactive hp nofun) (.of_same_buffers rfl rfl rfl rfl rfl rfl)
      (.inl ⟨tokenPhase_decoding _, hd.setDec le_rfl hd.srcHigh rfl rfl ((Nat.sub_le ..).trans hd.bits)
        (fun _ => howed) fun hc => absurd hc (tokenPhase_ne_copy _)⟩)
  | literal v _ hp hv =>
    have hlt := State.inputAt_lt hv
    have hd := hdec hp rfl
    exact h.of_running (hactive hp nofun) (.of_write rfl rfl rfl rfl rfl rfl)
      (.inl ⟨rfl, hd.store v (hd.owed (.inl hp)) (by simp) hlt rfl rfl rfl (by simp) nofun⟩)
  | startCopy d _ hp hdlen hpos hbits hlow _ hhigh h1 hdist hend hcnt =>
    have hd := hdec hp rfl
    exact h.of_running (hactive hp nofun) (.of_same_buffers rfl rfl rfl rfl rfl rfl)
      (.inl ⟨rfl, hd.setDec (by omega) hhigh hpos hdlen (hbits ▸ hd.bits) (by simp) fun _ => ⟨h1, hdist, hend, hcnt⟩⟩)
  | copyByte v _ hp hcnt =>
    have hd := hdec hp rfl
    obtain ⟨h1, hdist, hend, h273⟩ := hd.copying hp
    have hstored := hd.store (d := { s.dec with pos := s.dec.pos + 1, cnt := s.dec.cnt - 1 }) (p := s.phase) v (by omega)
      le_rfl hd.srcHigh rfl rfl rfl (by simp [hp]) fun _ => ⟨h1, by simp; omega, by simp; omega, by simp; omega⟩
    exact h.of_running (hactive hp nofun) (.of_write rfl rfl rfl rfl rfl rfl)
      (.inl ⟨by simp [hp, Phase.decoding], hstored⟩)
  | endCopy _ hp =>
    exact h.of_running (hactive hp nofun) (.of_same_buffers rfl rfl rfl rfl rfl rfl)
      (.inl ⟨rfl, (hdec hp rfl).setPhase (by simp) nofun⟩)
  | emitHeader _ hp hlen hfits =>
    exact h.of_running (hactive hp nofun) (.emitHeader ..)
      (.inr ⟨rfl, .emitHeader hlen hfits (h.header hp).2⟩)
  | scanned _ hp hend =>
    exact h.of_running (hactive hp nofun) (.of_same_buffers rfl rfl rfl rfl rfl rfl)
      (.inr ⟨rfl, (henc hp rfl).scanned hend⟩)
  | token b g d i' bytes _ hp hi htok hcnt =>
    exact h.of_running (hactive hp nofun) (.of_same_buffers rfl rfl rfl rfl rfl rfl)
      (.inr ⟨by simp [hp, Phase.scanning], (henc hp rfl).afterToken hp hi htok hcnt⟩)
  | fullGroup b g d i' bytes _ hp hi htok hcnt hfits =>
    exact h.of_running (hactive hp nofun) (.fullGroup ..)
      (.inr ⟨by simp [hp, Phase.scanning], (henc hp rfl).fullGroup hp hi htok hcnt hfits⟩)
  | encoded _ hp => exact h.completeEncode (hactive hp nofun)
  | lastGroup _ hp => exact h.flushed_completeEncode (hactive hp nofun)

end Sys2Proof.Machine
end

section
/-! PROOF. The encoded objects at the fetch address (spec/10_state.md R35, 41_decoder.md sections 2 to 4): which
instruction a step runs, and Truncated where a byte of it is missing. -/

namespace Sys2Proof.Machine

variable {s t : State}

/-! ## What the phase names -/

theorem State.phaseOp_dHdr (hp : s.phase = .dHdr) : s.phaseOp = s.fetch .header 0 := by rw [State.phaseOp, hp]

theorem State.phaseOp_dGroup (hp : s.phase = .dGroup) (howed : s.dec.pos < s.dec.dlen) :
    s.phaseOp = s.fetch .control s.dec.src := by
  rw [State.phaseOp, hp]
  exact if_neg (mt State.outputComplete_iff.1 (Nat.not_le.2 howed))

theorem State.phaseOp_dGroup_complete (hp : s.phase = .dGroup) (h : s.dec.dlen ≤ s.dec.pos) :
    s.phaseOp = .run .dDone := by
  rw [State.phaseOp, hp]
  exact if_pos (State.outputComplete_iff.2 h)

theorem State.phaseOp_dLit (hp : s.phase = .dLit) : s.phaseOp = s.fetch (.token true) s.dec.src := by
  rw [State.phaseOp, hp]

theorem State.phaseOp_dBref (hp : s.phase = .dBref) : s.phaseOp = s.fetch (.token false) s.dec.src := by
  rw [State.phaseOp, hp]

/-- In a phase that fetches, the phase names the fetch; at a group boundary a byte must be owed. -/
theorem State.phaseOp_fetch {k : FetchKind} (hp : s.phase = fetchPhase k)
    (howed : k = .control → s.dec.pos < s.dec.dlen) : s.phaseOp = s.fetch k (s.fetchAddr k) := by
  match k with
  | .header => exact State.phaseOp_dHdr hp
  | .control => exact State.phaseOp_dGroup hp (howed rfl)
  | .token true => exact State.phaseOp_dLit hp
  | .token false => exact State.phaseOp_dBref hp

/-- Settles O42: fetch, decode and run, by `State.phaseOp_fetch`. -/
theorem stepRunsTheDecodedInstruction : Obligations.StepRunsTheDecodedInstruction :=
  fun _ _ _ _ hu hp howed hdecode => step_of_phaseOp hu ((State.phaseOp_fetch hp howed).trans (State.fetch_of_ok hdecode))

/-! ## The step of each fetching phase -/

theorem step_control {c : Byte} (hu : s.Undisturbed) (hp : s.phase = .dGroup) (howed : s.dec.pos < s.dec.dlen)
    (hc : s.inputAt s.dec.src = some c) : step s = exec (.ctrl c) s :=
  step_of_phaseOp hu ((State.phaseOp_dGroup hp howed).trans (State.fetch_control hc))

theorem step_literal {v : Byte} (hu : s.Undisturbed) (hp : s.phase = .dLit) (hv : s.inputAt s.dec.src = some v) :
    step s = exec (.lit v) s :=
  step_of_phaseOp hu ((State.phaseOp_dLit hp).trans (State.fetch_literal hv))

theorem step_brefS {b0 b1 : Byte} (hu : s.Undisturbed) (hp : s.phase = .dBref) (h0 : s.inputAt s.dec.src = some b0)
    (h1 : s.inputAt (s.dec.src + 1) = some b1) (hn : highNibble b0 ≠ 0#4) :
    step s = exec (.brefS (highNibble b0) (distField b0 b1)) s :=
  step_of_phaseOp hu ((State.phaseOp_dBref hp).trans (State.fetch_short h0 h1 hn))

theorem step_brefX {b0 b1 e : Byte} (hu : s.Undisturbed) (hp : s.phase = .dBref) (h0 : s.inputAt s.dec.src = some b0)
    (h1 : s.inputAt (s.dec.src + 1) = some b1) (h2 : s.inputAt (s.dec.src + 2) = some e) (hn : highNibble b0 = 0#4) :
    step s = exec (.brefX (distField b0 b1) e) s :=
  step_of_phaseOp hu ((State.phaseOp_dBref hp).trans (State.fetch_extended h0 h1 h2 hn))

/-- With nothing owed CTRL is D.DONE, and so is the step, whatever byte stands at `src`. -/
theorem step_group (hu : s.Undisturbed) (hp : s.phase = .dGroup) {c : Byte} (hc : s.inputAt s.dec.src = some c) :
    step s = exec (.ctrl c) s := by
  rcases Nat.lt_or_ge s.dec.pos s.dec.dlen with howed | hcomplete
  · exact step_control hu hp howed hc
  · rw [step_of_phaseOp hu (State.phaseOp_dGroup_complete hp hcomplete)]
    exact ((ctrlLoadsTheControlByte s c).1 hcomplete).symm

/-! ## Missing bytes -/

/-- A step that fetches and finds too few bytes takes Truncated. -/
theorem takesFault_of_fetch (hu : s.Undisturbed) {k : FetchKind} {a need : Nat} (hph : s.phaseOp = s.fetch k a)
    (hf : s.fetch k a = if s.len < a + need then .run (.raise .truncated) else .noByte) (hl : s.len < a + need) :
    TakesFault s .truncated (step s) := by
  rw [if_pos hl] at hf
  rw [step_of_phaseOp hu (hph.trans hf)]
  exact takesFault_of_raise rfl

/-- Settles O16: in each fetching phase the first missing byte ends the fetch. -/
theorem missingBytesRaiseTruncated : Obligations.MissingBytesRaiseTruncated := by
  intro s hu
  refine ⟨fun hp howed hl => ?_, fun hp hl => ?_, fun hp hl => ?_, fun hp hl b0 b1 h0 h1 hb => ?_⟩
  · exact takesFault_of_fetch hu (State.phaseOp_dGroup hp howed)
      (State.fetch_control_none (State.inputAt_of_ge hl)) (by omega)
  · exact takesFault_of_fetch hu (State.phaseOp_dLit hp) (State.fetch_literal_none (State.inputAt_of_ge hl)) (by omega)
  · exact takesFault_of_fetch hu (State.phaseOp_dBref hp)
      (State.fetch_code_none (.inr (State.inputAt_of_ge (by omega)))) hl
  · have hn : highNibble b0 = 0#4 := (highNibble_eq_zero_iff b0).2 (by omega)
    exact takesFault_of_fetch hu (State.phaseOp_dBref hp)
      (State.fetch_extra_none h0 h1 (State.inputAt_of_ge (by omega)) hn) (by omega)

/-! ## The operands of a back-reference -/

/-- Settles O6: the step is BREF.S or BREF.X of the bytes read, and BREF.CHECK passes. -/
theorem backReferenceOperandsAreAssembled : Obligations.BackReferenceOperandsAreAssembled := by
  intro s b0 b1 hu hp h0 h1 hd
  have hl1 := State.inputAt_lt h1
  have hdist : distanceOf (distField b0 b1) = b0.toNat % 16 * 256 + b1.toNat + 1 := distanceOf_distField b0 b1
  refine ⟨fun hShort hfits => ?_, fun hExtended e h2 hfits => ?_⟩
  · have hn : highNibble b0 ≠ 0#4 := mt (highNibble_eq_zero_iff b0).1 hShort
    have hlen := shortLength_highNibble b0
    have hcheck := opBrefCheck_of_legal (s := s.latchShort (highNibble b0) (distField b0 b1))
      (by simpa [State.latchShort, hdist] using hd) (by simpa [State.latchShort, hlen] using hfits)
    refine ⟨_, (step_brefS hu hp h0 h1 hn).trans (settle_of_ok ((opBrefS_of_present _ hn hl1).trans hcheck)), rfl, ?_,
      highNibble_toNat b0, State.setDec_setPhase_keeps s ..⟩
    simp [State.latchShort, hdist, hlen]
  · have hn : highNibble b0 = 0#4 := (highNibble_eq_zero_iff b0).2 hExtended
    have hl2 := State.inputAt_lt h2
    have hcheck := opBrefCheck_of_legal (s := s.latchExtended (distField b0 b1) e)
      (by simpa [State.latchExtended, hdist] using hd) (by simpa [State.latchExtended, extLength] using hfits)
    refine ⟨_, (step_brefX hu hp h0 h1 h2 hn).trans (settle_of_ok ((opBrefX_of_present _ e hl2).trans hcheck)), rfl, ?_,
      State.setDec_setPhase_keeps s ..⟩
    have hb0 : codeByte0 0#4 (distField b0 b1) = b0 := by rw [← hn, codeByte0_fields]
    simp [State.latchExtended, hdist, extLength, hb0]

end Sys2Proof.Machine
end

section
/-! PROOF. The phase table (spec/10_state.md R35): fetching, decoding and executing a header is HDR.PARSE (R120, R121),
and the other phases run the operation they name. -/

namespace Sys2Proof.Machine

variable {s : State}

/-! ## Four bytes of the input -/

/-- Four bytes at `a` are there and begin what is fetched at `a`, or the fetch ends before the fourth and reading them one
by one stops at the missing byte. -/
theorem State.fourBytes_cases (s : State) (a n : Nat) :
    (∃ b0 b1 b2 b3, s.inputAt a = some b0 ∧ s.inputAt (a + 1) = some b1 ∧ s.inputAt (a + 2) = some b2 ∧
      s.inputAt (a + 3) = some b3 ∧ s.inputPrefix a (n + 4) = b0 :: b1 :: b2 :: b3 :: s.inputPrefix (a + 4) n) ∨
    ((s.inputPrefix a (n + 4)).length < 4 ∧ ∀ {α : Type} (f : Byte → Byte → Byte → Byte → Except Stop α),
      (do
        let b0 ← s.inputByte a
        let b1 ← s.inputByte (a + 1)
        let b2 ← s.inputByte (a + 2)
        let b3 ← s.inputByte (a + 3)
        f b0 b1 b2 b3) = .error (.fault .noInputByte)) := by
  cases h0 : s.inputAt a with
  | none => simp [State.inputPrefix_succ_none h0, State.inputByte_of_none h0]
  | some b0 =>
    rw [State.inputPrefix_succ_some h0, State.inputByte_of_some h0]
    cases h1 : s.inputAt (a + 1) with
    | none => simp [State.inputPrefix_succ_none h1, State.inputByte_of_none h1]
    | some b1 =>
      rw [State.inputPrefix_succ_some h1, State.inputByte_of_some h1]
      cases h2 : s.inputAt (a + 2) with
      | none => simp [State.inputPrefix_succ_none h2, State.inputByte_of_none h2]
      | some b2 =>
        rw [State.inputPrefix_succ_some h2, State.inputByte_of_some h2]
        cases h3 : s.inputAt (a + 3) with
        | none => simp [State.inputPrefix_succ_none h3, State.inputByte_of_none h3]
        | some b3 =>
          rw [State.inputPrefix_succ_some h3]
          exact .inl ⟨b0, b1, b2, b3, rfl, rfl, rfl, rfl, rfl⟩

/-- A word can be read and begins what is fetched at `a`, or the fetch ends inside it and reading it stops. -/
theorem State.inputWord_cases (s : State) (a n : Nat) :
    (∃ b0 b1 b2 b3, s.inputWord a = .ok (be32 b0 b1 b2 b3) ∧
      s.inputPrefix a (n + 4) = b0 :: b1 :: b2 :: b3 :: s.inputPrefix (a + 4) n) ∨
    ((s.inputPrefix a (n + 4)).length < 4 ∧ s.inputWord a = .error (.fault .noInputByte)) := by
  rcases s.fourBytes_cases a n with ⟨b0, b1, b2, b3, h0, h1, h2, h3, hprefix⟩ | ⟨hshort, hstop⟩
  · exact .inl ⟨b0, b1, b2, b3, State.inputWord_of_some h0 h1 h2 h3, hprefix⟩
  · exact .inr ⟨hshort, hstop _⟩

/-! ## The fetched header -/

theorem decodeHeader_of_lt {m : Magic} {bs : List Byte} (h : bs.length < 4) : decodeHeader m bs = .error (.short 4) := by
  unfold decodeHeader
  split
  · simp only [List.length_cons] at h
    omega
  · rfl

theorem decodeHeaderWords_of_lt {bs : List Byte} (h : bs.length < 12) : decodeHeaderWords bs = .error (.short 16) := by
  unfold decodeHeaderWords
  split
  · simp only [List.length_cons] at h
    omega
  · rfl

/-- A header whose bytes end early: Truncated where the input ends, and else a byte below IN_LEN is unwritten (R121). -/
theorem step_of_short_header (hu : s.Undisturbed) (hp : s.phase = .dHdr) {need : Nat}
    (h : decode s.cfg.magic .header (s.inputPrefix 0 16) = .error (.short need)) :
    step s = if s.len < need then .next (s.takeFault .truncated) else .fault .noInputByte := by
  have hf := (State.phaseOp_dHdr hp).trans (State.fetch_of_short h)
  rw [Nat.zero_add] at hf
  split
  · rw [if_pos ‹_›] at hf
    rw [step_of_phaseOp hu hf, exec_raise]
  · rw [if_neg ‹_›] at hf
    exact step_of_noByte hu hf

/-- HDR.PARSE after its first two checks (R120). -/
theorem opHdrParse_of_tag (ht : s.TagReads s.cfg.magic) (hl : 16 ≤ s.len) :
    opHdrParse s = (do
      let d ← s.inputWord 4
      let r0 ← s.inputWord 8
      let r1 ← s.inputWord 12
      headerParsed d r0 r1 s) := by
  rw [opHdrParse, if_neg (Nat.not_lt.2 ht.four_le_len), ht.inputTag, ok_bind, if_neg (not_not.2 rfl),
    if_neg (Nat.not_lt.2 hl)]

/-- The three words after a tag that matched, with all 16 bytes inside the input. -/
theorem step_header_words (hu : s.Undisturbed) (hp : s.phase = .dHdr) (ht : s.TagReads s.cfg.magic) (hl : 16 ≤ s.len)
    (hdecode : decode s.cfg.magic .header (s.inputPrefix 0 16) = decodeHeaderWords (s.inputPrefix 4 12)) :
    step s = exec .hdrParse s := by
  rw [exec_hdrParse, opHdrParse_of_tag ht hl]
  have hshort (h : (s.inputPrefix 4 12).length < 12) : step s = .fault .noInputByte := by
    rw [step_of_short_header hu hp (hdecode.trans (decodeHeaderWords_of_lt h)), if_neg (Nat.not_lt.2 hl)]
  have hword4 := s.inputWord_cases 4 8
  have hword8 := s.inputWord_cases 8 4
  have hword12 := s.inputWord_cases 12 0
  simp only [Nat.reduceAdd] at hword4 hword8 hword12
  rcases hword4 with ⟨l0, l1, l2, l3, hd, hp4⟩ | ⟨hlt, hd⟩
  · rcases hword8 with ⟨r0, r1, r2, r3, hr, hp8⟩ | ⟨hlt, hr⟩
    · rcases hword12 with ⟨q0, q1, q2, q3, hq, hp12⟩ | ⟨hlt, hq⟩
      · have hok : decode s.cfg.magic .header (s.inputPrefix 0 16) =
            .ok (.hdr (be32 l0 l1 l2 l3) (be32 r0 r1 r2 r3) (be32 q0 q1 q2 q3), []) := by
          rw [hdecode, hp4, hp8, hp12]
          rfl
        rw [step_of_phaseOp hu ((State.phaseOp_dHdr hp).trans (State.fetch_of_ok hok)), hd, ok_bind, hr, ok_bind, hq,
          ok_bind]
        exact congrArg (settle s) (if_neg (Nat.not_lt.2 hl))
      · rw [hd, ok_bind, hr, ok_bind, hq, error_bind, settle_fault]
        refine hshort ?_
        rw [hp4, hp8]
        simp only [List.length_cons]
        omega
    · rw [hd, ok_bind, hr, error_bind, settle_fault]
      refine hshort ?_
      rw [hp4]
      simp only [List.length_cons]
      omega
  · rw [hd, error_bind, settle_fault]
    exact hshort (by omega)

/-- In P_DHDR fetch, decode and execution are HDR.PARSE: the same checks in the same order (R121). -/
theorem step_header (hu : s.Undisturbed) (hp : s.phase = .dHdr) : step s = exec .hdrParse s := by
  rcases s.fourBytes_cases 0 12 with ⟨b0, b1, b2, b3, h0, h1, h2, h3, hprefix⟩ | ⟨hlt, hstop⟩
  · have hdecode : decode s.cfg.magic .header (s.inputPrefix 0 16) =
        if (⟨b0, b1, b2, b3⟩ : Magic).bytes = s.cfg.magic.bytes then decodeHeaderWords (s.inputPrefix 4 12)
        else .error .badMagic := by
      rw [hprefix]
      rfl
    have ht : s.TagReads ⟨b0, b1, b2, b3⟩ := ⟨h0, h1, h2, h3⟩
    by_cases hm : (⟨b0, b1, b2, b3⟩ : Magic) = s.cfg.magic
    · have htag : s.TagReads s.cfg.magic := hm ▸ ht
      rw [if_pos (Magic.bytes_inj.2 hm)] at hdecode
      by_cases hl : s.len < 16
      · have hwords : (s.inputPrefix 4 12).length < 12 := by
          have := (State.inputPrefix_length s 16 0).2 (by rw [hprefix]; exact nofun)
          rw [hprefix] at this
          simp only [List.length_cons, Nat.zero_add] at this
          omega
        rw [step_of_short_header hu hp (hdecode.trans (decodeHeaderWords_of_lt hwords)), if_pos hl, exec_hdrParse,
          opHdrParse_of_len_lt_header htag hl, settle_raise]
      · exact step_header_words hu hp htag (Nat.not_lt.1 hl) hdecode
    · rw [if_neg (mt Magic.bytes_inj.1 hm)] at hdecode
      rw [step_of_phaseOp hu ((State.phaseOp_dHdr hp).trans (State.fetch_of_badMagic hdecode)), exec_hdrParse,
        opHdrParse_of_tag_ne ht hm, settle_raise, exec_raise]
  · rw [step_of_short_header hu hp (decodeHeader_of_lt hlt), exec_hdrParse]
    by_cases hl : s.len < 4
    · rw [if_pos hl, opHdrParse_of_len_lt_four hl, settle_raise]
    · have htag : s.inputTag = .error (.fault .noInputByte) := hstop _
      rw [if_neg hl, opHdrParse, if_neg hl, htag, error_bind, settle_fault]

/-! ## The table -/

/-- Settles O43: the phases that fetch by the lemma for each object, the others by the operation they name. -/
theorem stepRunsThePhasesOperation : Obligations.StepRunsThePhasesOperation := by
  intro s hu
  refine ⟨fun hp => ?_, step_header hu, fun hp c hc => step_group hu hp hc, fun hp => ?_, fun hp v => step_literal hu hp,
    fun hp b0 b1 h0 h1 => ⟨fun hb => ?_, fun hb e h2 => ?_⟩, fun hp => ?_, fun hp => ?_, fun hp => ?_, fun hp => ?_⟩
  · exact step_of_wait hu (by rw [State.phaseOp, hp])
  · exact step_of_phaseOp hu (by rw [State.phaseOp, hp])
  · have hn : highNibble b0 ≠ 0#4 := mt (highNibble_eq_zero_iff b0).1 (by omega)
    exact ⟨_, _, highNibble_toNat b0, distField_toNat b0 b1, step_brefS hu hp h0 h1 hn⟩
  · exact ⟨_, distField_toNat b0 b1, step_brefX hu hp h0 h1 h2 ((highNibble_eq_zero_iff b0).2 hb)⟩
  · exact step_of_phaseOp hu (by rw [State.phaseOp, hp])
  · exact step_of_phaseOp hu (by rw [State.phaseOp, hp])
  · exact step_of_phaseOp hu (by rw [State.phaseOp, hp])
  · exact step_of_phaseOp hu (by rw [State.phaseOp, hp])

end Sys2Proof.Machine
end

section
/-! PROOF. What no step changes (spec/10_state.md R25, R29, R37; 20_memory.md R72, R74, R79; 60_exceptions.md R240): the
input, the other path's registers, the output that is already written, and everything once a fault is taken. -/

namespace Sys2Proof.Machine

variable {s t : State}

/-! ## A faulted CORE -/

theorem State.Inv.idle_of_not_busy (h : s.Inv) (hs : s.status ≠ .busy) : s.phase = .idle := by
  by_contra hp
  exact hs (h.busyIff.2 hp)

/-- A step that changes nothing, repeated. -/
theorem runSteps_of_fixed (h : step s = .next s) (n : Nat) : runSteps n s = .next s := by
  induction n with
  | zero => rfl
  | succ n ih => rw [runSteps_succ h, ih]

/-- Settles O38: in FAULT the phase is P_IDLE, where CORE waits. -/
theorem faultIsTerminal : Obligations.FaultIsTerminal := by
  intro s n h hu hfault
  have hp : s.phase = .idle := h.idle_of_not_busy (by rw [hfault]; exact nofun)
  exact runSteps_of_fixed ((stepRunsThePhasesOperation s hu).1 hp) n

/-! ## The input -/

/-- The configuration and the input, which no instruction but RESET changes. CMD is left out: a command start takes it. -/
structure SameInput (s t : State) : Prop where
  cfg      : t.cfg = s.cfg
  inLen    : t.inLen = s.inLen
  ibuf     : t.ibuf = s.ibuf
  ibufDraw : t.ibufDraw = s.ibufDraw

/-- The input and the decoder's registers, which no operation of the encode path changes. -/
structure SameDecoder (s t : State) : Prop extends SameInput s t where
  dec : t.dec = s.dec

theorem SameInput.refl (s : State) : SameInput s s := ⟨rfl, rfl, rfl, rfl⟩

theorem SameInput.trans {u : State} (h : SameInput s t) (h' : SameInput t u) : SameInput s u :=
  ⟨h'.cfg.trans h.cfg, h'.inLen.trans h.inLen, h'.ibuf.trans h.ibuf, h'.ibufDraw.trans h.ibufDraw⟩

theorem SameDecoder.refl (s : State) : SameDecoder s s := ⟨.refl s, rfl⟩

theorem SameDecoder.trans {u : State} (h : SameDecoder s t) (h' : SameDecoder t u) : SameDecoder s u :=
  ⟨h.toSameInput.trans h'.toSameInput, h'.dec.trans h.dec⟩

theorem SameInput.takeFault (s : State) (f : FaultKind) : SameInput s (s.takeFault f) :=
  ⟨rfl, rfl, rfl, rfl⟩

theorem SameDecoder.takeFault (s : State) (f : FaultKind) : SameDecoder s (s.takeFault f) :=
  ⟨.takeFault s f, rfl⟩

/-- What an operation's own effect keeps its outcome keeps too: a fault is taken from the state before. -/
theorem SameInput.of_settle {o : Op} (ho : ∀ u, o = .ok u → SameInput s u) (h : settle s o = .next t) :
    SameInput s t := by
  rcases settle_next.1 h with hok | ⟨f, _, rfl⟩
  · exact ho t hok
  · exact .takeFault s f

theorem SameDecoder.of_settle {o : Op} (ho : ∀ u, o = .ok u → SameDecoder s u) (h : settle s o = .next t) :
    SameDecoder s t := by
  rcases settle_next.1 h with hok | ⟨f, _, rfl⟩
  · exact ho t hok
  · exact .takeFault s f

/-! ## The operations of the encode path -/

theorem State.writeOut_sameDecoder {a : Nat} {vs : List Byte} (h : s.writeOut a vs = .ok t) : SameDecoder s t := by
  obtain ⟨_, rfl⟩ := State.writeOut_ok h
  exact ⟨⟨rfl, rfl, rfl, rfl⟩, rfl⟩

theorem State.stage_sameDecoder {vs : List Byte} (h : s.stage vs = .ok t) : SameDecoder s t := by
  rw [State.stage_ok h]
  exact ⟨⟨rfl, rfl, rfl, rfl⟩, rfl⟩

theorem opHdrEmit_sameDecoder (h : opHdrEmit s = .ok t) : SameDecoder s t := by
  unfold opHdrEmit at h
  split at h
  · obtain ⟨u, hu, h⟩ := bind_ok.1 h
    cases h
    exact (State.writeOut_sameDecoder hu).trans ⟨⟨rfl, rfl, rfl, rfl⟩, rfl⟩
  · cases h

theorem opWindow_sameDecoder (h : opWindow s = .ok t) : SameDecoder s t := by
  unfold opWindow at h
  split at h
  · cases h
  · cases h
    exact ⟨⟨rfl, rfl, rfl, rfl⟩, rfl⟩

theorem opMatchlen_sameDecoder (h : opMatchlen s = .ok t) : SameDecoder s t := by
  unfold opMatchlen at h
  split at h
  · cases h
    exact ⟨⟨rfl, rfl, rfl, rfl⟩, rfl⟩
  · cases h

theorem opSelect_sameDecoder (h : opSelect s = .ok t) : SameDecoder s t := by
  unfold opSelect at h
  split at h
  · cases h
    exact ⟨⟨rfl, rfl, rfl, rfl⟩, rfl⟩
  · cases h

theorem opAccept_sameDecoder (h : opAccept s = .ok t) : SameDecoder s t := by
  unfold opAccept at h
  split at h
  · cases h
    exact ⟨⟨rfl, rfl, rfl, rfl⟩, rfl⟩
  · obtain ⟨v, _, h⟩ := bind_ok.1 h
    cases h
    exact ⟨⟨rfl, rfl, rfl, rfl⟩, rfl⟩

theorem State.packBit_sameDecoder (s : State) (c : Bool) : SameDecoder s (s.packBit c) := ⟨⟨rfl, rfl, rfl, rfl⟩, rfl⟩

theorem opEmitLit_sameDecoder {v : Byte} (h : opEmitLit v s = .ok t) : SameDecoder s t :=
  (s.packBit_sameDecoder true).trans (State.stage_sameDecoder h)

theorem opEmitBrefS_sameDecoder {D : BitVec 12} {l : Nat} (h : opEmitBrefS D l s = .ok t) : SameDecoder s t := by
  unfold opEmitBrefS at h
  split at h
  · exact State.stage_sameDecoder h
  · cases h

theorem opEmitBrefX_sameDecoder {D : BitVec 12} {l : Nat} (h : opEmitBrefX D l s = .ok t) : SameDecoder s t := by
  unfold opEmitBrefX at h
  split at h
  · exact State.stage_sameDecoder h
  · cases h

theorem opEmitBref_sameDecoder {d l : Nat} (h : opEmitBref d l s = .ok t) : SameDecoder s t := by
  unfold opEmitBref at h
  split at h
  · split at h
    · exact (s.packBit_sameDecoder false).trans (opEmitBrefS_sameDecoder h)
    · exact (s.packBit_sameDecoder false).trans (opEmitBrefX_sameDecoder h)
  · cases h

theorem opFlush_sameDecoder (h : opFlush s = .ok t) : SameDecoder s t := by
  unfold opFlush at h
  split at h
  · obtain ⟨u, hu, h⟩ := bind_ok.1 h
    cases h
    exact (State.writeOut_sameDecoder hu).trans ⟨⟨rfl, rfl, rfl, rfl⟩, rfl⟩
  · cases h

theorem opFlushIfFull_sameDecoder (h : opFlushIfFull s = .ok t) : SameDecoder s t := by
  unfold opFlushIfFull at h
  split at h
  · exact opFlush_sameDecoder h
  · cases h
    exact .refl s

theorem opEmitDecision_sameDecoder (h : opEmitDecision s = .ok t) : SameDecoder s t := by
  unfold opEmitDecision at h
  split at h
  · obtain ⟨u, hu, h⟩ := bind_ok.1 h
    cases h
    exact (opEmitBref_sameDecoder hu).trans ⟨⟨rfl, rfl, rfl, rfl⟩, rfl⟩
  · obtain ⟨u, hu, h⟩ := bind_ok.1 h
    cases h
    exact (opEmitLit_sameDecoder hu).trans ⟨⟨rfl, rfl, rfl, rfl⟩, rfl⟩

theorem opEStep_sameDecoder (h : opEStep s = .ok t) : SameDecoder s t := by
  unfold opEStep at h
  split at h
  · cases h
    exact ⟨⟨rfl, rfl, rfl, rfl⟩, rfl⟩
  · obtain ⟨w, hw, h⟩ := bind_ok.1 h
    obtain ⟨m, hm, h⟩ := bind_ok.1 h
    obtain ⟨a, ha, h⟩ := bind_ok.1 h
    obtain ⟨e, he, h⟩ := bind_ok.1 h
    exact (opWindow_sameDecoder hw).trans ((opSelect_sameDecoder hm).trans ((opAccept_sameDecoder ha).trans
      ((opEmitDecision_sameDecoder he).trans (opFlushIfFull_sameDecoder h))))

theorem opEDone_sameDecoder (h : opEDone s = .ok t) : SameDecoder s t := by
  unfold opEDone at h
  split at h
  · cases h
    exact ⟨⟨rfl, rfl, rfl, rfl⟩, rfl⟩
  · cases h

theorem opFinal_sameDecoder (h : opFinal s = .ok t) : SameDecoder s t := by
  unfold opFinal at h
  split at h
  · exact opEDone_sameDecoder h
  · obtain ⟨u, hu, h⟩ := bind_ok.1 h
    exact (opFlush_sameDecoder hu).trans (opEDone_sameDecoder h)

/-! ## The operations of the decode path -/

theorem headerParsed_sameInput {d r0 r1 : Word32} (h : headerParsed d r0 r1 s = .ok t) : SameInput s t := by
  unfold headerParsed at h
  split at h
  · cases h
    exact ⟨rfl, rfl, rfl, rfl⟩
  · cases h

theorem opHdr_sameInput {d r0 r1 : Word32} (h : opHdr d r0 r1 s = .ok t) : SameInput s t := by
  unfold opHdr at h
  split at h
  · cases h
  · exact headerParsed_sameInput h

theorem opHdrParse_sameInput (h : opHdrParse s = .ok t) : SameInput s t := by
  unfold opHdrParse at h
  split at h
  · cases h
  · obtain ⟨tag, _, h⟩ := bind_ok.1 h
    split at h
    · cases h
    · split at h
      · cases h
      · obtain ⟨d, _, h⟩ := bind_ok.1 h
        obtain ⟨r0, _, h⟩ := bind_ok.1 h
        obtain ⟨r1, _, h⟩ := bind_ok.1 h
        exact headerParsed_sameInput h

theorem opCtrl_sameInput {c : Byte} (h : opCtrl c s = .ok t) : SameInput s t := by
  unfold opCtrl at h
  split at h
  · cases h
    exact ⟨rfl, rfl, rfl, rfl⟩
  · split at h
    · cases h
    · cases h
      exact ⟨rfl, rfl, rfl, rfl⟩

theorem opDispatch_sameInput (h : opDispatch s = .ok t) : SameInput s t := by
  unfold opDispatch at h
  split at h
  · cases h
    exact ⟨rfl, rfl, rfl, rfl⟩
  · split at h
    · cases h
      exact ⟨rfl, rfl, rfl, rfl⟩
    · cases h
      exact ⟨rfl, rfl, rfl, rfl⟩

theorem opLit_sameInput {v : Byte} (h : opLit v s = .ok t) : SameInput s t := by
  unfold opLit at h
  split at h
  · cases h
  · obtain ⟨u, hu, h⟩ := bind_ok.1 h
    cases h
    exact (State.writeOut_sameDecoder hu).toSameInput.trans ⟨rfl, rfl, rfl, rfl⟩

theorem opBrefCheck_sameInput (h : opBrefCheck s = .ok t) : SameInput s t := by
  unfold opBrefCheck at h
  split at h
  · cases h
  · split at h
    · cases h
    · cases h
      exact ⟨rfl, rfl, rfl, rfl⟩

theorem opBrefS_sameInput {n : BitVec 4} {D : BitVec 12} (h : opBrefS n D s = .ok t) : SameInput s t := by
  unfold opBrefS at h
  split at h
  · cases h
  · split at h
    · cases h
    · have hcheck := opBrefCheck_sameInput h
      exact ⟨hcheck.cfg, hcheck.inLen, hcheck.ibuf, hcheck.ibufDraw⟩

theorem opBrefX_sameInput {D : BitVec 12} {e : Byte} (h : opBrefX D e s = .ok t) : SameInput s t := by
  unfold opBrefX at h
  split at h
  · cases h
  · split at h
    · cases h
    · have hcheck := opBrefCheck_sameInput h
      exact ⟨hcheck.cfg, hcheck.inLen, hcheck.ibuf, hcheck.ibufDraw⟩

theorem opReplay_sameInput (h : opReplay s = .ok t) : SameInput s t := by
  unfold opReplay at h
  split at h
  · cases h
    exact ⟨rfl, rfl, rfl, rfl⟩
  · split at h
    · cases h
    · obtain ⟨v, _, h⟩ := bind_ok.1 h
      obtain ⟨u, hu, h⟩ := bind_ok.1 h
      cases h
      exact (State.writeOut_sameDecoder hu).toSameInput.trans ⟨rfl, rfl, rfl, rfl⟩

/-! ## The commands -/

theorem opDecode_sameInput (h : opDecode s = .ok t) : SameInput s t := by
  unfold opDecode at h
  split at h
  · cases h
    exact ⟨rfl, rfl, rfl, rfl⟩
  · split at h
    · cases h
      exact ⟨rfl, rfl, rfl, rfl⟩
    · cases h

theorem opEncode_sameInput (h : opEncode s = .ok t) : SameInput s t := by
  unfold opEncode at h
  split at h
  · cases h
    exact ⟨rfl, rfl, rfl, rfl⟩
  · split at h
    · split at h
      · cases h
        exact ⟨rfl, rfl, rfl, rfl⟩
      · cases h
    · cases h

/-- One lemma for each instruction's operation. -/
theorem exec_sameInput {i : Instr} (hi : i ≠ .reset) (h : exec i s = .next t) : SameInput s t := by
  cases i with
  | hdr d r0 r1 => exact .of_settle (fun _ => opHdr_sameInput) h
  | ctrl c => exact .of_settle (fun _ => opCtrl_sameInput) h
  | lit v => exact .of_settle (fun _ => opLit_sameInput) h
  | brefS n D => exact .of_settle (fun _ => opBrefS_sameInput) h
  | brefX D e => exact .of_settle (fun _ => opBrefX_sameInput) h
  | hdrParse => exact .of_settle (fun _ => opHdrParse_sameInput) h
  | hdrEmit => exact .of_settle (fun _ hu => (opHdrEmit_sameDecoder hu).toSameInput) h
  | dispatch => exact .of_settle (fun _ => opDispatch_sameInput) h
  | brefCheck => exact .of_settle (fun _ => opBrefCheck_sameInput) h
  | replay => exact .of_settle (fun _ => opReplay_sameInput) h
  | dDone => cases h; exact ⟨rfl, rfl, rfl, rfl⟩
  | window => exact .of_settle (fun _ hu => (opWindow_sameDecoder hu).toSameInput) h
  | matchlen => exact .of_settle (fun _ hu => (opMatchlen_sameDecoder hu).toSameInput) h
  | select => exact .of_settle (fun _ hu => (opSelect_sameDecoder hu).toSameInput) h
  | accept => exact .of_settle (fun _ hu => (opAccept_sameDecoder hu).toSameInput) h
  | eStep => exact .of_settle (fun _ hu => (opEStep_sameDecoder hu).toSameInput) h
  | emitLit v => exact .of_settle (fun _ hu => (opEmitLit_sameDecoder hu).toSameInput) h
  | emitBref d l => exact .of_settle (fun _ hu => (opEmitBref_sameDecoder hu).toSameInput) h
  | emitBrefS D l => exact .of_settle (fun _ hu => (opEmitBrefS_sameDecoder hu).toSameInput) h
  | emitBrefX D l => exact .of_settle (fun _ hu => (opEmitBrefX_sameDecoder hu).toSameInput) h
  | pack c => cases h; exact ⟨rfl, rfl, rfl, rfl⟩
  | flush => exact .of_settle (fun _ hu => (opFlush_sameDecoder hu).toSameInput) h
  | final => exact .of_settle (fun _ hu => (opFinal_sameDecoder hu).toSameInput) h
  | eDone => exact .of_settle (fun _ hu => (opEDone_sameDecoder hu).toSameInput) h
  | decode => exact .of_settle (fun _ => opDecode_sameInput) h
  | encode => exact .of_settle (fun _ => opEncode_sameInput) h
  | raise f => cases h; exact .takeFault s f
  | reset => exact absurd rfl hi

/-- Settles O46: `exec_sameInput`, and for RESET the one field it leaves. -/
theorem coreNeverWritesItsInput : Obligations.CoreNeverWritesItsInput := by
  intro i s t h
  by_cases hi : i = .reset
  · subst hi
    cases h
    exact ⟨rfl, fun hne => absurd rfl hne⟩
  · have hkeep := exec_sameInput hi h
    exact ⟨hkeep.cfg, fun _ => ⟨hkeep.inLen, hkeep.ibufDraw, fun a => by rw [hkeep.ibuf]⟩⟩

/-! ## The other path's registers -/

theorem Phase.not_scanning_of_decode {p : Phase} (h : p.decoding = true ∨ p = .dHdr) :
    ¬ (p.scanning = true ∨ p = .eHdr) := by
  revert h
  cases p <;> decide

/-- A step of the decode path leaves the encoder's registers. -/
theorem Effect.keepsEncoder (h : Effect s t) (hu : s.Undisturbed) (hp : s.phase.decoding = true ∨ s.phase = .dHdr) :
    t.enc = s.enc ∧ t.grp = s.grp := by
  obtain ⟨hrst, hcmd⟩ := hu
  have hne {p : Phase} (hs : s.phase = p) (hsc : p.scanning = true ∨ p = .eHdr) : t.enc = s.enc ∧ t.grp = s.grp :=
    absurd (hs ▸ hsc) (Phase.not_scanning_of_decode hp)
  cases h with
  | reset hreset => exact absurd (hrst.symm.trans hreset) nofun
  | dropped => exact ⟨rfl, rfl⟩
  | startDecode _ hwrite => exact absurd hcmd hwrite
  | startEncode _ hwrite => exact absurd hcmd hwrite
  | emitHeader _ hs => exact hne hs (.inr rfl)
  | scanned _ hs => exact hne hs (.inl rfl)
  | token _ _ _ _ _ _ hs => exact hne hs (.inl rfl)
  | fullGroup _ _ _ _ _ _ hs => exact hne hs (.inl rfl)
  | encoded _ hs => exact hne hs (.inl rfl)
  | lastGroup _ hs => exact hne hs (.inl rfl)
  | _ => exact ⟨by simp, by simp⟩

/-- A step of the encode path leaves the decoder's registers. -/
theorem step_sameDecoder (hu : s.Undisturbed) (hp : s.phase.scanning = true ∨ s.phase = .eHdr) (h : step s = .next t) :
    t.dec = s.dec := by
  obtain ⟨_, _, _, _, _, _, _, hHdr, hScan, hFinal⟩ := stepRunsThePhasesOperation s hu
  have hkeep : SameDecoder s t := by
    cases hs : s.phase with
    | eHdr => rw [hHdr hs] at h; exact .of_settle (fun _ => opHdrEmit_sameDecoder) h
    | eScan => rw [hScan hs] at h; exact .of_settle (fun _ => opEStep_sameDecoder) h
    | eFinal => rw [hFinal hs] at h; exact .of_settle (fun _ => opFinal_sameDecoder) h
    | _ => simp [hs, Phase.scanning] at hp
  exact hkeep.dec

/-- Settles O47: the decode path by the effects of a step, the encode path by its three operations. -/
theorem pathsShareNoDatapathRegister : Obligations.PathsShareNoDatapathRegister := by
  intro s t hu hstep
  refine ⟨fun hp => ?_, fun hp => step_sameDecoder hu hp hstep⟩
  have hscan : s.phase.scanning = true → s.grp.HasRoom := fun hs => absurd (.inl hs) (Phase.not_scanning_of_decode hp)
  exact (step_effect hscan hstep).keepsEncoder hu hp

/-! ## The decoder's cursors and output -/

/-- Settles O48: the effects of the decode path one by one. Only LIT and REPLAY write, both at `pos`, and `pos` is below
`dlen` there by the invariant. -/
theorem decoderStepsAreBounded : Obligations.DecoderStepsAreBounded := by
  intro s t h hu hdecoding hstep
  obtain ⟨hrst, hcmd⟩ := hu
  have hd := h.decoding hdecoding
  have hsrc := hd.srcHigh
  have hother {p : Phase} {P : Prop} (hs : s.phase = p) (hp : p.decoding = false) : P := by
    rw [hs, hp] at hdecoding
    cases hdecoding
  have hstore (v : Byte) (hlt : s.dec.pos < s.dec.dlen) (x : Nat) (hx : x ≠ s.dec.pos ∨ s.dec.dlen ≤ x) :
      Memory.read (Memory.writeList s.obuf s.dec.pos [v]) x = Memory.read s.obuf x :=
    Memory.read_write_ne _ v (by omega)
  cases h.effect hstep with
  | reset hreset => exact absurd (hrst.symm.trans hreset) nofun
  | dropped _ hwrite => exact absurd hcmd hwrite
  | startDecode _ hwrite => exact absurd hcmd hwrite
  | startEncode _ hwrite => exact absurd hcmd hwrite
  | wait _ hs => exact hother hs rfl
  | header _ _ _ _ hs => exact hother hs rfl
  | fault f => exact ⟨⟨le_rfl, by simp, hsrc⟩, fun _ _ => rfl⟩
  | decoded => exact ⟨⟨le_rfl, by simp, hsrc⟩, fun _ _ => rfl⟩
  | control c _ _ _ hc => exact ⟨⟨by simp, by simp, State.inputAt_lt hc⟩, fun _ _ => rfl⟩
  | nextGroup => exact ⟨⟨le_rfl, by simp, hsrc⟩, fun _ _ => rfl⟩
  | dispatch => exact ⟨⟨le_rfl, by simp, hsrc⟩, fun _ _ => rfl⟩
  | literal v _ hs hv => exact ⟨⟨by simp, by simp, State.inputAt_lt hv⟩, hstore v (hd.owed (.inl hs))⟩
  | startCopy d _ _ _ _ _ hlow hhigh hlen => exact ⟨⟨by simp; omega, hhigh, hlen⟩, fun _ _ => rfl⟩
  | copyByte v _ hs hcnt =>
    obtain ⟨_, _, hend, _⟩ := hd.copying hs
    exact ⟨⟨le_rfl, by simp, hsrc⟩, hstore v (by omega)⟩
  | endCopy => exact ⟨⟨le_rfl, by simp, hsrc⟩, fun _ _ => rfl⟩
  | emitHeader _ hs => exact hother hs rfl
  | scanned _ hs => exact hother hs rfl
  | token _ _ _ _ _ _ hs => exact hother hs rfl
  | fullGroup _ _ _ _ _ _ hs => exact hother hs rfl
  | encoded _ hs => exact hother hs rfl
  | lastGroup _ hs => exact hother hs rfl

/-! ## The copy as a whole -/

/-- R147 on a copy in progress: the state after one byte. -/
def State.copied (s : State) (v : Byte) : State :=
  (s.setObuf (Memory.writeList s.obuf s.dec.pos [v])).setDec { s.dec with pos := s.dec.pos + 1, cnt := s.dec.cnt - 1 }

/-- A copy that is legal, with its source written and room for its bytes. -/
structure State.CopyReady (s : State) : Prop where
  undisturbed : s.Undisturbed
  phase       : s.phase = .dCopy
  distPos     : 1 ≤ s.dec.distance
  distLe      : s.dec.distance ≤ s.dec.pos
  fits        : s.obufFits (s.dec.pos + s.dec.cnt) = true
  written     : ∀ a, a < s.dec.pos → (Memory.read s.obuf a).isSome = true

theorem step_copy {v : Byte} (h : s.CopyReady) (hc : s.dec.cnt ≠ 0)
    (hv : Memory.read s.obuf (s.dec.pos - s.dec.distance) = some v) : step s = .next (s.copied v) := by
  rw [step_of_phaseOp (i := .replay) h.undisturbed (by rw [State.phaseOp, h.phase])]
  exact settle_of_ok (opReplay_of_read hc h.distLe (State.obufFits_mono h.fits (by omega)) hv)

theorem State.CopyReady.copied (h : s.CopyReady) (hc : s.dec.cnt ≠ 0) (v : Byte) : (s.copied v).CopyReady where
  undisturbed := h.undisturbed
  phase := h.phase
  distPos := h.distPos
  distLe := h.distLe.trans (Nat.le_succ _)
  fits := State.obufFits_mono h.fits (by simp [State.copied]; omega)
  written := Memory.written_store h.written v

/-- What R74 says the copy leaves of the output. -/
abbrev RepeatsLast (s t : State) (n : Nat) : Prop :=
  (∀ x, x < n →
    Memory.read t.obuf (s.dec.pos + x) = Memory.read s.obuf (s.dec.pos - s.dec.distance + x % s.dec.distance)) ∧
  ∀ x, x < s.dec.pos ∨ s.dec.pos + n ≤ x → Memory.read t.obuf x = Memory.read s.obuf x

theorem State.copied_read (s : State) (v : Byte) (x : Nat) :
    Memory.read (s.copied v).obuf x = if x = s.dec.pos then some v else Memory.read s.obuf x :=
  Memory.read_write ..

/-- The first byte of a copy and the rest of it: the rest repeats the last `distance` bytes of an output that is one byte
longer, so its phase in the period moves by one. -/
theorem RepeatsLast.of_copied {v : Byte} {n : Nat} (h1 : 1 ≤ s.dec.distance) (hle : s.dec.distance ≤ s.dec.pos)
    (hv : Memory.read s.obuf (s.dec.pos - s.dec.distance) = some v) (h : RepeatsLast (s.copied v) t n) :
    RepeatsLast s t (n + 1) := by
  obtain ⟨hin, hout⟩ := h
  have hpos : (s.copied v).dec.pos = s.dec.pos + 1 := rfl
  have hdist : (s.copied v).dec.distance = s.dec.distance := rfl
  rw [hpos] at hout
  simp only [hpos, hdist, State.copied_read] at hin
  refine ⟨fun x hx => ?_, fun x hx => ?_⟩
  · cases x with
    | zero =>
      rw [hout (s.dec.pos + 0) (by omega), State.copied_read, if_pos (Nat.add_zero _), Nat.zero_mod, Nat.add_zero, hv]
    | succ x =>
      have hmod := Nat.mod_lt x h1
      rw [show s.dec.pos + (x + 1) = s.dec.pos + 1 + x by omega, hin x (by omega)]
      by_cases hlast : x % s.dec.distance + 1 = s.dec.distance
      · have hwrap : (x + 1) % s.dec.distance = 0 := by rw [← Nat.mod_add_mod, hlast, Nat.mod_self]
        rw [if_pos (by omega), hwrap, Nat.add_zero, hv]
      · have hnext : (x + 1) % s.dec.distance = x % s.dec.distance + 1 := by
          rw [← Nat.mod_add_mod, Nat.mod_eq_of_lt (by omega)]
        rw [if_neg (by omega), hnext]
        congr 1
        omega
  · rw [hout x (by omega), State.copied_read, if_neg (by omega)]

/-- R74 with the frame of the whole copy. -/
theorem runSteps_copy (n : Nat) : ∀ {s : State}, s.CopyReady → s.dec.cnt = n →
    ∃ t, runSteps n s = .next t ∧ t.phase = .dCopy ∧ t.dec = { s.dec with pos := s.dec.pos + n, cnt := 0 } ∧
      RepeatsLast s t n ∧ KeepsInputs s t ∧ KeepsResult s t ∧ KeepsEncoder s t := by
  induction n with
  | zero =>
    intro s h hc
    refine ⟨s, rfl, h.phase, ?_, ⟨fun x hx => absurd hx (Nat.not_lt_zero x), fun _ _ => rfl⟩,
      by simp [KeepsInputs, KeepsResult, KeepsEncoder]⟩
    rw [Nat.add_zero, ← hc]
  | succ n ih =>
    intro s h hc
    have hne : s.dec.cnt ≠ 0 := by omega
    have hpos := h.distPos
    have hle := h.distLe
    obtain ⟨v, hv⟩ := Option.isSome_iff_exists.1 (h.written (s.dec.pos - s.dec.distance) (by omega))
    obtain ⟨t, hrun, hphase, hdec, hrep, hin, hres, henc⟩ :=
      ih (h.copied hne v) (show s.dec.cnt - 1 = n by omega)
    refine ⟨t, (runSteps_succ (step_copy h hne hv) n).trans hrun, hphase, ?_, hrep.of_copied hpos hle hv, hin, hres, henc⟩
    rw [hdec, show s.dec.pos + (n + 1) = s.dec.pos + 1 + n by omega]
    rfl

/-- Settles O18: `runSteps_copy`, by induction on the bytes still to copy. -/
theorem replayRepeatsTheLastBytes : Obligations.ReplayRepeatsTheLastBytes := by
  intro s hu hp h1 hle hfits hwritten
  obtain ⟨t, hrun, hphase, hdec, ⟨hin, hout⟩, hkeep⟩ := runSteps_copy s.dec.cnt ⟨hu, hp, h1, hle, hfits, hwritten⟩ rfl
  exact ⟨t, hrun, hphase, hdec, hin, hout, hkeep⟩

end Sys2Proof.Machine
end

section
/-! PROOF. Progress and refusals (spec/70_reset_and_hazards.md R269; 44_commands.md R214): from the invariant a step stops
only where HOST left a byte of the input out, or where a buffer's capacity or the header's length field is exceeded. -/

namespace Sys2Proof.Machine

variable {s : State}

theorem State.Inv.ends (h : s.Inv) : Ends s (step s) :=
  step_ends fun hp => (h.scanning hp).hasRoom

/-! ## What the invariant rules out -/

/-- A byte that is owed has an address in OBUF: `dlen` bytes fit. -/
theorem State.DecInv.fits_of_owed (h : s.DecInv) (howed : s.dec.pos < s.dec.dlen) : s.obufFits (s.dec.pos + 1) = true :=
  State.obufFits_mono h.fits howed

theorem State.Inv.literal_fits (h : s.Inv) (hp : s.phase = .dLit) : s.obufFits (s.dec.pos + 1) = true := by
  have hd := h.decoding (by rw [hp]; rfl)
  exact hd.fits_of_owed (hd.owed (.inl hp))

/-- The copy's source lies before `pos` and its byte is owed. -/
theorem State.Inv.copyInside (h : s.Inv) (hp : s.phase = .dCopy) (hc : s.dec.cnt ≠ 0) :
    s.obufFits (s.dec.pos + 1) = true ∧ s.dec.distance ≤ s.dec.pos ∧
      (Memory.read s.obuf (s.dec.pos - s.dec.distance)).isSome = true := by
  have hd := h.decoding (by rw [hp]; rfl)
  obtain ⟨h1, hle, hend, _⟩ := hd.copying hp
  exact ⟨hd.fits_of_owed (by omega), hle, hd.written _ (by omega)⟩

/-- ENCODE runs on an input whose length a header can state. -/
theorem State.Inv.encodable (h : s.Inv) (hp : s.phase = .eHdr ∨ s.phase = .eFinal) : s.len < 2 ^ 32 := by
  rcases hp with hp | hp
  · exact (h.header hp).1
  · exact (h.scanning (by rw [hp]; rfl)).encodable

/-! ## Refusals -/

section
variable {b : Best} {g : Group} {i' : Nat} {bytes : List Byte}

theorem TokenOf.bytes_length (h : TokenOf s b g i' bytes) :
    bytes.length = if 3 ≤ b.len then (payloadOf b.dist b.len).length else 1 := by
  obtain ⟨hbackRef, hliteral⟩ := h.advance
  split
  case isTrue hl => rw [(hbackRef hl).2]
  case isFalse hl =>
    obtain ⟨_, v, _, rfl⟩ := hliteral (by omega)
    rfl

end

/-- Settles O51: the ways a step can be refused, less those the invariant rules out. -/
theorem stepsAreRefusedForCapacityOnly : Obligations.StepsAreRefusedForCapacityOnly := by
  intro s r h hstep
  have hends := h.ends
  rw [hstep] at hends
  cases hends with
  | inputCapacity hrst hcmd hbusy hfits => exact ⟨hrst, .inl ⟨rfl, hcmd, hbusy, hfits⟩⟩
  | startTooLong hrst hcmd hbusy hlen => exact ⟨hrst, .inr (.inl ⟨rfl, hcmd, hbusy, hlen⟩)⟩
  | inputTooLong _ hp hlen => exact absurd (h.encodable hp) (Nat.not_lt.2 hlen)
  | outputCapacity hu hexceeds =>
    obtain ⟨hrst, hcmd⟩ := hu
    refine ⟨hrst, .inr (.inr ⟨rfl, hcmd, ?_⟩)⟩
    cases hexceeds with
    | declared d hp hdeclares hfits => exact .inl ⟨hp, d, hdeclares, hfits⟩
    | literal hp hfits => exact absurd ((h.literal_fits hp).symm.trans hfits) nofun
    | copyByte hp hc hfits => exact absurd ((h.copyInside hp hc).1.symm.trans hfits) nofun
    | header hp hfits => exact .inr (.inl ⟨hp, hfits⟩)
    | fullGroup b g i' bytes hp hi htok hcnt hfits =>
      have hseven : s.grp.cnt = 7 := by
        have := htok.cnt
        omega
      rw [htok.len, htok.bytes_length] at hfits
      exact .inr (.inr (.inl ⟨hp, hseven, b, htok.find, hfits⟩))
    | lastGroup hp hc hfits => exact .inr (.inr (.inr ⟨hp, hc, hfits⟩))

/-! ## Progress -/

/-- Nothing the step of this phase writes exceeds OBUF: on the decode path by the declared length, on the encode path by
R202's bound on the frame. -/
theorem State.Inv.not_outputExceeds (h : s.Inv) (hdeclared : s.phase = .dHdr → ∀ d, s.Declares d → s.obufFits d = true)
    (hbound : s.phase = .eHdr ∨ s.phase.scanning = true → s.obufFits (16 + s.len + (s.len + 7) / 8) = true) :
    ¬ OutputExceeds s := by
  intro hexceeds
  cases hexceeds with
  | declared d hp hdeclares hfits => exact absurd ((hdeclared hp d hdeclares).symm.trans hfits) nofun
  | literal hp hfits => exact absurd ((h.literal_fits hp).symm.trans hfits) nofun
  | copyByte hp hc hfits => exact absurd ((h.copyInside hp hc).1.symm.trans hfits) nofun
  | header hp hfits => exact absurd ((State.obufFits_mono (hbound (.inl hp)) (by omega)).symm.trans hfits) nofun
  | fullGroup b g i' bytes hp hi htok hcnt hfits =>
    have hscan : s.phase.scanning = true := by rw [hp]; rfl
    obtain ⟨hb1, _, hadvance, hinside⟩ := htok.bounds hi
    have hsize := (h.scanning hscan).size
    have hc := htok.cnt
    have hl := htok.len
    exact absurd ((State.obufFits_mono (hbound (.inr hscan)) (by omega)).symm.trans hfits) nofun
  | lastGroup hp hc hfits =>
    have hscan : s.phase.scanning = true := by rw [hp]; rfl
    have hsize := (h.scanning hscan).size
    have hend := (h.scanning hscan).scanEnd hp
    exact absurd ((State.obufFits_mono (hbound (.inr hscan)) (by omega)).symm.trans hfits) nofun

/-- Settles O50: each way a step can stop contradicts the invariant or one of HOST's duties. -/
theorem everyStepCompletes : Obligations.EveryStepCompletes := by
  intro s h hloaded hstart hencode hdeclared hbound
  cases hstep : step s with
  | next t => exact ⟨t, rfl⟩
  | fault r =>
    have hends := h.ends
    rw [hstep] at hends
    cases hends with
    | unread hmissing =>
      obtain ⟨a, ha, hnone⟩ := hmissing
      obtain ⟨v, hv⟩ := State.inputAt_loaded hloaded ha
      exact absurd (hv.symm.trans hnone) nofun
    | noSource _ hp hc hlt => exact absurd (h.copyInside hp hc).2.1 (Nat.not_le.2 hlt)
    | unwritten _ hp hc hnone =>
      obtain ⟨_, _, hsome⟩ := h.copyInside hp hc
      rw [hnone] at hsome
      cases hsome
  | refused r =>
    have hends := h.ends
    rw [hstep] at hends
    cases hends with
    | inputCapacity _ hcmd hbusy hfits => exact absurd ((hstart hbusy hcmd).symm.trans hfits) nofun
    | startTooLong _ hcmd hbusy hlen => exact absurd (hencode hbusy hcmd) (Nat.not_lt.2 hlen)
    | inputTooLong _ hp hlen => exact absurd (h.encodable hp) (Nat.not_lt.2 hlen)
    | outputCapacity _ hexceeds => exact absurd hexceeds (h.not_outputExceeds hdeclared hbound)

end Sys2Proof.Machine
end

section
/-! PROOF. The search as a function of the input (spec/42_match_finder.md R173, R178; 44_commands.md R218). -/

namespace Sys2Proof.Machine

/-- A byte string as a reader. -/
theorem getElem?_isSome_of_lt {inp : List Byte} {a : Nat} (h : a < inp.length) : (inp[a]?).isSome = true := by
  rw [List.getElem?_eq_getElem h]
  rfl

/-- Inside the input the search of R203 has an answer, and it is R173's. -/
theorem findIn_find {inp : List Byte} {i : Nat} (h : i ≤ inp.length) :
    findBest (fun a => inp[a]?) (windowLo i) (windowCap inp.length i) i = some (findIn inp i) := by
  obtain ⟨b, hb⟩ := findBest_total (lo := windowLo i) (fun a ha => getElem?_isSome_of_lt ha) (windowCap_inside h)
  rw [findIn, hb, Option.getD_some]

theorem findIn_bounds {inp : List Byte} {i : Nat} (h : i ≤ inp.length) (hl : 0 < (findIn inp i).len) :
    (findIn inp i).len ≤ 273 ∧ 1 ≤ (findIn inp i).dist ∧ (findIn inp i).dist ≤ 4096 ∧ (findIn inp i).dist ≤ i ∧
      i + (findIn inp i).len ≤ inp.length ∧
      ∀ x, x < (findIn inp i).len → inp[i - (findIn inp i).dist + x]? = inp[i + x]? := by
  obtain ⟨hmax, hd1, hd2, hdi, hend, hequal⟩ := (findBest_spec (findIn_find h)).bounds h hl
  refine ⟨hmax, hd1, hd2, hdi, hend, fun x hx => ?_⟩
  obtain ⟨v, hsource, htarget⟩ := hequal x hx
  exact hsource.trans htarget.symm

/-- Settles O24: the bounds of a match, for the reader of a byte string. -/
theorem acceptedMatchIsLegal : Obligations.AcceptedMatchIsLegal :=
  fun _ _ hi hl => findIn_bounds hi.le (by omega)

end Sys2Proof.Machine
end

section
/-! PROOF. Single operations: the header object (spec/40_frame_header.md), the ends of both commands (R148, R199, R201),
ACCEPT (R175), and the terms that are no instructions (R96, R195, R196). -/

namespace Sys2Proof.Machine

variable {s : State}

/-! ## The header object -/

/-- Settles O8: R120's writes, or R121's last check, or R214 (d). -/
theorem headerObjectExecutes : Obligations.HeaderObjectExecutes := by
  intro s d r0 r1
  have hwhole (hl : 16 ≤ s.len) : opHdr d r0 r1 s = headerParsed d r0 r1 s := if_neg (Nat.not_lt.2 hl)
  refine ⟨fun hl hf => ?_, fun hl => ?_, fun hl hf => ?_⟩
  · exact ⟨_, settle_of_ok ((hwhole hl).trans (headerParsed_of_fits r0 r1 hf)), rfl, rfl, rfl, rfl, rfl, rfl, rfl, rfl,
      State.withHeader_keeps ..⟩
  · exact settle_of_raise (if_pos hl)
  · have hrefused : headerParsed d r0 r1 s = .error (.refused .outputCapacity) := if_neg (by rw [hf]; exact nofun)
    exact settle_eq_refused.2 ((hwhole hl).trans hrefused)

/-! ## D.DONE -/

/-- Settles O19: a `dlen` of 32 bits is not cut by OUT_LEN's 64. -/
theorem decodeCompletes : Obligations.DecodeCompletes := by
  intro s hd
  refine ⟨s.completeDecode, rfl, ?_, rfl, rfl, rfl, rfl, rfl, rfl, rfl, by simp [KeepsInputs, KeepsEncoder, KeepsOutput]⟩
  rw [State.completeDecode_outLen, BitVec.toNat_ofNat]
  omega

/-! ## ACCEPT -/

theorem opAccept_of_match (h : 3 ≤ s.enc.bestLen) :
    opAccept s = .ok (s.setEnc { s.enc with decision := .backRef s.enc.bestDist s.enc.bestLen }) :=
  if_pos (State.matchAccepted_iff.2 h)

theorem opAccept_of_literal (h : s.enc.bestLen < 3) {v : Byte} (hv : s.inputAt s.enc.i = some v) :
    opAccept s = .ok (s.setEnc { s.enc with decision := .literal v }) := by
  rw [opAccept, if_neg (mt State.matchAccepted_iff.1 (Nat.not_le.2 h)), State.inputByte_of_some hv, ok_bind]

/-- Settles O23: the two sides of the threshold. -/
theorem acceptAppliesTheThreshold : Obligations.AcceptAppliesTheThreshold := by
  intro s
  refine ⟨fun h => ?_, fun h v hv => ?_⟩
  · exact ⟨_, settle_of_ok (opAccept_of_match h), rfl, State.setEnc_keeps ..⟩
  · exact ⟨_, settle_of_ok (opAccept_of_literal h hv), rfl, State.setEnc_keeps ..⟩

/-! ## E.DONE and FINAL -/

theorem opEDone_of_encodable (h : s.len < 2 ^ 32) : opEDone s = .ok s.completeEncode :=
  if_pos (State.inputEncodable_iff.2 h)

theorem State.completeEncode_outLen_toNat (h : s.enc.wp < 2 ^ 64) : s.completeEncode.outLen.toNat = s.enc.wp := by
  rw [State.completeEncode_outLen, BitVec.toNat_ofNat, Nat.mod_eq_of_lt h]

theorem State.completeEncode_dlenR_toNat (h : s.len < 2 ^ 32) : s.completeEncode.dlenR.toNat = s.len := by
  rw [State.completeEncode_dlenR, BitVec.toNat_ofNat, Nat.mod_eq_of_lt h]

theorem State.completeEncode_keeps (s : State) :
    KeepsInputs s s.completeEncode ∧ KeepsEncoder s s.completeEncode ∧ KeepsOutput s s.completeEncode := by
  simp [KeepsInputs, KeepsEncoder, KeepsOutput]

/-- Settles O31: neither length is cut by its register. -/
theorem encodeCompletes : Obligations.EncodeCompletes := by
  intro s hlen hwp
  exact ⟨_, settle_of_ok (opEDone_of_encodable hlen), State.completeEncode_outLen_toNat hwp,
    State.completeEncode_dlenR_toNat hlen, rfl, rfl, rfl, rfl, rfl, rfl, State.completeEncode_keeps s⟩

theorem opFinal_of_empty (hc : s.grp.cnt = 0) : opFinal s = opEDone s := if_pos hc

/-- R199: a pending group is flushed first. -/
theorem opFinal_of_pending (hc : s.grp.cnt ≠ 0) (hlen : s.grp.len ≤ 24)
    (hf : s.obufFits (s.enc.wp + 1 + s.grp.len) = true) : opFinal s = opEDone s.flushed := by
  rw [opFinal, if_neg hc, opFlush_flushed hlen hf, ok_bind]

/-- Settles O32: E.DONE alone, or FLUSH and then E.DONE. -/
theorem finalFlushesThenCompletes : Obligations.FinalFlushesThenCompletes := by
  intro s hlen hwp
  refine ⟨fun hc => ?_, fun hc hg hf => ?_⟩
  · exact ⟨_, settle_of_ok ((opFinal_of_empty hc).trans (opEDone_of_encodable hlen)),
      settle_of_ok (opEDone_of_encodable hlen), State.completeEncode_outLen_toNat (by omega), rfl,
      State.completeEncode_keeps s⟩
  · exact ⟨_, settle_of_ok ((opFinal_of_pending hc hg hf).trans (opEDone_of_encodable (s := s.flushed) hlen)),
      outputHas_of_writeList rfl, State.completeEncode_outLen_toNat (s := s.flushed) hwp,
      State.completeEncode_dlenR_toNat (s := s.flushed) hlen, rfl, rfl, rfl, rfl, rfl, rfl, rfl, rfl, rfl, rfl, rfl,
      by simp [KeepsInputs]⟩

/-! ## Ill-formed terms -/

/-- Settles O52: the three instructions with an operand range. -/
theorem illFormedTermsAreRefused : Obligations.IllFormedTermsAreRefused := by
  intro i s h
  cases i with
  | brefS n D =>
    have hn : n = 0#4 := not_not.1 (of_decide_eq_false h)
    exact settle_eq_refused.2 (if_pos hn)
  | emitBrefS D l => exact settle_eq_refused.2 (if_neg (of_decide_eq_false h))
  | emitBrefX D l => exact settle_eq_refused.2 (if_neg (of_decide_eq_false h))
  | _ => cases h

end Sys2Proof.Machine
end

section
/-! PROOF. Command starts and HOST's accesses (spec/10_state.md section 2; 44_commands.md section 1;
70_reset_and_hazards.md section 2). -/

namespace Sys2Proof.Machine

variable {s : State}

/-! ## Command starts -/

theorem opDecode_of_busy (h : s.status = .busy) : opDecode s = .ok s.cmdTaken := if_pos h

theorem opEncode_of_busy (h : s.status = .busy) : opEncode s = .ok s.cmdTaken := if_pos h

theorem opDecode_of_fits (h : s.status ≠ .busy) (hf : s.ibufFits s.len = true) :
    opDecode s = .ok (s.startCommand .dHdr) := by
  rw [opDecode, if_neg h, if_pos hf]

theorem opEncode_of_fits (h : s.status ≠ .busy) (hf : s.ibufFits s.len = true) (hl : s.len < 2 ^ 32) :
    opEncode s = .ok (s.startCommand .eHdr) := by
  rw [opEncode, if_neg h, if_pos hf, if_pos (State.inputEncodable_iff.2 hl)]

theorem opDecode_of_capacity (h : s.status ≠ .busy) (hf : s.ibufFits s.len = false) :
    opDecode s = .error (.refused .inputCapacity) := by
  rw [opDecode, if_neg h, if_neg (by rw [hf]; exact nofun)]

theorem opEncode_of_capacity (h : s.status ≠ .busy) (hf : s.ibufFits s.len = false) :
    opEncode s = .error (.refused .inputCapacity) := by
  rw [opEncode, if_neg h, if_neg (by rw [hf]; exact nofun)]

theorem opEncode_of_too_long (h : s.status ≠ .busy) (hf : s.ibufFits s.len = true) (hl : 2 ^ 32 ≤ s.len) :
    opEncode s = .error (.refused .inputTooLong) := by
  rw [opEncode, if_neg h, if_pos hf, if_neg (mt State.inputEncodable_iff.1 (Nat.not_lt.2 hl))]

/-- Settles O34: the state of `State.startCommand`, field by field. -/
theorem commandStartClearsTheResults : Obligations.CommandStartClearsTheResults := by
  intro s hbusy hfits
  refine ⟨⟨_, settle_of_ok (opDecode_of_fits hbusy hfits), ?_⟩, fun hl =>
    ⟨_, settle_of_ok (opEncode_of_fits hbusy hfits hl), ?_⟩⟩ <;> simp [KeepsOutput]

/-- Settles O36: a start that fits and can be stated is not refused. -/
theorem refusedCommandStarts : Obligations.RefusedCommandStarts := by
  intro s hbusy
  refine ⟨fun hf => ⟨?_, ?_⟩, fun hf hl => ?_, fun r hr => ?_, fun r hr => ?_⟩
  · exact settle_eq_refused.2 (opDecode_of_capacity hbusy hf)
  · exact settle_eq_refused.2 (opEncode_of_capacity hbusy hf)
  · exact settle_eq_refused.2 (opEncode_of_too_long hbusy hf hl)
  · by_contra hf
    have hstart := opDecode_of_fits hbusy (Bool.eq_true_of_not_eq_false hf)
    exact nomatch hstart.symm.trans (settle_eq_refused.1 hr)
  · by_contra hor
    obtain ⟨hf, hl⟩ := not_or.1 hor
    have hstart := opEncode_of_fits hbusy (Bool.eq_true_of_not_eq_false hf) (Nat.not_le.1 hl)
    exact nomatch hstart.symm.trans (settle_eq_refused.1 hr)

/-! ## The inputs of a step -/

theorem step_reset (h : s.rst = true) : step s = exec .reset s := by
  have hn : s.nextOp = .run .reset := if_pos h
  rw [step, hn]

theorem step_command {c : BitVec 2} {i : Instr} (hr : s.rst = false) (hc : s.cmd = some c) (hi : decodeCmd c = some i) :
    step s = exec i s := by
  have hn : s.nextOp = .run i := by
    rw [State.nextOp, hr, hc]
    simp [hi]
  rw [step, hn]

theorem step_dropCmd {c : BitVec 2} (hr : s.rst = false) (hc : s.cmd = some c) (hi : decodeCmd c = none) :
    step s = .next s.cmdTaken := by
  have hn : s.nextOp = .dropCmd := by
    rw [State.nextOp, hr, hc]
    simp [hi]
  rw [step, hn]

theorem decodeCmd_cases (c : BitVec 2) :
    decodeCmd c = some .decode ∨ decodeCmd c = some .encode ∨ decodeCmd c = none := by
  revert c
  decide

section
variable {t : State}

theorem cmd_none_of_opDecode (h : exec .decode s = .next t) : t.cmd = none := by
  by_cases hb : s.status = .busy
  · cases (settle_of_ok (opDecode_of_busy hb)).symm.trans h
    rfl
  · cases hf : s.ibufFits s.len with
    | true =>
      cases (settle_of_ok (opDecode_of_fits hb hf)).symm.trans h
      rfl
    | false => exact nomatch (settle_eq_refused.2 (opDecode_of_capacity hb hf)).symm.trans h

theorem cmd_none_of_opEncode (h : exec .encode s = .next t) : t.cmd = none := by
  by_cases hb : s.status = .busy
  · cases (settle_of_ok (opEncode_of_busy hb)).symm.trans h
    rfl
  · cases hf : s.ibufFits s.len with
    | true =>
      rcases Nat.lt_or_ge s.len (2 ^ 32) with hl | hl
      · cases (settle_of_ok (opEncode_of_fits hb hf hl)).symm.trans h
        rfl
      · exact nomatch (settle_eq_refused.2 (opEncode_of_too_long hb hf hl)).symm.trans h
    | false => exact nomatch (settle_eq_refused.2 (opEncode_of_capacity hb hf)).symm.trans h

/-- A step that takes a CMD write leaves CMD without a value (R22). -/
theorem cmd_none_of_step (hr : s.rst = false) (hc : s.cmd ≠ none) (h : step s = .next t) : t.cmd = none := by
  obtain ⟨c, hcmd⟩ := Option.ne_none_iff_exists'.1 hc
  rcases decodeCmd_cases c with hi | hi | hi
  · exact cmd_none_of_opDecode ((step_command hr hcmd hi).symm.trans h)
  · exact cmd_none_of_opEncode ((step_command hr hcmd hi).symm.trans h)
  · cases (step_dropCmd hr hcmd hi).symm.trans h
    rfl

end

/-- A start reads nothing of the request it takes. -/
theorem exec_start_of_request (h : s.status ≠ .busy) (c : Option (BitVec 2)) :
    exec .decode { s with cmd := c } = exec .decode s ∧ exec .encode { s with cmd := c } = exec .encode s := by
  cases hf : s.ibufFits s.len with
  | true =>
    refine ⟨(settle_of_ok (opDecode_of_fits h hf)).trans (settle_of_ok (opDecode_of_fits h hf)).symm, ?_⟩
    rcases Nat.lt_or_ge s.len (2 ^ 32) with hl | hl
    · exact (settle_of_ok (opEncode_of_fits h hf hl)).trans (settle_of_ok (opEncode_of_fits h hf hl)).symm
    · exact (settle_eq_refused.2 (opEncode_of_too_long h hf hl)).trans
        (settle_eq_refused.2 (opEncode_of_too_long h hf hl)).symm
  | false =>
    exact ⟨(settle_eq_refused.2 (opDecode_of_capacity h hf)).trans (settle_eq_refused.2 (opDecode_of_capacity h hf)).symm,
      (settle_eq_refused.2 (opEncode_of_capacity h hf)).trans (settle_eq_refused.2 (opEncode_of_capacity h hf)).symm⟩

/-! ## What HOST reads while a command is requested or runs -/

/-- CMD codes 1 and 2 name a command. -/
theorem decodeCmd_of_request {c : BitVec 2} (h : c = 1#2 ∨ c = 2#2) : ∃ i, decodeCmd c = some i := by
  rcases h with rfl | rfl
  · exact ⟨.decode, rfl⟩
  · exact ⟨.encode, rfl⟩

theorem State.hostStatus_of_busy (h : s.hostBusy = true) : s.hostReadReg .status = .ok 1 := by
  have hstatus : s.hostStatus = .busy := by
    unfold State.hostStatus
    split
    · rfl
    · rename_i hs
      simpa [State.hostBusy, hs] using h
  rw [State.hostReadReg, hstatus]
  rfl

theorem State.hostErr_of_none (h : s.err = .none ∨ s.starting = true) : s.hostReadReg .err = .ok 0 := by
  have herr : s.hostErr = .none := by
    unfold State.hostErr
    split
    · rfl
    · rename_i hs
      exact h.resolve_right hs
  rw [State.hostReadReg, herr]
  rfl

theorem State.not_starting_of_none (h : s.cmd = none) : s.starting = false := by
  rw [State.starting, h]

theorem State.hostStatus_of_none (h : s.cmd = none) : s.hostReadReg .status = .ok (s.status.code.setWidth 64) := by
  rw [State.hostReadReg, State.hostStatus, State.not_starting_of_none h]
  rfl

theorem State.hostErr_of_no_request (h : s.cmd = none) : s.hostReadReg .err = .ok (s.err.code.setWidth 64) := by
  rw [State.hostReadReg, State.hostErr, State.not_starting_of_none h]
  rfl

/-- Settles O35: the reset input, the four CMD codes outside BUSY, and during BUSY. -/
theorem hostInputsAreTaken : Obligations.HostInputsAreTaken := by
  intro s
  refine ⟨rfl, fun hr => ⟨step_reset hr, fun t ht => ?_⟩, fun hbusy hc => ⟨fun hr => ?_, fun c c' hreq => ?_⟩,
    fun hbusy c => State.hostWriteCmd_of_busy (State.hostBusy_iff.2 (.inl hbusy)) c, State.hostWriteCmd_of_none rfl,
    State.hostWriteCmd_of_none rfl, fun hr => ⟨fun _ hc => step_command hr hc rfl, fun _ hc => step_command hr hc rfl,
      fun hbusy hc => ?_, fun hc => ?_, fun t => cmd_none_of_step hr⟩⟩
  · cases (step_reset hr).symm.trans ht
    rfl
  · have hfree := State.hostBusy_of_free hbusy hc
    obtain ⟨hdecode, _⟩ := exec_start_of_request hbusy (some 1#2)
    obtain ⟨_, hencode⟩ := exec_start_of_request hbusy (some 2#2)
    rw [State.hostWriteCmd_of_some hfree rfl, State.hostWriteCmd_of_some hfree rfl]
    exact ⟨(step_command (s := { s with cmd := some 1#2 }) hr rfl rfl).trans hdecode,
      (step_command (s := { s with cmd := some 2#2 }) hr rfl rfl).trans hencode⟩
  · obtain ⟨i, hi⟩ := decodeCmd_of_request hreq
    have hwrite := State.hostWriteCmd_of_some (State.hostBusy_of_free hbusy hc) hi
    have hstart : (s.hostWriteCmd c).starting = true := by
      rw [hwrite]
      exact State.starting_iff.2 (by simpa using hreq)
    have hnow : (s.hostWriteCmd c).hostBusy = true := by simp [State.hostBusy, hstart]
    exact ⟨State.hostStatus_of_busy hnow, State.hostErr_of_none (.inr hstart), State.hostWriteCmd_of_busy hnow c', hwrite⟩
  · rcases hc with hc | hc
    · exact (step_command hr hc rfl).trans (settle_of_ok (opDecode_of_busy hbusy))
    · exact (step_command hr hc rfl).trans (settle_of_ok (opEncode_of_busy hbusy))
  · rcases hc with hc | hc <;> exact step_dropCmd hr hc rfl

/-! ## HOST's accesses -/

theorem State.hostReadObuf_of_done {a : Nat} {v : Byte} (hs : s.status = .done) (hc : s.cmd = none)
    (ha : a < s.outLen.toNat) (hv : Memory.read s.obuf a = some v) : s.hostReadObuf a = .ok v := by
  have hfree : s.hostBusy = false := State.hostBusy_of_free (by rw [hs]; exact nofun) hc
  rw [State.hostReadObuf, State.unlessBusy_of_free hfree, if_pos ⟨hs, ha⟩, hv]

theorem State.hostReadObuf_of_not_done (hs : s.status ≠ .done) (hbusy : s.status ≠ .busy) (hc : s.cmd = none) (a : Nat) :
    s.hostReadObuf a = .error .noResult := by
  rw [State.hostReadObuf, State.unlessBusy_of_free (State.hostBusy_of_free hbusy hc), if_neg (fun h => hs h.1)]

theorem State.hostReadIbuf_of_free (hbusy : s.status ≠ .busy) (hc : s.cmd = none) {a : Nat}
    (hf : s.ibufFits (a + 1) = true) :
    s.hostReadIbuf a = .ok (s.ibufByte a) := by
  rw [State.hostReadIbuf, State.unlessBusy_of_free (State.hostBusy_of_free hbusy hc), if_pos hf]

theorem State.hostWriteIbuf_of_free (hbusy : s.status ≠ .busy) (hc : s.cmd = none) {a : Nat} (v : Byte)
    (hf : s.ibufFits (a + 1) = true) : s.hostWriteIbuf a v = .ok { s with ibuf := Memory.write s.ibuf a v } := by
  rw [State.hostWriteIbuf, State.unlessBusy_of_free (State.hostBusy_of_free hbusy hc), if_pos hf]

/-- Settles O41: refused while BUSY for HOST, and the accesses of DONE, FAULT and of every state outside BUSY. -/
theorem hostAccessRules : Obligations.HostAccessRules := by
  intro s
  refine ⟨fun hbusy => ?_, fun hdone hc => ?_, fun hfault hc => ?_, fun hbusy hc a v n hf => ⟨?_, ?_⟩⟩
  · have hb : s.hostBusy = true := State.hostBusy_iff.2 hbusy
    exact ⟨State.unlessBusy_of_busy hb, State.unlessBusy_of_busy hb, State.unlessBusy_of_busy hb,
      State.unlessBusy_of_busy hb, State.unlessBusy_of_busy hb, rfl, fun _ => State.unlessBusy_of_busy hb,
      fun _ => State.unlessBusy_of_busy hb, fun _ _ => State.unlessBusy_of_busy hb, fun _ => State.unlessBusy_of_busy hb,
      State.hostStatus_of_busy hb, fun herr => State.hostErr_of_none (herr.imp_right State.starting_iff.2)⟩
  · have hb : s.hostBusy = false := State.hostBusy_of_free (by rw [hdone]; exact nofun) hc
    refine ⟨State.unlessBusy_of_free hb, ?_, State.unlessBusy_of_free hb, State.unlessBusy_of_free hb,
      State.unlessBusy_of_free hb, fun a v ha hv => State.hostReadObuf_of_done hdone hc ha hv⟩
    rw [State.hostStatus_of_none hc, hdone]
    rfl
  · refine ⟨?_, State.hostErr_of_no_request hc, State.hostReadObuf_of_not_done (by rw [hfault]; exact nofun)
      (by rw [hfault]; exact nofun) hc⟩
    rw [State.hostStatus_of_none hc, hfault]
    rfl
  · exact ⟨_, State.hostReadIbuf_of_free hbusy hc hf, fun w hw => State.ibufByte_of_read hw⟩
  · have hread : Memory.read (Memory.write s.ibuf a v) a = some v := Memory.read_write_same ..
    refine ⟨_, { s with ibuf := Memory.write s.ibuf a v, inLen := n }, State.hostWriteIbuf_of_free hbusy hc v hf,
      State.unlessBusy_of_free (State.hostBusy_of_free hbusy hc), rfl, rfl, fun ha => (State.inputAt_of_lt ha).trans hread,
      State.unlessBusy_of_free (State.hostBusy_of_free hbusy hc), ?_, fun x hx => Memory.read_write_ne _ v hx⟩
    exact (State.hostReadIbuf_of_free (s := { s with ibuf := Memory.write s.ibuf a v, inLen := n }) hbusy hc hf).trans
      (congrArg Except.ok (State.ibufByte_of_read hread))

/-- Settles O40: by evaluation of the fixed state. -/
theorem resetStateHasTheSpecifiedValues : Obligations.ResetStateHasTheSpecifiedValues :=
  ⟨rfl, rfl, rfl, rfl, rfl, rfl, rfl, rfl, rfl⟩

end Sys2Proof.Machine
end

section
/-! PROOF. The function decode of R151 over byte lists: which inputs it accepts, and what of them it does not read
(spec/30_encoding.md R103, R104, R106). -/

namespace Sys2Proof.Machine

/-! ## Frames -/

/-- A frame: the tag, the header's three words, and the bytes after them (R91). -/
def frameOf (m : Magic) (d r0 r1 : Word32) (rest : List Byte) : List Byte :=
  m.bytes ++ bytesBe32 d ++ bytesBe32 r0 ++ bytesBe32 r1 ++ rest

/-- R151 on a frame: the groups decode to the output, and the words are reported. -/
theorem decodeFn_frame (m : Magic) (d r0 r1 : Word32) (rest : List Byte) :
    decodeFn m (frameOf m d r0 r1 rest) =
      (decodeGroups d.toNat (rest.length + 1) rest []).map fun out => ⟨out, d, r0, r1⟩ := by
  simp only [frameOf, decodeFn, Magic.bytes, bytesBe32, List.cons_append, List.nil_append, List.length_cons,
    List.take_succ_cons, List.take_zero, List.drop_succ_cons, List.drop_zero, be32_bytes]
  rw [if_neg (by omega), if_neg (not_not.2 rfl)]
  cases decodeGroups d.toNat (rest.length + 1) rest [] <;> rfl

theorem decodeFn_of_short (m : Magic) {inp : List Byte} (h : inp.length < 4) : decodeFn m inp = .error .truncated :=
  if_pos h

theorem Magic.take_bytes (m : Magic) (rest : List Byte) : (m.bytes ++ rest).take 4 = m.bytes := rfl

theorem Magic.drop_bytes (m : Magic) (rest : List Byte) : (m.bytes ++ rest).drop 4 = rest := rfl

theorem decodeFn_of_tag_ne {m m' : Magic} (h : m' ≠ m) (rest : List Byte) :
    decodeFn m (m'.bytes ++ rest) = .error .badMagic := by
  rw [decodeFn, if_neg (by simp [Magic.bytes]), Magic.take_bytes, if_pos (mt Magic.bytes_inj.1 h)]

theorem decodeFn_of_short_header (m : Magic) {rest : List Byte} (h : rest.length < 12) :
    decodeFn m (m.bytes ++ rest) = .error .truncated := by
  rw [decodeFn, if_neg (by simp [Magic.bytes]), Magic.take_bytes, if_neg (not_not.2 rfl), Magic.drop_bytes]
  split
  · simp only [List.length_cons] at h
    omega
  · rfl

/-- The inputs by what R151 makes of them: shorter than a tag, another tag, shorter than a header, a frame. -/
theorem input_cases (m : Magic) (inp : List Byte) :
    inp.length < 4 ∨ (∃ m' rest, inp = m'.bytes ++ rest ∧ m' ≠ m) ∨
      (∃ rest, inp = m.bytes ++ rest ∧ rest.length < 12) ∨ ∃ d r0 r1 rest, inp = frameOf m d r0 r1 rest := by
  match inp with
  | [] | [_] | [_, _] | [_, _, _] => exact .inl (by simp)
  | b0 :: b1 :: b2 :: b3 :: inp =>
    by_cases hm : (⟨b0, b1, b2, b3⟩ : Magic) = m
    · subst hm
      rcases Nat.lt_or_ge inp.length 12 with hl | hl
      · exact .inr (.inr (.inl ⟨inp, rfl, hl⟩))
      · match inp, hl with
        | l0 :: l1 :: l2 :: l3 :: r0 :: r1 :: r2 :: r3 :: s0 :: s1 :: s2 :: s3 :: rest, _ =>
          exact .inr (.inr (.inr ⟨be32 l0 l1 l2 l3, be32 r0 r1 r2 r3, be32 s0 s1 s2 s3, rest,
            by simp [frameOf, Magic.bytes]⟩))
    · exact .inr (.inl ⟨_, inp, rfl, hm⟩)

/-- An accepted input is a frame whose groups decode to the output. -/
theorem decodeFn_ok {m : Magic} {inp : List Byte} {x : Decoded} (h : decodeFn m inp = .ok x) :
    ∃ rest, inp = frameOf m x.dlen x.rsv0 x.rsv1 rest ∧
      decodeGroups x.dlen.toNat (rest.length + 1) rest [] = .ok x.out := by
  rcases input_cases m inp with hs | ⟨m', rest, rfl, hm⟩ | ⟨rest, rfl, hs⟩ | ⟨d, r0, r1, rest, rfl⟩
  · rw [decodeFn_of_short m hs] at h
    cases h
  · rw [decodeFn_of_tag_ne hm] at h
    cases h
  · rw [decodeFn_of_short_header m hs] at h
    cases h
  · rw [decodeFn_frame] at h
    cases hg : decodeGroups d.toNat (rest.length + 1) rest [] with
    | error f => rw [hg] at h; cases h
    | ok out => rw [hg] at h; cases h; exact ⟨rest, rfl, hg⟩

/-- Settles O58: by `decodeFn_frame` the words of a frame are reported and enter nothing else. -/
theorem reservedWordsAreOpaque : Obligations.ReservedWordsAreOpaque := by
  intro m d r0 r1 rest
  have hframe := decodeFn_frame m d r0 r1 rest
  have hzero := decodeFn_frame m d 0 0 rest
  rw [frameOf] at hframe hzero
  rw [hframe, hzero]
  cases decodeGroups d.toNat (rest.length + 1) rest [] <;> rfl

/-! ## Trailing bytes -/

variable {dlen : Nat} {c : Byte}

theorem takeBackRef_append {rest rest' : List Byte} {p : Nat × Nat} (extra : List Byte)
    (h : takeBackRef rest = .ok (p, rest')) : takeBackRef (rest ++ extra) = .ok (p, rest' ++ extra) := by
  match rest with
  | [] | [_] => cases h
  | b0 :: b1 :: rest =>
    simp only [takeBackRef, List.cons_append] at h ⊢
    split at h
    · cases h
      rw [if_pos ‹_›]
    · rw [if_neg ‹_›]
      cases rest with
      | nil => cases h
      | cons e rest => cases h; rfl

/-- A group reads its own bytes only. -/
theorem decodeTokens_append (extra : List Byte) (t : Nat) : ∀ {rest out rest' out' : List Byte},
    decodeTokens dlen c t rest out = .ok (rest', out') →
    decodeTokens dlen c t (rest ++ extra) out = .ok (rest' ++ extra, out') := by
  induction t with
  | zero => intro rest out rest' out' h; cases h; rfl
  | succ t ih =>
    intro rest out rest' out' h
    unfold decodeTokens at h ⊢
    split at h
    · cases h
      rw [if_pos ‹_›]
    · rw [if_neg ‹_›]
      split at h
      · rw [if_pos ‹_›]
        cases rest with
        | nil => cases h
        | cons v rest => exact ih h
      · rw [if_neg ‹_›]
        cases hb : takeBackRef rest with
        | error f => rw [hb] at h; cases h
        | ok r =>
          obtain ⟨⟨distance, length⟩, rest1⟩ := r
          rw [hb] at h
          rw [takeBackRef_append extra hb]
          simp only at h ⊢
          cases ha : applyBackRef dlen distance length out with
          | error f => rw [ha] at h; cases h
          | ok out1 => rw [ha] at h; exact ih h

/-- More fuel and more input change no accepted decode. -/
theorem decodeGroups_append (extra : List Byte) (f : Nat) : ∀ {f' : Nat} {rest out res : List Byte}, f ≤ f' →
    decodeGroups dlen f rest out = .ok res → decodeGroups dlen f' (rest ++ extra) out = .ok res := by
  induction f with
  | zero => intro f' rest out res _ h; cases h
  | succ f ih =>
    intro f' rest out res hf h
    obtain ⟨k, rfl⟩ : ∃ k, f' = k + 1 := ⟨f' - 1, by omega⟩
    unfold decodeGroups at h ⊢
    split at h
    · cases h
      rw [if_pos ‹_›]
    · rw [if_neg ‹_›]
      cases rest with
      | nil => cases h
      | cons c rest =>
        simp only [List.cons_append] at h ⊢
        cases ht : decodeTokens dlen c 8 rest out with
        | error e => rw [ht] at h; cases h
        | ok r =>
          obtain ⟨rest1, out1⟩ := r
          rw [ht] at h
          rw [decodeTokens_append extra 8 ht]
          exact ih (by omega) h

/-- Settles O57: an accepted input is a frame, and its groups read none of the further bytes. -/
theorem trailingBytesAreIgnored : Obligations.TrailingBytesAreIgnored := by
  intro m inp extra x h
  obtain ⟨rest, rfl, hgroups⟩ := decodeFn_ok h
  have hmore := decodeGroups_append extra _ (f' := (rest ++ extra).length + 1) (by simp) hgroups
  rw [frameOf, List.append_assoc, ← frameOf, decodeFn_frame, hmore]
  rfl

/-! ## Unused control bits -/

/-- With nothing owed no bit is taken. -/
theorem decodeTokens_of_complete {out : List Byte} (h : dlen ≤ out.length) (c : Byte) (t : Nat) (rest : List Byte) :
    decodeTokens dlen c t rest out = .ok (rest, out) := by
  cases t with
  | zero => rfl
  | succ t => exact if_pos h

/-- Tokens that complete the output decode alike when `k` more bits follow theirs. -/
theorem decodeTokens_of_prefix {c' : Byte} (k t : Nat) : ∀ {rest out rest' out' : List Byte},
    (∀ b, b < t → c.getLsbD b = c'.getLsbD (b + k)) → decodeTokens dlen c t rest out = .ok (rest', out') →
    dlen ≤ out'.length → decodeTokens dlen c' (t + k) rest out = .ok (rest', out') := by
  induction t with
  | zero => intro rest out rest' out' _ h hdone; cases h; exact decodeTokens_of_complete hdone c' (0 + k) rest
  | succ t ih =>
    intro rest out rest' out' hbits h hdone
    rw [Nat.succ_add]
    have ih {rest out : List Byte} (h : decodeTokens dlen c t rest out = .ok (rest', out')) :=
      ih (fun b hb => hbits b (Nat.lt_succ_of_lt hb)) h hdone
    unfold decodeTokens at h ⊢
    rw [← hbits t (Nat.lt_succ_self t)]
    split at h
    · rw [if_pos ‹_›]
      exact h
    · rw [if_neg ‹_›]
      split at h
      · rw [if_pos ‹_›]
        cases rest with
        | nil => cases h
        | cons v rest => exact ih h
      · rw [if_neg ‹_›]
        cases hb : takeBackRef rest with
        | error f => rw [hb] at h; cases h
        | ok r =>
          obtain ⟨⟨distance, length⟩, rest1⟩ := r
          rw [hb] at h
          simp only at h ⊢
          cases ha : applyBackRef dlen distance length out with
          | error f => rw [ha] at h; cases h
          | ok out1 => rw [ha] at h; exact ih h

/-- Settles O59: both control bytes have the bits of the tokens that complete the output. -/
theorem unusedControlBitsAreIgnored : Obligations.UnusedControlBitsAreIgnored := by
  intro dlen c c' t rest out rest' out' ht h hdone hagree
  have hshift (b : Nat) : (c >>> (8 - t)).getLsbD b = c.getLsbD (b + (8 - t)) := by
    rw [BitVec.getLsbD_ushiftRight, Nat.add_comm]
  have hcount : t + (8 - t) = 8 := by omega
  refine ⟨?_, ?_⟩
  · rw [← hcount]
    exact decodeTokens_of_prefix (8 - t) t (fun b _ => hshift b) h hdone
  · rw [← hcount]
    exact decodeTokens_of_prefix (8 - t) t (fun b hb => (hshift b).trans (hagree _ (by omega) (by omega))) h hdone

end Sys2Proof.Machine
end

section
/-! PROOF. The function encode of R203 over byte lists: one token of its loop decodes back (R215), and the frame's length
(R202). -/

namespace Sys2Proof.Machine

variable {inp : List Byte} {i : Nat}

/-! ## R151's loop body, case by case -/

section
variable {dlen t : Nat} {c : Byte} {rest out : List Byte}

theorem decodeTokens_literal (h : ¬ dlen ≤ out.length) (hbit : c.getLsbD t = true) (v : Byte) :
    decodeTokens dlen c (t + 1) (v :: rest) out = decodeTokens dlen c t rest (out ++ [v]) := by
  rw [decodeTokens.eq_def]
  simp only
  rw [if_neg h, if_pos hbit]

theorem decodeTokens_literal_missing (h : ¬ dlen ≤ out.length) (hbit : c.getLsbD t = true) :
    decodeTokens dlen c (t + 1) [] out = .error .truncated := by
  unfold decodeTokens
  rw [if_neg h, if_pos hbit]

theorem decodeTokens_code_missing (h : ¬ dlen ≤ out.length) (hbit : c.getLsbD t = false) {f : FaultKind}
    (hb : takeBackRef rest = .error f) : decodeTokens dlen c (t + 1) rest out = .error f := by
  unfold decodeTokens
  rw [if_neg h, if_neg (by rw [hbit]; exact nofun), hb]

variable {distance length : Nat} {rest' : List Byte}

theorem decodeTokens_illegal (h : ¬ dlen ≤ out.length) (hbit : c.getLsbD t = false)
    (hb : takeBackRef rest = .ok ((distance, length), rest')) {f : FaultKind}
    (ha : applyBackRef dlen distance length out = .error f) : decodeTokens dlen c (t + 1) rest out = .error f := by
  unfold decodeTokens
  rw [if_neg h, if_neg (by rw [hbit]; exact nofun), hb]
  simp only [ha]

theorem decodeTokens_backRef (h : ¬ dlen ≤ out.length) (hbit : c.getLsbD t = false)
    (hb : takeBackRef rest = .ok ((distance, length), rest')) {out' : List Byte}
    (ha : applyBackRef dlen distance length out = .ok out') :
    decodeTokens dlen c (t + 1) rest out = decodeTokens dlen c t rest' out' := by
  rw [decodeTokens.eq_def]
  simp only
  rw [if_neg h, if_neg (by rw [hbit]; exact nofun), hb]
  simp only [ha]

end

/-! ## One back-reference -/

/-- R203's payload is the emitter's. -/
theorem backRefPayload_eq {d l : Nat} (h1 : 3 ≤ l) (h2 : d ≤ 4096) : backRefPayload d l = payloadOf d l := by
  rw [payloadOf_eq h1 h2, backRefPayload]

/-- R151's reading of R203's payload. -/
theorem takeBackRef_payload {d l : Nat} (hl1 : 3 ≤ l) (hl2 : l ≤ 273) (hd1 : 1 ≤ d) (hd2 : d ≤ 4096) (rest : List Byte) :
    takeBackRef (backRefPayload d l ++ rest) = .ok ((d, l), rest) := by
  unfold backRefPayload
  by_cases hs : l ≤ 17
  · have hb0 : (BitVec.ofNat 8 ((l - 2) * 16 + (d - 1) / 256)).toNat = (l - 2) * 16 + (d - 1) / 256 := by
      rw [BitVec.toNat_ofNat]
      omega
    have hb1 : (BitVec.ofNat 8 ((d - 1) % 256)).toNat = (d - 1) % 256 := by
      rw [BitVec.toNat_ofNat]
      omega
    simp only [if_pos hs, List.cons_append, List.nil_append, takeBackRef, hb0, hb1]
    rw [if_pos (by omega)]
    simp only [Except.ok.injEq, Prod.mk.injEq, and_true]
    omega
  · have hb0 : (BitVec.ofNat 8 ((d - 1) / 256)).toNat = (d - 1) / 256 := by
      rw [BitVec.toNat_ofNat]
      omega
    have hb1 : (BitVec.ofNat 8 ((d - 1) % 256)).toNat = (d - 1) % 256 := by
      rw [BitVec.toNat_ofNat]
      omega
    have hb2 : (BitVec.ofNat 8 (l - 18)).toNat = l - 18 := by
      rw [BitVec.toNat_ofNat]
      omega
    simp only [if_neg hs, List.cons_append, List.nil_append, takeBackRef, hb0, hb1, hb2]
    rw [if_neg (by omega)]
    simp only [Except.ok.injEq, Prod.mk.injEq, and_true]
    omega

theorem take_append_getD {n : Nat} (h : n < inp.length) (v : Byte) : inp.take n ++ [inp.getD n v] = inp.take (n + 1) := by
  rw [List.take_add_one, List.getD_eq_getElem?_getD, List.getElem?_eq_getElem h]
  rfl

/-- A copy from a matching source spells the input on. -/
theorem copyBack_take {d : Nat} (hd1 : 1 ≤ d) (l : Nat) : ∀ {i : Nat}, d ≤ i → i + l ≤ inp.length →
    (∀ x, x < l → inp[i - d + x]? = inp[i + x]?) → copyBack d l (inp.take i) = inp.take (i + l) := by
  induction l with
  | zero => intros; rfl
  | succ l ih =>
    intro i hdi hend hequal
    have hlen : (inp.take i).length = i := List.length_take_of_le (by omega)
    have hbyte : (inp.take i).getD (i - d) 0#8 = inp.getD i 0#8 := by
      have h0 := hequal 0 (by omega)
      rw [Nat.add_zero, Nat.add_zero] at h0
      rw [List.getD_eq_getElem?_getD, List.getD_eq_getElem?_getD, List.getElem?_take_of_lt (by omega), h0]
    rw [copyBack, hlen, hbyte, take_append_getD (by omega), ih (by omega) (by omega) fun x hx => ?_]
    · rw [Nat.add_assoc, Nat.add_comm 1 l]
    · have h1 := hequal (x + 1) (by omega)
      rwa [show i - d + (x + 1) = i + 1 - d + x by omega, show i + (x + 1) = i + 1 + x by omega] at h1

/-! ## One token -/

/-- A token with control bit `bit` and payload `bytes` that stands for the `a` input bytes from `i` on. -/
structure TokenAt (inp : List Byte) (i : Nat) (bit : Bool) (bytes : List Byte) (a : Nat) : Prop where
  nonempty : 1 ≤ bytes.length
  shorter  : bytes.length ≤ a
  inside   : i + a ≤ inp.length
  decodes  : ∀ (c : Byte) (t : Nat) (rest : List Byte), c.getLsbD t = bit →
    decodeTokens inp.length c (t + 1) (bytes ++ rest) (inp.take i) = decodeTokens inp.length c t rest (inp.take (i + a))

/-- While input is left the decoder owes a byte. -/
theorem not_complete_take (hi : i < inp.length) : ¬ inp.length ≤ (inp.take i).length := by
  rw [List.length_take_of_le hi.le]
  omega

theorem tokenAt_literal (hi : i < inp.length) : TokenAt inp i true [inp.getD i 0#8] 1 where
  nonempty := le_rfl
  shorter := le_rfl
  inside := hi
  decodes c t rest hbit := by
    rw [List.singleton_append, decodeTokens_literal (not_complete_take hi) hbit, take_append_getD hi]

theorem backRefPayload_length (d l : Nat) : (backRefPayload d l).length = if l ≤ 17 then 2 else 3 := by
  unfold backRefPayload
  split <;> simp [*]

theorem tokenAt_backRef (hi : i < inp.length) (hl : 3 ≤ (findIn inp i).len) :
    TokenAt inp i false (backRefPayload (findIn inp i).dist (findIn inp i).len) (findIn inp i).len := by
  obtain ⟨hmax, hd1, hd2, hdi, hend, hequal⟩ := findIn_bounds hi.le (by omega)
  have hlen := backRefPayload_length (findIn inp i).dist (findIn inp i).len
  have hout : (inp.take i).length = i := List.length_take_of_le hi.le
  refine ⟨by split at hlen <;> omega, by split at hlen <;> omega, hend, fun c t rest hbit => ?_⟩
  have hcopy : applyBackRef inp.length (findIn inp i).dist (findIn inp i).len (inp.take i) =
      .ok (inp.take (i + (findIn inp i).len)) := by
    rw [applyBackRef, hout, if_neg (by omega), if_neg (by omega), copyBack_take hd1 _ hdi hend hequal]
  exact decodeTokens_backRef (not_complete_take hi) hbit (takeBackRef_payload hl hmax hd1 hd2 rest) hcopy

/-! ## The pending group -/

/-- The pending group with one more token (R197). -/
def Pending.add (p : Pending) (bit : Bool) (bytes : List Byte) : Pending :=
  ⟨if bit then p.ctrl ||| (0x80#8 >>> p.cnt) else p.ctrl, p.cnt + 1, p.buf ++ bytes⟩

/-- One pass of R203's loop body adds one token. -/
theorem addToken_tokenAt (hi : i < inp.length) (p : Pending) :
    ∃ bit bytes a, addToken inp i p = (p.add bit bytes, a) ∧ TokenAt inp i bit bytes a := by
  unfold addToken
  split
  · exact ⟨false, _, _, rfl, tokenAt_backRef hi ‹_›⟩
  · exact ⟨true, _, _, rfl, tokenAt_literal hi⟩

section
variable {f : Nat} {p q : Pending} {a : Nat}

theorem encodeFrom_of_full (hi : i < inp.length) (ht : addToken inp i p = (q, a)) (hq : q.cnt = 8) :
    encodeFrom inp (f + 1) i p = q.bytes ++ encodeFrom inp f (i + a) ⟨0, 0, []⟩ := by
  rw [encodeFrom, if_pos hi, ht, if_pos hq]

theorem encodeFrom_of_open (hi : i < inp.length) (ht : addToken inp i p = (q, a)) (hq : q.cnt ≠ 8) :
    encodeFrom inp (f + 1) i p = encodeFrom inp f (i + a) q := by
  rw [encodeFrom, if_pos hi, ht, if_neg hq]

theorem encodeFrom_of_end (hi : inp.length ≤ i) :
    encodeFrom inp (f + 1) i p = if p.cnt = 0 then [] else p.bytes := by
  rw [encodeFrom, if_neg (Nat.not_lt.2 hi)]

end

/-! ## The length of a frame -/

/-- R202's upper bound with what is pending: a token is no longer than what it stands for, and eight of them share one
control byte. -/
theorem encodeFrom_length_le (f : Nat) : ∀ {i : Nat} {p : Pending}, i ≤ inp.length → p.cnt < 8 →
    8 * (encodeFrom inp f i p).length ≤ 8 * p.buf.length + p.cnt + 9 * (inp.length - i) + 7 := by
  induction f with
  | zero => intro i p _ _; simp [encodeFrom]
  | succ f ih =>
    intro i p hi hp
    rcases Nat.lt_or_ge i inp.length with hlt | hge
    · obtain ⟨bit, bytes, a, ht, hnonempty, hshorter, hinside, _⟩ := addToken_tokenAt hlt p
      have hbuf : (p.add bit bytes).buf.length = p.buf.length + bytes.length := List.length_append
      have hcnt : (p.add bit bytes).cnt = p.cnt + 1 := rfl
      by_cases hq : (p.add bit bytes).cnt = 8
      · have hrest := ih (p := ⟨0, 0, []⟩) hinside (by simp)
        rw [encodeFrom_of_full hlt ht hq, List.length_append, Pending.bytes, List.length_cons]
        simp only [List.length_nil] at hrest
        omega
      · have hrest := ih (p := p.add bit bytes) hinside (by omega)
        rw [encodeFrom_of_open hlt ht hq]
        omega
    · rw [encodeFrom_of_end hge]
      split
      · simp
      · rw [Pending.bytes, List.length_cons]
        omega

/-- A pending token or a byte of input left gives at least one byte. -/
theorem encodeFrom_length_pos (f : Nat) : ∀ {i : Nat} {p : Pending}, i ≤ inp.length → inp.length < i + f →
    (i < inp.length ∨ p.cnt ≠ 0) → 0 < (encodeFrom inp f i p).length := by
  induction f with
  | zero => intro i p hi hf _; omega
  | succ f ih =>
    intro i p hi hf hp
    rcases Nat.lt_or_ge i inp.length with hlt | hge
    · obtain ⟨bit, bytes, a, ht, hnonempty, hshorter, hinside, _⟩ := addToken_tokenAt hlt p
      by_cases hq : (p.add bit bytes).cnt = 8
      · rw [encodeFrom_of_full hlt ht hq, List.length_append, Pending.bytes, List.length_cons]
        omega
      · rw [encodeFrom_of_open hlt ht hq]
        exact ih hinside (by omega) (.inr (Nat.succ_ne_zero _))
    · rw [encodeFrom_of_end hge, if_neg (hp.resolve_left (Nat.not_lt.2 hge)), Pending.bytes, List.length_cons]
      omega

theorem encodeFn_length (m : Magic) (inp : List Byte) :
    (encodeFn m inp).length = 16 + (encodeFrom inp (inp.length + 1) 0 ⟨0, 0, []⟩).length := by
  rw [encodeFn, List.length_append, headerBytes_length]

/-- Settles O56: a header, and after it R202's bound on the token stream, which is empty for the empty input alone. -/
theorem frameLengthIsBounded : Obligations.FrameLengthIsBounded := by
  intro m inp
  have hbound := encodeFrom_length_le (inp := inp) (inp.length + 1) (p := ⟨0, 0, []⟩) (Nat.zero_le _) (by simp)
  simp only [List.length_nil] at hbound
  rw [encodeFn_length]
  refine ⟨by omega, ⟨fun h16 => ?_, ?_⟩, by omega⟩
  · by_contra hne
    have hpos := encodeFrom_length_pos (inp := inp) (inp.length + 1) (p := ⟨0, 0, []⟩) (Nat.zero_le _) (by omega)
      (.inl (List.length_pos_iff.2 hne))
    omega
  · rintro rfl
    rfl

/-! ## decode of encode -/

/-- What the decoder makes of a pending group that starts at output position `i0`: under every control byte that has its
bits, its payloads decode to the input up to `i`. -/
structure Pending.Spells (p : Pending) (inp : List Byte) (i0 i : Nat) : Prop where
  room    : p.cnt < 8
  padding : ∀ b, b < 8 → p.cnt ≤ b → p.ctrl.getLsbD (7 - b) = false
  decodes : ∀ (c : Byte) (rest : List Byte), (∀ b, b < p.cnt → c.getLsbD (7 - b) = p.ctrl.getLsbD (7 - b)) →
    decodeTokens inp.length c 8 (p.buf ++ rest) (inp.take i0) =
      decodeTokens inp.length c (8 - p.cnt) rest (inp.take i)
  started : p.cnt = 0 → i0 = i
  owed    : p.cnt ≠ 0 → i0 < inp.length

theorem Pending.spells_empty (inp : List Byte) (i : Nat) : Pending.Spells ⟨0, 0, []⟩ inp i i where
  room := by simp
  padding := by simp
  decodes _ _ _ := rfl
  started _ := rfl
  owed h := absurd rfl h

/-- The bits of the group with one more token: the token's own, and those before and after it as they were. -/
theorem Pending.add_ctrl_getLsbD {p : Pending} (bit : Bool) (bytes : List Byte) (hroom : p.cnt < 8) (b : Nat) :
    (p.add bit bytes).ctrl.getLsbD b = (p.ctrl.getLsbD b || (bit && decide (b = 7 - p.cnt))) := by
  cases bit with
  | false => simp [Pending.add]
  | true =>
    show (p.ctrl ||| (0x80#8 >>> p.cnt)).getLsbD b = _
    rw [BitVec.getLsbD_or, packMask_getLsbD hroom, Bool.true_and]

section
variable {p : Pending} {i0 : Nat} {bit : Bool} {bytes : List Byte} {a : Nat}

/-- One more token: its control bit is the highest one that was still unused. -/
theorem Pending.Spells.add_decodes (h : p.Spells inp i0 i) (ht : TokenAt inp i bit bytes a) (c : Byte) (rest : List Byte)
    (hc : ∀ b, b < p.cnt + 1 → c.getLsbD (7 - b) = (p.add bit bytes).ctrl.getLsbD (7 - b)) :
    decodeTokens inp.length c 8 ((p.add bit bytes).buf ++ rest) (inp.take i0) =
      decodeTokens inp.length c (7 - p.cnt) rest (inp.take (i + a)) := by
  have hroom := h.room
  have hown : c.getLsbD (7 - p.cnt) = bit := by
    rw [hc p.cnt (Nat.lt_succ_self _), Pending.add_ctrl_getLsbD bit bytes hroom, h.padding _ hroom le_rfl]
    simp
  have hbefore : ∀ b, b < p.cnt → c.getLsbD (7 - b) = p.ctrl.getLsbD (7 - b) := fun b hb => by
    rw [hc b (by omega), Pending.add_ctrl_getLsbD bit bytes hroom, decide_eq_false (by omega), Bool.and_false,
      Bool.or_false]
  show decodeTokens inp.length c 8 (p.buf ++ bytes ++ rest) (inp.take i0) = _
  rw [List.append_assoc, h.decodes c _ hbefore, show 8 - p.cnt = (7 - p.cnt) + 1 by omega, ht.decodes c _ rest hown]

theorem Pending.Spells.add (h : p.Spells inp i0 i) (hi : i < inp.length) (ht : TokenAt inp i bit bytes a)
    (hopen : p.cnt + 1 ≠ 8) : (p.add bit bytes).Spells inp i0 (i + a) where
  room := by
    have := h.room
    show p.cnt + 1 < 8
    omega
  padding b h8 hb := by
    have hb : p.cnt + 1 ≤ b := hb
    rw [Pending.add_ctrl_getLsbD bit bytes h.room, h.padding b h8 (by omega), decide_eq_false (by omega), Bool.and_false,
      Bool.or_false]
  decodes c rest hc := by
    have hleft : 8 - (p.add bit bytes).cnt = 7 - p.cnt := Nat.add_sub_add_right 7 1 p.cnt
    rw [h.add_decodes ht c rest hc, hleft]
  started h0 := absurd h0 (Nat.succ_ne_zero _)
  owed _ := by
    by_cases h0 : p.cnt = 0
    · rw [h.started h0]
      exact hi
    · exact h.owed h0

end

/-- R151's loop on one group whose tokens decode. -/
theorem decodeGroups_of_tokens {dlen g : Nat} {c : Byte} {rest out rest' out' : List Byte} (h : ¬ dlen ≤ out.length)
    (ht : decodeTokens dlen c 8 rest out = .ok (rest', out')) :
    decodeGroups dlen (g + 1) (c :: rest) out = decodeGroups dlen g rest' out' := by
  rw [decodeGroups.eq_def]
  simp only
  rw [if_neg h, ht]

/-- R151's loop ends once nothing is owed. -/
theorem decodeGroups_of_complete {dlen g : Nat} {rest out : List Byte} (h : dlen ≤ out.length) :
    decodeGroups dlen (g + 1) rest out = .ok out :=
  if_pos h

/-- R203's loop from a pending group on decodes to the input. -/
theorem decodeGroups_encodeFrom (f : Nat) : ∀ {i0 i : Nat} {p : Pending} {g : Nat}, i ≤ inp.length → inp.length < i + f →
    p.Spells inp i0 i → (encodeFrom inp f i p).length < g →
    decodeGroups inp.length g (encodeFrom inp f i p) (inp.take i0) = .ok inp := by
  induction f with
  | zero => intro i0 i p g hi hf; omega
  | succ f ih =>
    intro i0 i p g hi hf hp hg
    obtain ⟨g, rfl⟩ : ∃ k, g = k + 1 := ⟨g - 1, by omega⟩
    have hroom := hp.room
    rcases Nat.lt_or_ge i inp.length with hlt | hge
    · obtain ⟨bit, bytes, a, hadd, ht⟩ := addToken_tokenAt hlt p
      have hnonempty := ht.nonempty
      have hshorter := ht.shorter
      have hinside := ht.inside
      by_cases hfull : p.cnt + 1 = 8
      · rw [encodeFrom_of_full hlt hadd hfull] at hg ⊢
        have htokens := hp.add_decodes ht (p.add bit bytes).ctrl (encodeFrom inp f (i + a) ⟨0, 0, []⟩) fun _ _ => rfl
        rw [show 7 - p.cnt = 0 by omega] at htokens
        have howed : i0 < inp.length := hp.owed (by omega)
        rw [Pending.bytes, List.cons_append, decodeGroups_of_tokens (not_complete_take howed) htokens]
        rw [Pending.bytes, List.length_append, List.length_cons] at hg
        exact ih hinside (by omega) (Pending.spells_empty inp (i + a)) (by omega)
      · rw [encodeFrom_of_open hlt hadd hfull] at hg ⊢
        exact ih hinside (by omega) (hp.add hlt ht hfull) hg
    · have hall : inp.take i = inp := List.take_of_length_le hge
      rw [encodeFrom_of_end hge] at hg ⊢
      split
      · rename_i h0
        rw [hp.started h0, hall]
        exact decodeGroups_of_complete le_rfl
      · rename_i h0
        rw [if_neg h0, Pending.bytes, List.length_cons] at hg
        have htokens := hp.decodes p.ctrl [] fun _ _ => rfl
        rw [List.append_nil, hall, decodeTokens_of_complete le_rfl] at htokens
        obtain ⟨g, rfl⟩ : ∃ k, g = k + 1 := ⟨g - 1, by omega⟩
        rw [Pending.bytes, decodeGroups_of_tokens (not_complete_take (hp.owed h0)) htokens]
        exact decodeGroups_of_complete le_rfl

/-- Settles O55: the frame's header declares the input's length, and its groups decode to the input. -/
theorem decodeOfEncodeIsTheInput : Obligations.DecodeOfEncodeIsTheInput := by
  intro m inp hlen
  have hd : (BitVec.ofNat 32 inp.length).toNat = inp.length := by
    rw [BitVec.toNat_ofNat]
    omega
  have hgroups := decodeGroups_encodeFrom (inp := inp) (inp.length + 1) (Nat.zero_le _) (by omega)
    (Pending.spells_empty inp 0) (Nat.lt_succ_self _)
  rw [List.take_zero] at hgroups
  have hframe := decodeFn_frame m (BitVec.ofNat 32 inp.length) 0 0 (encodeFrom inp (inp.length + 1) 0 ⟨0, 0, []⟩)
  rw [hd, hgroups] at hframe
  exact hframe

end Sys2Proof.Machine
end

section
/-! PROOF. ENCODE computes the function encode of R203 (spec/43_emitter.md section 5): the machine's scan follows the
function's loop token by token. -/

namespace Sys2Proof.Machine

variable {s t : State} {inp out : List Byte} {i : Nat} {p : Pending}

/-! ## Runs that reach a state -/

/-- Some number of steps from `s` ends in a state with `P`. -/
def State.Reaches (s : State) (P : State → Prop) : Prop := ∃ n t, runSteps n s = .next t ∧ P t

theorem State.Reaches.here {P : State → Prop} (h : P s) : s.Reaches P := ⟨0, s, rfl, h⟩

theorem State.Reaches.step {P : State → Prop} (hs : Machine.step s = .next t) (h : t.Reaches P) : s.Reaches P := by
  obtain ⟨n, u, hrun, hu⟩ := h
  exact ⟨n + 1, u, (runSteps_succ hs n).trans hrun, hu⟩

theorem State.Reaches.trans {P Q : State → Prop} (h : s.Reaches Q) (hQ : ∀ t, Q t → t.Reaches P) : s.Reaches P := by
  obtain ⟨n, t, hrun, ht⟩ := h
  obtain ⟨k, u, hrun', hu⟩ := hQ t ht
  exact ⟨n + k, u, (runSteps_add hrun).trans hrun', hu⟩

/-! ## The input as a byte string -/

/-- CORE reads the input's bytes. -/
theorem State.HasInput.inputAt (h : s.HasInput inp) (a : Nat) : s.inputAt a = inp[a]? := by
  obtain ⟨hlen, hbytes⟩ := h
  rcases Nat.lt_or_ge a inp.length with ha | ha
  · rw [State.inputAt_of_lt (by omega), hbytes a ha]
  · rw [State.inputAt_of_ge (by omega), List.getElem?_eq_none ha]

theorem State.HasInput.inputLoaded (h : s.HasInput inp) : s.InputLoaded := by
  obtain ⟨hlen, hbytes⟩ := h
  intro a ha
  rw [hbytes a (by omega)]
  exact getElem?_isSome_of_lt (by omega)

/-- The bytes written so far and a run of bytes behind them. -/
theorem written_append {vs : List Byte} (h : ∀ a, a < out.length → Memory.read s.obuf a = out[a]?)
    (hout : OutputHas s t out.length vs) : ∀ a, a < (out ++ vs).length → Memory.read t.obuf a = (out ++ vs)[a]? := by
  obtain ⟨hinside, houtside⟩ := hout
  intro a ha
  rw [List.length_append] at ha
  rcases Nat.lt_or_ge a out.length with hlt | hge
  · rw [houtside a (.inl hlt), h a hlt, List.getElem?_append_left hlt]
  · have hread := hinside (a - out.length) (by omega)
    rwa [Nat.add_sub_cancel' hge, ← List.getElem?_append_right hge] at hread

/-! ## The scan -/

/-- What ENCODE keeps from its start to its end. -/
structure State.Encoding (s : State) (inp : List Byte) : Prop where
  undisturbed : s.Undisturbed
  unlimited   : s.cfg.obufCap = none
  input       : s.HasInput inp
  encodable   : s.len < 2 ^ 32
  results     : s.err = .none ∧ s.rsv0 = 0 ∧ s.rsv1 = 0

theorem State.Encoding.of_keeps (h : s.Encoding inp) (hi : KeepsInputs s t) (hr : KeepsResult s t) : t.Encoding inp := by
  obtain ⟨hcfg, hrst, hcmd, hinLen, hibuf, _⟩ := hi
  obtain ⟨_, herr, _, _, h0, h1⟩ := hr
  have hlen : t.len = s.len := congrArg BitVec.toNat hinLen
  exact {
    undisturbed := ⟨hrst.trans h.undisturbed.1, hcmd.trans h.undisturbed.2⟩
    unlimited := by rw [hcfg]; exact h.unlimited
    input := by rw [State.HasInput, hlen, hibuf]; exact h.input
    encodable := by rw [hlen]; exact h.encodable
    results := by rw [herr, h0, h1]; exact h.results }

/-- ENCODE in P_ESCAN, seen from R203's loop: the frame so far, the position and the pending group. -/
structure State.Scanning (s : State) (inp out : List Byte) (i : Nat) (p : Pending) : Prop extends s.Encoding inp where
  phase    : s.phase = .eScan
  position : s.enc.i = i
  inside   : i ≤ inp.length
  wp       : s.enc.wp = out.length
  written  : ∀ a, a < out.length → Memory.read s.obuf a = out[a]?
  ctrl     : s.grp.ctrl = p.ctrl
  cnt      : s.grp.cnt = p.cnt
  payload  : s.grp.payload = p.buf
  room     : s.grp.HasRoom

/-- The search of the machine is the search of R203. -/
theorem State.Scanning.findIn_eq (h : s.Scanning inp out i p) (hi : i < inp.length) {b : Best}
    (hfind : findBest s.inputAt (windowLo s.enc.i) (windowCap s.len s.enc.i) s.enc.i = some b) : findIn inp i = b := by
  have hreader : s.inputAt = fun a => inp[a]? := funext h.input.inputAt
  rw [hreader, h.position, h.input.1, findIn_find hi.le] at hfind
  exact Option.some.inj hfind

/-- R203's loop body on the answer `b` of the search. -/
theorem State.Scanning.addToken_eq (h : s.Scanning inp out i p) (hi : i < inp.length) {b : Best} {i' : Nat}
    {bytes : List Byte} (hb : findIn inp i = b)
    (hbackRef : 3 ≤ b.len → i' = s.enc.i + b.len ∧ bytes = payloadOf b.dist b.len)
    (hliteral : b.len < 3 → i' = s.enc.i + 1 ∧ ∃ v, s.inputAt s.enc.i = some v ∧ bytes = [v]) :
    ∃ a, i' = i + a ∧ addToken inp i p = (p.add (decide (b.len < 3)) bytes, a) := by
  rw [h.position] at hbackRef hliteral
  unfold addToken
  rw [hb]
  by_cases hl : 3 ≤ b.len
  · obtain ⟨hadvance, rfl⟩ := hbackRef hl
    obtain ⟨_, _, hd2, _⟩ := findIn_bounds hi.le (by rw [hb]; omega)
    rw [hb] at hd2
    refine ⟨b.len, hadvance, ?_⟩
    rw [if_pos hl, backRefPayload_eq hl hd2, decide_eq_false (Nat.not_lt.2 hl)]
    rfl
  · obtain ⟨hadvance, v, hv, rfl⟩ := hliteral (by omega)
    rw [h.input.inputAt] at hv
    refine ⟨1, hadvance, ?_⟩
    rw [if_neg hl, decide_eq_true (Nat.not_le.1 hl), List.getD_eq_getElem?_getD, hv]
    rfl

theorem Group.payload_of_empty {g : Group} (h : g.len = 0) : g.payload = [] := by
  rw [Group.payload, h, List.take_zero]

/-- The control byte that PACK leaves (R197), for the token that the search decides on. -/
theorem Pending.add_ctrl_eq {c : Byte} {l : Nat} (bytes : List Byte) (hn : p.cnt < 8) (hbackRef : 3 ≤ l → c = p.ctrl)
    (hliteral : l < 3 → c = p.ctrl ||| BitVec.ofNat 8 (2 ^ (7 - p.cnt))) : (p.add (decide (l < 3)) bytes).ctrl = c := by
  by_cases hl : 3 ≤ l
  · rw [decide_eq_false (Nat.not_lt.2 hl)]
    exact (hbackRef hl).symm
  · rw [decide_eq_true (Nat.not_le.1 hl), hliteral (Nat.not_le.1 hl), ← packMask_eq hn]
    rfl

theorem tokenAt_of_addToken {q : Pending} {a : Nat} (hi : i < inp.length) (h : addToken inp i p = (q, a)) :
    ∃ bit bytes, TokenAt inp i bit bytes a := by
  obtain ⟨bit, bytes, a', h', ht⟩ := addToken_tokenAt hi p
  have ha : a = a' := congrArg Prod.snd (h.symm.trans h')
  exact ⟨bit, bytes, ha ▸ ht⟩

/-- A payload has at most 3 bytes (R195, R196). -/
theorem token_length_le {b : Best} {bytes : List Byte} (hbackRef : 3 ≤ b.len → bytes = payloadOf b.dist b.len)
    (hliteral : b.len < 3 → ∃ v, bytes = [v]) : bytes.length ≤ 3 := by
  by_cases hl : 3 ≤ b.len
  · rw [hbackRef hl, payloadOf_length]
    split <;> omega
  · obtain ⟨v, rfl⟩ := hliteral (by omega)
    simp

/-- The step of P_ESCAN is E.STEP. -/
theorem State.Scanning.step_eq (h : s.Scanning inp out i p) : step s = exec .eStep s :=
  step_of_phaseOp h.undisturbed (by rw [State.phaseOp, h.phase])

/-- One E.STEP is one pass of R203's loop body, flush included. -/
theorem State.Scanning.token (h : s.Scanning inp out i p) (hi : i < inp.length) :
    ∃ q a t, addToken inp i p = (q, a) ∧ step s = .next t ∧
      (q.cnt ≠ 8 → t.Scanning inp out (i + a) q) ∧
      (q.cnt = 8 → t.Scanning inp (out ++ q.bytes) (i + a) ⟨0, 0, []⟩) := by
  have hlt : s.enc.i < s.len := by rw [h.position, h.input.1]; exact hi
  obtain ⟨t, b, bytes, hexec, hfind, _, _, _, _, hbackRef, hliteral, hopen, hfull, hphase, _, hin, hres⟩ :=
    (encodeStepEmitsOneToken s).2 hlt h.input.inputLoaded h.room fun _ => State.obufFits_unlimited h.unlimited _
  obtain ⟨a, hadvance, hadd⟩ := h.addToken_eq hi (h.findIn_eq hi hfind) hbackRef hliteral
  have hinside : i + a ≤ inp.length := by
    obtain ⟨_, _, ht⟩ := tokenAt_of_addToken hi hadd
    exact ht.inside
  have hbytes : bytes.length ≤ 3 := token_length_le (fun hl => (hbackRef hl).2) fun hl => by
    obtain ⟨_, v, _, hv⟩ := hliteral hl
    exact ⟨v, hv⟩
  obtain ⟨hroom, hstaged⟩ := h.room
  have hbase := h.toEncoding.of_keeps hin hres
  have hcount := h.cnt
  refine ⟨_, a, t, hadd, h.step_eq.trans hexec, fun hne => ?_, fun h8 => ?_⟩
  · have hne : p.cnt + 1 ≠ 8 := hne
    obtain ⟨hcnt, hlen, hpayload, hwp, hctrl1, hctrl2, hout⟩ := hopen (by omega)
    rw [h.ctrl] at hctrl1
    rw [h.ctrl, h.cnt] at hctrl2
    exact {
      toEncoding := hbase
      phase := hphase.trans h.phase
      position := hadvance
      inside := hinside
      wp := hwp.trans h.wp
      written := fun x hx => (hout x).trans (h.written x hx)
      ctrl := (Pending.add_ctrl_eq bytes (by omega) hctrl1 hctrl2).symm
      cnt := by rw [hcnt, h.cnt]; rfl
      payload := by rw [hpayload, h.payload]; rfl
      room := ⟨by omega, by omega⟩ }
  · have h8 : p.cnt + 1 = 8 := h8
    obtain ⟨hcnt, hlen, hctrl, hwp, hout⟩ := hfull (by omega)
    have hown : (p.add (decide (b.len < 3)) bytes).ctrl = if 3 ≤ b.len then s.grp.ctrl else s.grp.ctrl ||| 1#8 := by
      refine Pending.add_ctrl_eq bytes (by omega) (fun hl => ?_) fun hl => ?_
      · rw [if_pos hl, h.ctrl]
      · rw [if_neg (Nat.not_le.2 hl), h.ctrl, show p.cnt = 7 by omega]
        rfl
    have hgroup : (p.add (decide (b.len < 3)) bytes).bytes =
        (if 3 ≤ b.len then s.grp.ctrl else s.grp.ctrl ||| 1#8) :: (s.grp.payload ++ bytes) := by
      rw [Pending.bytes, hown, h.payload]
      rfl
    have hlength : s.grp.payload.length = s.grp.len := Group.payload_length (by omega)
    rw [← hgroup, h.wp] at hout
    exact {
      toEncoding := hbase
      phase := hphase.trans h.phase
      position := hadvance
      inside := hinside
      wp := by
        rw [hwp, h.wp, hgroup, List.length_append, List.length_cons, List.length_append, hlength]
        omega
      written := written_append h.written hout
      ctrl := hctrl
      cnt := hcnt
      payload := Group.payload_of_empty hlen
      room := ⟨by omega, by omega⟩ }

/-! ## The end of the scan -/

/-- ENCODE in P_EFINAL: the frame so far and the pending group (R199). -/
structure State.Finishing (s : State) (inp out : List Byte) (p : Pending) : Prop extends s.Encoding inp where
  phase   : s.phase = .eFinal
  wp      : s.enc.wp = out.length
  written : ∀ a, a < out.length → Memory.read s.obuf a = out[a]?
  ctrl    : s.grp.ctrl = p.ctrl
  cnt     : s.grp.cnt = p.cnt
  payload : s.grp.payload = p.buf
  len     : s.grp.len ≤ 24

/-- R192's last step. -/
theorem State.Scanning.scanned (h : s.Scanning inp out i p) (hend : inp.length ≤ i) :
    ∃ t, step s = .next t ∧ t.Finishing inp out p := by
  have hexec := (encodeStepEmitsOneToken s).1 (by rw [h.input.1, h.position]; exact hend)
  obtain ⟨hroom, hstaged⟩ := h.room
  refine ⟨_, h.step_eq.trans hexec, ?_⟩
  exact {
    toEncoding := h.toEncoding.of_keeps (by simp [KeepsInputs]) (by simp [KeepsResult])
    phase := rfl
    wp := h.wp
    written := h.written
    ctrl := h.ctrl
    cnt := h.cnt
    payload := h.payload
    len := by simp; omega }

/-- R199, R201: a pending group ends the frame, and E.DONE reports it. -/
theorem State.Finishing.final (h : s.Finishing inp out p)
    (hlen : (out ++ if p.cnt = 0 then [] else p.bytes).length < 2 ^ 64) :
    ∃ t, step s = .next t ∧ t.ShowsEncode inp.length (out ++ if p.cnt = 0 then [] else p.bytes) := by
  have hstep : step s = exec .final s := step_of_phaseOp h.undisturbed (by rw [State.phaseOp, h.phase])
  obtain ⟨herr, h0, h1⟩ := h.results
  by_cases hc : p.cnt = 0
  · rw [if_pos hc, List.append_nil] at hlen ⊢
    have hop := (opFinal_of_empty (h.cnt.trans hc)).trans (opEDone_of_encodable h.encodable)
    refine ⟨_, hstep.trans (settle_of_ok hop), rfl, herr, ?_, ?_, h0, h1, h.written⟩
    · rw [State.completeEncode_outLen_toNat (by rw [h.wp]; exact hlen), h.wp]
    · rw [State.completeEncode_dlenR_toNat h.encodable, h.input.1]
  · rw [if_neg hc] at hlen ⊢
    have hbytes : p.bytes = s.grp.ctrl :: s.grp.payload := by rw [Pending.bytes, h.ctrl, h.payload]
    have hsize : s.enc.wp + 1 + s.grp.len = (out ++ p.bytes).length := by
      rw [hbytes, List.length_append, List.length_cons, Group.payload_length h.len, h.wp]
      omega
    obtain ⟨t, hexec, hout, houtLen, hdlen, hstatus, _, _, _, _, _, herr', h0', h1', _⟩ :=
      (finalFlushesThenCompletes s h.encodable (by omega)).2 (by rw [h.cnt]; exact hc) h.len
        (State.obufFits_unlimited h.unlimited _)
    rw [← hbytes, h.wp] at hout
    exact ⟨t, hstep.trans hexec, hstatus, herr'.trans herr, houtLen.trans hsize, hdlen.trans h.input.1, h0'.trans h0,
      h1'.trans h1, written_append h.written hout⟩

/-- From every state of the scan the machine ends with the frame that R203's loop gives from there. -/
theorem State.Scanning.reaches (f : Nat) : ∀ {s : State} {out : List Byte} {i : Nat} {p : Pending},
    s.Scanning inp out i p → inp.length < i + f → (out ++ encodeFrom inp f i p).length < 2 ^ 64 →
    s.Reaches (·.ShowsEncode inp.length (out ++ encodeFrom inp f i p)) := by
  induction f with
  | zero =>
    intro s out i p h hf
    have := h.inside
    omega
  | succ f ih =>
    intro s out i p h hf hlen
    rcases Nat.lt_or_ge i inp.length with hlt | hge
    · obtain ⟨q, a, t, hadd, hstep, hopen, hfull⟩ := h.token hlt
      have hfuel : inp.length < i + a + f := by
        obtain ⟨_, _, ht⟩ := tokenAt_of_addToken hlt hadd
        have := ht.nonempty
        have := ht.shorter
        omega
      refine .step hstep ?_
      by_cases hq : q.cnt = 8
      · rw [encodeFrom_of_full hlt hadd hq, ← List.append_assoc] at hlen ⊢
        exact ih (hfull hq) hfuel hlen
      · rw [encodeFrom_of_open hlt hadd hq] at hlen ⊢
        exact ih (hopen hq) hfuel hlen
    · rw [encodeFrom_of_end hge] at hlen ⊢
      obtain ⟨u, hscanned, hfinishing⟩ := h.scanned hge
      obtain ⟨t, hfinal, hshows⟩ := hfinishing.final hlen
      exact .step hscanned (.step hfinal (.here hshows))

/-! ## The command -/

/-- An ENCODE that starts leaves P_EHDR, on an input that a header can state. -/
theorem encode_start (hbusy : s.status ≠ .busy) (h : exec .encode s = .next t) :
    t = s.startCommand .eHdr ∧ s.len < 2 ^ 32 := by
  cases hf : s.ibufFits s.len with
  | true =>
    rcases Nat.lt_or_ge s.len (2 ^ 32) with hl | hl
    · cases (settle_of_ok (opEncode_of_fits hbusy hf hl)).symm.trans h
      exact ⟨rfl, hl⟩
    · exact nomatch (settle_eq_refused.2 (opEncode_of_too_long hbusy hf hl)).symm.trans h
  | false => exact nomatch (settle_eq_refused.2 (opEncode_of_capacity hbusy hf)).symm.trans h

/-- HDR.EMIT begins the scan with the header written and nothing pending. -/
theorem State.Encoding.emitHeader (h : s.Encoding inp) (hp : s.phase = .eHdr) :
    ∃ t, step s = .next t ∧ t.Scanning inp (headerBytes s.cfg.magic inp.length) 0 ⟨0, 0, []⟩ := by
  have hstep : step s = exec .hdrEmit s := step_of_phaseOp h.undisturbed (by rw [State.phaseOp, hp])
  obtain ⟨t, hexec, hout, henc, hctrl, hcnt, hlen, hphase, _, _, hin, hres⟩ :=
    hdrEmitWritesTheHeader s h.encodable (State.obufFits_unlimited h.unlimited 16)
  rw [h.input.1, ← headerBytes_eq] at hout
  refine ⟨t, hstep.trans hexec, ?_⟩
  exact {
    toEncoding := h.of_keeps hin hres
    phase := hphase
    position := by rw [henc]
    inside := Nat.zero_le _
    wp := by rw [henc, headerBytes_length]
    written := written_append (out := []) (fun x hx => absurd hx (Nat.not_lt_zero x)) hout
    ctrl := hctrl
    cnt := hcnt
    payload := Group.payload_of_empty hlen
    room := ⟨by omega, by omega⟩ }

/-- Settles O54: the header by HDR.EMIT, and from there the scan. -/
theorem encodeCommandComputesEncode : Obligations.EncodeCommandComputesEncode := by
  intro s s0 inp hu hbusy hinput hunlimited hstart
  obtain ⟨rfl, hlen⟩ := encode_start hbusy hstart
  have hencoding : (s.startCommand .eHdr).Encoding inp := ⟨⟨hu.1, rfl⟩, hunlimited, hinput, hlen, rfl, rfl, rfl⟩
  obtain ⟨t, hstep, hscan⟩ := hencoding.emitHeader rfl
  obtain ⟨_, _, hbound⟩ := frameLengthIsBounded s.cfg.magic inp
  have hshort : (encodeFn s.cfg.magic inp).length < 2 ^ 64 := by
    rw [hinput.1] at hlen
    omega
  exact State.Reaches.step hstep (hscan.reaches (inp.length + 1) (by omega) hshort)

end Sys2Proof.Machine
end

section
/-! PROOF. DECODE computes the function decode of R151 (spec/41_decoder.md section 6): the machine's decode path follows
the function's loops token by token. -/

namespace Sys2Proof.Machine

variable {s t : State} {inp rest out : List Byte} {d r0 r1 : Word32}

/-! ## The decode path, seen from R151's loops -/

/-- DECODE after its header: what is left of the input, the output so far, and the header's words in their registers. -/
structure State.Decoding (s : State) (inp : List Byte) (d r0 r1 : Word32) (rest out : List Byte) : Prop where
  undisturbed : s.Undisturbed
  unlimited   : s.cfg.obufCap = none
  input       : s.HasInput inp
  err         : s.err = .none
  words       : s.dlenR = d ∧ s.rsv0 = r0 ∧ s.rsv1 = r1
  dlen        : s.dec.dlen = d.toNat
  rest        : rest = inp.drop s.dec.src
  pos         : s.dec.pos = out.length
  within      : out.length ≤ d.toNat
  written     : ∀ a, a < out.length → Memory.read s.obuf a = out[a]?

/-- Some steps from `s` end in what R151 reports for the groups' result `r`. -/
abbrev State.Yields (s : State) (d r0 r1 : Word32) (r : Except FaultKind (List Byte)) : Prop :=
  s.Reaches (·.ShowsDecode (r.map fun out => ⟨out, d, r0, r1⟩))

/-- A step of the path that keeps HOST's inputs and the results. -/
theorem State.Decoding.of_keeps {rest' out' : List Byte} (h : s.Decoding inp d r0 r1 rest out) (hi : KeepsInputs s t)
    (hr : KeepsResult s t) (hdlen : t.dec.dlen = s.dec.dlen) (hrest : rest' = inp.drop t.dec.src)
    (hpos : t.dec.pos = out'.length) (hwithin : out'.length ≤ d.toNat)
    (hwritten : ∀ a, a < out'.length → Memory.read t.obuf a = out'[a]?) : t.Decoding inp d r0 r1 rest' out' := by
  obtain ⟨hcfg, hrst, hcmd, hinLen, hibuf, _⟩ := hi
  obtain ⟨_, herr, _, hd, h0, h1⟩ := hr
  have hlen : t.len = s.len := congrArg BitVec.toNat hinLen
  exact {
    undisturbed := ⟨hrst.trans h.undisturbed.1, hcmd.trans h.undisturbed.2⟩
    unlimited := by rw [hcfg]; exact h.unlimited
    input := by rw [State.HasInput, hlen, hibuf]; exact h.input
    err := herr.trans h.err
    words := by rw [hd, h0, h1]; exact h.words
    dlen := hdlen.trans h.dlen
    rest := hrest
    pos := hpos
    within := hwithin
    written := hwritten }

/-- A step that only reads on. -/
theorem State.Decoding.of_read (h : s.Decoding inp d r0 r1 rest out) (k : Nat) (hi : KeepsInputs s t)
    (hr : KeepsResult s t) (ho : KeepsOutput s t) (hdlen : t.dec.dlen = s.dec.dlen) (hsrc : t.dec.src = s.dec.src + k)
    (hpos : t.dec.pos = s.dec.pos) : t.Decoding inp d r0 r1 (rest.drop k) out :=
  h.of_keeps hi hr hdlen (by rw [h.rest, List.drop_drop, hsrc]) (hpos.trans h.pos) h.within
    fun a ha => (ho a).trans (h.written a ha)

/-- A step that reads on and stores one byte of output. -/
theorem State.Decoding.of_store (h : s.Decoding inp d r0 r1 rest out) (k : Nat) {v : Byte} (howed : out.length < d.toNat)
    (hi : KeepsInputs s t) (hr : KeepsResult s t) (ho : OutputHas s t s.dec.pos [v]) (hdlen : t.dec.dlen = s.dec.dlen)
    (hsrc : t.dec.src = s.dec.src + k) (hpos : t.dec.pos = s.dec.pos + 1) :
    t.Decoding inp d r0 r1 (rest.drop k) (out ++ [v]) := by
  rw [h.pos] at ho
  exact h.of_keeps hi hr hdlen (by rw [h.rest, List.drop_drop, hsrc]) (by rw [hpos, h.pos, List.length_append]; rfl)
    (by rw [List.length_append]; exact howed) (written_append h.written ho)

theorem State.Decoding.inputAt (h : s.Decoding inp d r0 r1 rest out) (x : Nat) :
    s.inputAt (s.dec.src + x) = rest[x]? := by
  rw [h.input.inputAt, h.rest, List.getElem?_drop]

theorem State.Decoding.rest_length (h : s.Decoding inp d r0 r1 rest out) : rest.length = s.len - s.dec.src := by
  rw [h.rest, List.length_drop, h.input.1]

/-! ## Ends -/

/-- A fault shows the code that R151 gives. -/
theorem State.yields_of_takesFault {f : FaultKind} (h : TakesFault s f (step s)) : s.Yields d r0 r1 (.error f) := by
  obtain ⟨t, hstep, herr, hstatus, _, hout, hd, h0, h1, _⟩ := h
  exact .step hstep (.here ⟨hstatus, herr, hout, hd, h0, h1⟩)

/-- With nothing owed the command completes and shows the output. -/
theorem State.Decoding.yields_complete (h : s.Decoding inp d r0 r1 rest out) (hdone : d.toNat ≤ out.length)
    (hstep : step s = exec .dDone s) : s.Yields d r0 r1 (.ok out) := by
  have hlen : d.toNat = out.length := le_antisymm hdone h.within
  obtain ⟨t, hexec, houtLen, hstatus, _, herr, hd, h0, h1, _, _, _, hout⟩ :=
    decodeCompletes s (by rw [h.dlen]; exact d.isLt)
  obtain ⟨hd', h0', h1'⟩ := h.words
  exact .step (hstep.trans hexec) (.here ⟨hstatus, herr.trans h.err, houtLen.trans (h.dlen.trans hlen), hlen,
    hd.trans hd', h0.trans h0', h1.trans h1', fun a ha => (hout a).trans (h.written a ha)⟩)

/-! ## One back-reference -/

/-- The step that fetches a back-reference of `k` bytes: R146's two faults, or the start of the copy. -/
structure State.BackRefStep (s : State) (k distance length : Nat) : Prop where
  before : s.dec.pos < distance → TakesFault s .invalidDistance (step s)
  beyond : distance ≤ s.dec.pos → s.dec.dlen < s.dec.pos + length → TakesFault s .lengthOverrun (step s)
  legal  : distance ≤ s.dec.pos → s.dec.pos + length ≤ s.dec.dlen →
    ∃ t, step s = .next t ∧ t.phase = .dCopy ∧
      t.dec = { s.dec with
        b0 := t.dec.b0, b1 := t.dec.b1, n := t.dec.n, extra := t.dec.extra, src := s.dec.src + k
        distance := distance, length := length, cnt := length } ∧
      KeepsInputs s t ∧ KeepsResult s t ∧ KeepsEncoder s t ∧ KeepsOutput s t

theorem State.backRefStep_short {b0 b1 : Byte} (hu : s.Undisturbed) (hp : s.phase = .dBref)
    (h0 : s.inputAt s.dec.src = some b0) (h1 : s.inputAt (s.dec.src + 1) = some b1) (hb : b0.toNat / 16 ≠ 0) :
    s.BackRefStep 2 (b0.toNat % 16 * 256 + b1.toNat + 1) (b0.toNat / 16 + 2) := by
  have hn : highNibble b0 ≠ 0#4 := mt (highNibble_eq_zero_iff b0).1 hb
  have hl := State.inputAt_lt h1
  obtain ⟨_, hbefore, hbeyond, hlegal⟩ := shortBackReferenceStartsTheCopy s (highNibble b0) (distField b0 b1) hn
  rw [distField_toNat, ← step_brefS hu hp h0 h1 hn] at hbefore hbeyond hlegal
  rw [highNibble_toNat] at hbeyond hlegal
  refine ⟨fun hd => hbefore hl hd, fun hd ho => hbeyond hl hd ho, fun hd ho => ?_⟩
  obtain ⟨t, hstep, hphase, hdec, _, _, hkeep⟩ := hlegal hl hd ho
  refine ⟨t, hstep, hphase, ?_, hkeep⟩
  rw [hdec]

theorem State.backRefStep_extended {b0 b1 e : Byte} (hu : s.Undisturbed) (hp : s.phase = .dBref)
    (h0 : s.inputAt s.dec.src = some b0) (h1 : s.inputAt (s.dec.src + 1) = some b1)
    (h2 : s.inputAt (s.dec.src + 2) = some e) (hb : b0.toNat / 16 = 0) :
    s.BackRefStep 3 (b0.toNat % 16 * 256 + b1.toNat + 1) (e.toNat + 18) := by
  have hn : highNibble b0 = 0#4 := (highNibble_eq_zero_iff b0).2 hb
  have hl := State.inputAt_lt h2
  obtain ⟨_, hbefore, hbeyond, hlegal⟩ := extendedBackReferenceStartsTheCopy s (distField b0 b1) e
  rw [distField_toNat, ← step_brefX hu hp h0 h1 h2 hn] at hbefore hbeyond hlegal
  refine ⟨fun hd => hbefore hl hd, fun hd ho => hbeyond hl hd ho, fun hd ho => ?_⟩
  obtain ⟨t, hstep, hphase, hdec, _, _, hkeep⟩ := hlegal hl hd ho
  refine ⟨t, hstep, hphase, ?_, hkeep⟩
  rw [hdec]

/-- The fetch of a back-reference and R151's reading of it agree: both find a byte missing, or both find the same pair in
the same number of bytes. -/
theorem State.Decoding.backRef (h : s.Decoding inp d r0 r1 rest out) (hp : s.phase = .dBref) :
    (takeBackRef rest = .error .truncated ∧ TakesFault s .truncated (step s)) ∨
      ∃ k distance length, takeBackRef rest = .ok ((distance, length), rest.drop k) ∧ 1 ≤ distance ∧
        s.BackRefStep k distance length := by
  obtain ⟨_, _, hcode, hextra⟩ := missingBytesRaiseTruncated s h.undisturbed
  have hlen := h.rest_length
  have hin := h.inputAt
  match rest with
  | [] | [_] =>
    refine .inl ⟨rfl, hcode hp ?_⟩
    simp only [List.length_nil, List.length_cons] at hlen
    omega
  | b0 :: b1 :: rest =>
    have h0 : s.inputAt s.dec.src = some b0 := hin 0
    have h1 : s.inputAt (s.dec.src + 1) = some b1 := hin 1
    by_cases hb : b0.toNat / 16 = 0
    · match rest with
      | [] =>
        simp only [List.length_nil, List.length_cons] at hlen
        refine .inl ⟨if_neg (not_not.2 hb), hextra hp (by omega) b0 b1 h0 h1 (by omega)⟩
      | e :: rest =>
        exact .inr ⟨3, _, _, if_neg (not_not.2 hb), Nat.succ_pos _,
          State.backRefStep_extended h.undisturbed hp h0 h1 (hin 2) hb⟩
    · exact .inr ⟨2, _, _, if_pos hb, Nat.succ_pos _, State.backRefStep_short h.undisturbed hp h0 h1 hb⟩

/-! ## The copy -/

/-- What a token leaves of the group's control bits. -/
abbrev KeepsBits (s t : State) : Prop := t.dec.bitsLeft = s.dec.bitsLeft ∧ t.dec.ctrl = s.dec.ctrl

/-- One byte of the copy: R147's read is R151's `out[len(out) - distance]`. -/
theorem State.Decoding.copyByte (h : s.Decoding inp d r0 r1 rest out) (hp : s.phase = .dCopy) (hc : s.dec.cnt ≠ 0)
    (h1 : 1 ≤ s.dec.distance) (hle : s.dec.distance ≤ s.dec.pos) (howed : s.dec.pos < d.toNat) :
    ∃ t, step s = .next t ∧
      t.Decoding inp d r0 r1 rest (out ++ [out.getD (out.length - s.dec.distance) 0#8]) ∧ t.phase = .dCopy ∧
      t.dec = { s.dec with pos := s.dec.pos + 1, cnt := s.dec.cnt - 1 } := by
  have hpos := h.pos
  have hread : Memory.read s.obuf (s.dec.pos - s.dec.distance) = some (out.getD (out.length - s.dec.distance) 0#8) := by
    rw [hpos, h.written _ (by omega), List.getD_eq_getElem?_getD, List.getElem?_eq_getElem (by omega)]
    rfl
  obtain ⟨t, hexec, hout, hdec, hphase, hin, hres, _⟩ :=
    (replayCopiesOneByte s).2 _ hc hle (State.obufFits_unlimited h.unlimited _) hread
  have hstep : step s = exec .replay s := step_of_phaseOp h.undisturbed (by rw [State.phaseOp, hp])
  exact ⟨t, hstep.trans hexec, h.of_store 0 (by omega) hin hres hout (by rw [hdec]) (by rw [hdec]; rfl) (by rw [hdec]),
    hphase.trans hp, hdec⟩

/-- The copy of R147 is R151's `copyBack`. -/
theorem State.Decoding.copy (l : Nat) : ∀ {s : State} {out : List Byte}, s.Decoding inp d r0 r1 rest out →
    s.phase = .dCopy → s.dec.cnt = l → 1 ≤ s.dec.distance → s.dec.distance ≤ s.dec.pos → s.dec.pos + l ≤ d.toNat →
    s.Reaches fun t =>
      t.Decoding inp d r0 r1 rest (copyBack s.dec.distance l out) ∧ t.phase = .dToken ∧ KeepsBits s t := by
  induction l with
  | zero =>
    intro s out h hp hc _ _ _
    have hstep : step s = exec .replay s := step_of_phaseOp h.undisturbed (by rw [State.phaseOp, hp])
    refine .step (hstep.trans ((replayCopiesOneByte s).1 hc)) (.here ⟨?_, rfl, rfl, rfl⟩)
    exact h.of_read 0 (by simp [KeepsInputs]) (by simp [KeepsResult]) (fun _ => rfl) rfl rfl rfl
  | succ l ih =>
    intro s out h hp hc h1 hle hend
    obtain ⟨t, hstep, ht, hphase, hdec⟩ := h.copyByte hp (by omega) h1 hle (by omega)
    have hcnt : t.dec.cnt = l := by rw [hdec]; simp; omega
    have hdist : t.dec.distance = s.dec.distance := by rw [hdec]
    have hpos : t.dec.pos = s.dec.pos + 1 := by rw [hdec]
    have hrest := ih ht hphase hcnt (by omega) (by omega) (by omega)
    rw [hdist] at hrest
    refine .step hstep (hrest.trans fun u hu => .here ?_)
    obtain ⟨hu, hphase', hbits, hctrl⟩ := hu
    exact ⟨hu, hphase', hbits.trans (by rw [hdec]), hctrl.trans (by rw [hdec])⟩

/-! ## One token -/

/-- What R151 goes on with after a group's tokens. -/
def groupsAfter (dlen f : Nat) : Except FaultKind (List Byte × List Byte) → Except FaultKind (List Byte)
  | .error e => .error e
  | .ok (rest, out) => decodeGroups dlen f rest out

theorem decodeGroups_cons {dlen f : Nat} (h : ¬ dlen ≤ out.length) (c : Byte) :
    decodeGroups dlen (f + 1) (c :: rest) out = groupsAfter dlen f (decodeTokens dlen c 8 rest out) := by
  rw [decodeGroups.eq_def]
  simp only
  rw [if_neg h]
  cases decodeTokens dlen c 8 rest out <;> rfl

/-- A machine at a token of a group: `t` bits of the control byte `c` are left, the next one on top (R31). -/
structure State.AtToken (s : State) (c : Byte) (t : Nat) : Prop where
  phase : s.phase = .dToken
  bits  : s.dec.bitsLeft = t
  ctrl  : s.dec.ctrl = c <<< (8 - t)

/-- The bit on top is the one R151 tests. -/
theorem topBit_shiftLeft (c : Byte) {t : Nat} (ht : t < 8) : topBit (c <<< (8 - (t + 1))) = c.getLsbD t := by
  rw [topBit, BitVec.getLsbD_shiftLeft, show 7 - (8 - (t + 1)) = t by omega, decide_eq_true (by omega),
    decide_eq_false (by omega)]
  simp

theorem State.Decoding.dispatch (h : s.Decoding inp d r0 r1 rest out) {c : Byte} {n : Nat} (ha : s.AtToken c (n + 1))
    (hn : n < 8) (howed : out.length < d.toNat) :
    ∃ t, step s = .next t ∧ t.Decoding inp d r0 r1 rest out ∧ t.phase = tokenPhase (c.getLsbD n) ∧
      t.dec.bitsLeft = n ∧ t.dec.ctrl = c <<< (8 - n) := by
  have hstep : step s = exec .dispatch s := step_of_phaseOp h.undisturbed (by rw [State.phaseOp, ha.phase])
  have hbits := ha.bits
  have hop := opDispatch_of_bits (s := s) (by rw [h.pos, h.dlen]; exact howed) (by omega)
  obtain ⟨hin, hres, _, hout⟩ := State.setDec_setPhase_keeps s { s.dec with
      cbit := topBit s.dec.ctrl
      ctrl := s.dec.ctrl <<< 1
      bitsLeft := s.dec.bitsLeft - 1 } (tokenPhase (topBit s.dec.ctrl))
  refine ⟨_, hstep.trans (settle_of_ok hop), h.of_read 0 hin hres hout rfl rfl rfl, ?_, ?_, ?_⟩
  · rw [State.setPhase_phase, ha.ctrl, topBit_shiftLeft c hn]
  · show s.dec.bitsLeft - 1 = n
    omega
  · show s.dec.ctrl <<< 1 = c <<< (8 - n)
    rw [ha.ctrl, ← BitVec.shiftLeft_add, show 8 - (n + 1) + 1 = 8 - n by omega]

/-- LIT, or Truncated (R143). -/
theorem State.Decoding.literal (h : s.Decoding inp d r0 r1 rest out) (hp : s.phase = .dLit)
    (howed : out.length < d.toNat) :
    (rest = [] ∧ TakesFault s .truncated (step s)) ∨
      ∃ v rest' t, rest = v :: rest' ∧ step s = .next t ∧ t.Decoding inp d r0 r1 rest' (out ++ [v]) ∧ t.phase = .dToken ∧
        KeepsBits s t := by
  have hlen := h.rest_length
  have hin := h.inputAt
  cases hr : rest with
  | nil =>
    rw [hr, List.length_nil] at hlen
    exact .inl ⟨rfl, (missingBytesRaiseTruncated s h.undisturbed).2.1 hp (by omega)⟩
  | cons v rest' =>
    have hv : s.inputAt s.dec.src = some v := by
      have := hin 0
      rwa [hr] at this
    obtain ⟨t, hexec, hout, hdec, hphase, hi, hres, _⟩ :=
      (litCopiesOneByte s v).2 (State.inputAt_lt hv) (State.obufFits_unlimited h.unlimited _)
    have ht := h.of_store 1 howed hi hres hout (by rw [hdec]) (by rw [hdec]) (by rw [hdec])
    rw [hr] at ht
    exact .inr ⟨v, rest', t, rfl, (step_literal h.undisturbed hp hv).trans hexec, ht, hphase, by rw [hdec], by rw [hdec]⟩

/-- A legal back-reference from its fetch to the end of its copy. -/
theorem State.Decoding.backRef_copied (h : s.Decoding inp d r0 r1 rest out) {k distance length : Nat} {out' : List Byte}
    (h1 : 1 ≤ distance) (hb : s.BackRefStep k distance length)
    (ha : applyBackRef d.toNat distance length out = .ok out') :
    s.Reaches fun t => t.Decoding inp d r0 r1 (rest.drop k) out' ∧ t.phase = .dToken ∧ KeepsBits s t := by
  unfold applyBackRef at ha
  split at ha
  · cases ha
  · split at ha
    · cases ha
    · cases ha
      have hpos := h.pos
      have hdlen := h.dlen
      obtain ⟨t, hstep, hphase, hdec, hin, hres, _, hout⟩ := hb.legal (by omega) (by omega)
      have ht := h.of_read k hin hres hout (by rw [hdec]) (by rw [hdec]) (by rw [hdec])
      have hdist : t.dec.distance = distance := by rw [hdec]
      have hpos' : t.dec.pos = s.dec.pos := by rw [hdec]
      have hcopy := ht.copy length hphase (by rw [hdec]) (by omega) (by omega) (by omega)
      rw [hdist] at hcopy
      refine .step hstep (hcopy.trans fun u hu => .here ?_)
      obtain ⟨hu, hphase', hbits, hctrl⟩ := hu
      exact ⟨hu, hphase', hbits.trans (by rw [hdec]), hctrl.trans (by rw [hdec])⟩

/-- R146's faults are R151's. -/
theorem State.Decoding.backRef_illegal (h : s.Decoding inp d r0 r1 rest out) {k distance length : Nat} {f : FaultKind}
    (hb : s.BackRefStep k distance length) (ha : applyBackRef d.toNat distance length out = .error f) :
    TakesFault s f (step s) := by
  have hpos := h.pos
  have hdlen := h.dlen
  unfold applyBackRef at ha
  split at ha
  · cases ha
    exact hb.before (by omega)
  · split at ha
    · cases ha
      exact hb.beyond (by omega) (by omega)
    · cases ha

/-! ## The loops -/

/-- What the machine does at a group boundary with `f` groups of fuel left, as R151 does it. -/
abbrev GroupsAgree (inp : List Byte) (d r0 r1 : Word32) (f : Nat) : Prop :=
  ∀ {s : State} {rest out : List Byte}, s.Decoding inp d r0 r1 rest out → s.phase = .dGroup → rest.length < f →
    s.Yields d r0 r1 (decodeGroups d.toNat f rest out)

theorem State.Decoding.token_complete (h : s.Decoding inp d r0 r1 rest out) (hp : s.phase = .dToken)
    (hdone : d.toNat ≤ out.length) : s.Yields d r0 r1 (.ok out) := by
  have hstep : step s = exec .dispatch s := step_of_phaseOp h.undisturbed (by rw [State.phaseOp, hp])
  exact h.yields_complete hdone (hstep.trans ((dispatchTakesTheTopBit s).1 (by rw [h.pos, h.dlen]; exact hdone)))

/-- With nothing owed the rest of the group is not read (R104, R106). -/
theorem State.Decoding.tokens_complete (h : s.Decoding inp d r0 r1 rest out) (hp : s.phase = .dToken)
    (hdone : d.toNat ≤ out.length) {f : Nat} (hf : rest.length < f) (c : Byte) (n : Nat) :
    s.Yields d r0 r1 (groupsAfter d.toNat f (decodeTokens d.toNat c n rest out)) := by
  obtain ⟨f, rfl⟩ : ∃ k, f = k + 1 := ⟨f - 1, by omega⟩
  rw [decodeTokens_of_complete hdone, groupsAfter, decodeGroups_of_complete hdone]
  exact h.token_complete hp hdone

/-- The tokens of one group, and what comes after them. -/
theorem State.Decoding.yields_tokens {f : Nat} (hgroups : GroupsAgree inp d r0 r1 f) (c : Byte) (n : Nat) :
    ∀ {s : State} {rest out : List Byte}, s.Decoding inp d r0 r1 rest out → s.AtToken c n → n ≤ 8 → rest.length < f →
      s.Yields d r0 r1 (groupsAfter d.toNat f (decodeTokens d.toNat c n rest out)) := by
  induction n with
  | zero =>
    intro s rest out h ha _ hf
    by_cases hdone : d.toNat ≤ out.length
    · exact h.tokens_complete ha.phase hdone hf c 0
    · have hstep : step s = exec .dispatch s := step_of_phaseOp h.undisturbed (by rw [State.phaseOp, ha.phase])
      have hnext := (dispatchTakesTheTopBit s).2.1 (by rw [h.pos, h.dlen]; omega) ha.bits
      have hgroup : (s.setPhase .dGroup).Decoding inp d r0 r1 rest out :=
        h.of_read 0 (by simp [KeepsInputs]) (by simp [KeepsResult]) (fun _ => rfl) rfl rfl rfl
      exact .step (hstep.trans hnext) (hgroups hgroup rfl hf)
  | succ n ih =>
    intro s rest out h ha hn hf
    by_cases hdone : d.toNat ≤ out.length
    · exact h.tokens_complete ha.phase hdone hf c (n + 1)
    · obtain ⟨t, hstep, ht, hphase, hbits, hctrl⟩ := h.dispatch ha (by omega) (by omega)
      refine .step hstep ?_
      cases hbit : c.getLsbD n with
      | true =>
        rw [hbit] at hphase
        rcases ht.literal hphase (by omega) with ⟨rfl, hfault⟩ | ⟨v, rest', u, rfl, hlit, hu, hp, hkeep⟩
        · rw [decodeTokens_literal_missing hdone hbit]
          exact State.yields_of_takesFault hfault
        · rw [decodeTokens_literal hdone hbit]
          rw [List.length_cons] at hf
          exact .step hlit (ih hu ⟨hp, hkeep.1.trans hbits, hkeep.2.trans hctrl⟩ (by omega) (by omega))
      | false =>
        rw [hbit] at hphase
        rcases ht.backRef hphase with ⟨hmissing, hfault⟩ | ⟨k, distance, length, hb, h1, hcopy⟩
        · rw [decodeTokens_code_missing hdone hbit hmissing]
          exact State.yields_of_takesFault hfault
        · cases happly : applyBackRef d.toNat distance length out with
          | error e =>
            rw [decodeTokens_illegal hdone hbit hb happly]
            exact State.yields_of_takesFault (ht.backRef_illegal hcopy happly)
          | ok out' =>
            rw [decodeTokens_backRef hdone hbit hb happly]
            refine (ht.backRef_copied h1 hcopy happly).trans fun u hu => ?_
            obtain ⟨hu, hp, hkeep⟩ := hu
            exact ih hu ⟨hp, hkeep.1.trans hbits, hkeep.2.trans hctrl⟩ (by omega) (by rw [List.length_drop]; omega)

/-- CTRL at a group boundary where a byte is owed (R141). -/
theorem State.Decoding.control {c : Byte} (h : s.Decoding inp d r0 r1 (c :: rest) out) (hp : s.phase = .dGroup)
    (howed : out.length < d.toNat) :
    ∃ t, step s = .next t ∧ t.Decoding inp d r0 r1 rest out ∧ t.AtToken c 8 := by
  have hc : s.inputAt s.dec.src = some c := h.inputAt 0
  obtain ⟨t, hexec, hdec, hphase, hin, hres, _, hout⟩ :=
    (ctrlLoadsTheControlByte s c).2.2 (by rw [h.pos, h.dlen]; exact howed) (State.inputAt_lt hc)
  refine ⟨t, (step_group h.undisturbed hp hc).trans hexec,
    h.of_read 1 hin hres hout (by rw [hdec]) (by rw [hdec]) (by rw [hdec]), hphase, by rw [hdec], ?_⟩
  rw [hdec, Nat.sub_self, BitVec.shiftLeft_zero]

/-- At every group boundary the machine goes on as R151 does. -/
theorem groupsAgree (inp : List Byte) (d r0 r1 : Word32) (f : Nat) : GroupsAgree inp d r0 r1 f := by
  induction f with
  | zero => intro s rest out _ _ hf; omega
  | succ f ih =>
    intro s rest out h hp hf
    by_cases hdone : d.toNat ≤ out.length
    · rw [decodeGroups_of_complete hdone]
      exact h.yields_complete hdone
        (step_of_phaseOp h.undisturbed (State.phaseOp_dGroup_complete hp (by rw [h.pos, h.dlen]; exact hdone)))
    · cases rest with
      | nil =>
        have hlen := h.rest_length
        rw [List.length_nil] at hlen
        have hmissing : decodeGroups d.toNat (f + 1) [] out = .error .truncated := if_neg hdone
        rw [hmissing]
        exact State.yields_of_takesFault
          ((missingBytesRaiseTruncated s h.undisturbed).1 hp (by rw [h.pos, h.dlen]; omega) (by omega))
      | cons c rest =>
        obtain ⟨t, hstep, ht, ha⟩ := h.control hp (by omega)
        rw [decodeGroups_cons hdone]
        rw [List.length_cons] at hf
        exact .step hstep (ht.yields_tokens ih c 8 ha le_rfl (by omega))

/-! ## The header -/

theorem State.reaches_of_parse_raise {f : FaultKind} (hu : s.Undisturbed) (hp : s.phase = .dHdr)
    (h : opHdrParse s = .error (.raise f)) : s.Reaches (·.ShowsDecode (.error f)) :=
  .step ((step_header hu hp).trans (settle_of_raise h)) (.here ⟨rfl, rfl, rfl, rfl, rfl, rfl⟩)

theorem State.HasInput.tagReads {m : Magic} (h : s.HasInput (m.bytes ++ rest)) : s.TagReads m :=
  ⟨h.inputAt 0, h.inputAt 1, h.inputAt 2, h.inputAt 3⟩

/-- HDR.PARSE reads the words a frame was made of. -/
theorem opHdrParse_of_frame (h : s.HasInput (frameOf s.cfg.magic d r0 r1 rest)) (hunlimited : s.cfg.obufCap = none) :
    opHdrParse s = .ok (s.withHeader d r0 r1) := by
  have hin := h.inputAt
  have htag : s.TagReads s.cfg.magic := ⟨hin 0, hin 1, hin 2, hin 3⟩
  have hlen : 16 ≤ s.len := by
    rw [h.1]
    simp [frameOf, Magic.bytes, bytesBe32]
  have hd := State.inputWord_of_some (hin 4) (hin 5) (hin 6) (hin 7)
  have h0 := State.inputWord_of_some (hin 8) (hin 9) (hin 10) (hin 11)
  have h1 := State.inputWord_of_some (hin 12) (hin 13) (hin 14) (hin 15)
  rw [be32_bytes] at hd h0 h1
  exact opHdrParse_of_words htag hlen hd h0 h1 (State.obufFits_unlimited hunlimited _)

/-- A DECODE that starts leaves P_DHDR. -/
theorem decode_start (hbusy : s.status ≠ .busy) (h : exec .decode s = .next t) : t = s.startCommand .dHdr := by
  cases hf : s.ibufFits s.len with
  | true =>
    cases (settle_of_ok (opDecode_of_fits hbusy hf)).symm.trans h
    rfl
  | false => exact nomatch (settle_eq_refused.2 (opDecode_of_capacity hbusy hf)).symm.trans h

/-- HDR.PARSE on a frame begins the groups with nothing written. -/
theorem decoding_of_withHeader (hu : s.Undisturbed) (hunlimited : s.cfg.obufCap = none) (herr : s.err = .none)
    (h : s.HasInput (frameOf s.cfg.magic d r0 r1 rest)) :
    (s.withHeader d r0 r1).Decoding (frameOf s.cfg.magic d r0 r1 rest) d r0 r1 rest [] where
  undisturbed := hu
  unlimited := hunlimited
  input := h
  err := herr
  words := ⟨rfl, rfl, rfl⟩
  dlen := rfl
  rest := rfl
  pos := rfl
  within := Nat.zero_le _
  written a ha := absurd ha (Nat.not_lt_zero a)

/-- From P_DHDR the machine shows what R151 gives, for each kind of input. -/
theorem State.reaches_decodeFn (hu : s.Undisturbed) (hp : s.phase = .dHdr) (hunlimited : s.cfg.obufCap = none)
    (herr : s.err = .none) (h : s.HasInput inp) : s.Reaches (·.ShowsDecode (decodeFn s.cfg.magic inp)) := by
  rcases input_cases s.cfg.magic inp with hs | ⟨m, rest, rfl, hm⟩ | ⟨rest, rfl, hs⟩ | ⟨d, r0, r1, rest, rfl⟩
  · rw [decodeFn_of_short _ hs]
    exact State.reaches_of_parse_raise hu hp (opHdrParse_of_len_lt_four (by rw [h.1]; exact hs))
  · rw [decodeFn_of_tag_ne hm]
    exact State.reaches_of_parse_raise hu hp (opHdrParse_of_tag_ne h.tagReads hm)
  · have hlen : s.len < 16 := by
      rw [h.1, List.length_append]
      exact Nat.add_lt_add_left hs 4
    rw [decodeFn_of_short_header _ hs]
    exact State.reaches_of_parse_raise hu hp (opHdrParse_of_len_lt_header h.tagReads hlen)
  · rw [decodeFn_frame]
    have hstep := (step_header hu hp).trans (settle_of_ok (opHdrParse_of_frame h hunlimited))
    exact .step hstep (groupsAgree _ d r0 r1 _ (decoding_of_withHeader hu hunlimited herr h) rfl (Nat.lt_succ_self _))

/-- Settles O53: a command start leaves a state of P_DHDR with the input loaded, and `State.reaches_decodeFn` goes on from
there. -/
theorem decodeCommandComputesDecode : Obligations.DecodeCommandComputesDecode := by
  intro s s0 inp hu hbusy hinput hunlimited hstart
  obtain rfl := decode_start hbusy hstart
  exact State.reaches_decodeFn (s := s.startCommand .dHdr) ⟨hu.1, rfl⟩ rfl hunlimited rfl hinput

end Sys2Proof.Machine
end
